-- ==== Sys2Proof/Word.lean ====
section
/-! DEFINITION. The widths of DES3-CORE (spec 00 R8, R9): what the spec treats as bits, each under its own name. -/

namespace Sys2Proof

/-- One byte of BUF (10 R33). -/
abbrev Byte := BitVec 8

/-- A bus word (00 R9, BUS_BITS = 32). -/
abbrev Word := BitVec 32

/-- A byte address of the aperture (00 R9, ADDR_BITS = 16). -/
abbrev Addr := BitVec 16

/-- A cipher block (00 R8, BLOCK_BITS = 64). -/
abbrev Block := BitVec 64

/-- A key fragment (00 R8, KEY_BITS = 56). -/
abbrev Key := BitVec 56

/-- A round key (00 R8, SUBKEY_BITS = 48). -/
abbrev Subkey := BitVec 48

/-- One half of a block in the Feistel network (43 R160). -/
abbrev Half := BitVec 32

end Sys2Proof
end

