-- ==== Sys2Proof/Syntax.lean ====
section
/-! DEFINITION. The commands of DES3-CORE (spec 30 R71, opcode_table.json): one constructor per row of the table, and
what a command word decodes to (30 R75). -/

namespace Sys2Proof

/-- The three key slots (10 R27): A and C are the EDE encrypt keys, B is the decrypt key. -/
inductive Slot where
  | a | b | c
  deriving DecidableEq, Repr

/-- The twelve commands. `ksel` is the field KSEL of the command word (30 R72): 0 = A, 1 = B, 2 = C; 3 names no slot,
and a term that holds it is not well formed. -/
inductive Instr where
  /-- 46 R220 -/
  | nop
  /-- 43 R165 -/
  | desEnc (ksel : BitVec 2)
  /-- 43 R166 -/
  | desDec (ksel : BitVec 2)
  /-- 44 R181 -/
  | ede3Enc
  /-- 44 R182 -/
  | ede3Dec
  /-- 44 R184 -/
  | bufEde3Enc
  /-- 44 R185 -/
  | bufEde3Dec
  /-- 45 R201 -/
  | pad
  /-- 45 R202 -/
  | unpad
  /-- 45 R203 -/
  | streamEnc
  /-- 45 R204 -/
  | streamDec
  /-- 46 R221 -/
  | ldkeys
  deriving DecidableEq, Repr

/-- What the word of a CMD write decodes to (30 R75): an operation, or Illegal, which the engine accepts too
(60 R301). -/
inductive Command where
  | illegal
  | op (i : Instr)
  deriving DecidableEq, Repr

end Sys2Proof
end

