-- ==== Sys2Proof/WellFormed.lean ====
section
/-! DEFINITION. Which instruction terms the encoding can hold (spec 30 R72, R73 (c)): KSEL = 3 names no slot. -/

namespace Sys2Proof

/-- The check, as a Bool. -/
def Instr.wf : Instr → Bool
  | .desEnc ksel => decide (ksel ≠ 3#2)
  | .desDec ksel => decide (ksel ≠ 3#2)
  | .nop | .ede3Enc | .ede3Dec | .bufEde3Enc | .bufEde3Dec => true
  | .pad | .unpad | .streamEnc | .streamDec | .ldkeys => true

/-- The instruction term is one that a legal command word stands for. -/
abbrev Instr.WellFormed (i : Instr) : Prop := i.wf = true

end Sys2Proof
end

