-- ==== Sys2Proof/Decode.lean ====
section
/-! DEFINITION. The decoder of command words, total on all 2^32 words (spec 30 R70 to R75), and after it the encoder,
written from the same field table (30 R70, R71). -/

namespace Sys2Proof

/-- Why a command word is illegal (30 R73). -/
inductive DecodeError where
  /-- R73 (a): RSV, bits 31:6, is not 0. -/
  | reservedBits
  /-- R73 (b): OP is 0xC to 0xF. -/
  | reservedOp
  /-- R73 (c): DES_ENC or DES_DEC with KSEL = 3. -/
  | noSuchSlot
  /-- R73 (d): another operation with a nonzero KSEL. -/
  | kselNotZero
  deriving DecidableEq, Repr

/-- The field OP, bits 3:0 (30 R70). -/
def opField (w : Word) : BitVec 4 := w.extractLsb' 0 4

/-- The field KSEL, bits 5:4 (30 R70). -/
def kselField (w : Word) : BitVec 2 := w.extractLsb' 4 2

/-- The field RSV, bits 31:6 (30 R70). -/
def rsvField (w : Word) : BitVec 26 := w.extractLsb' 6 26

/-- The operation an OP value selects when it takes no KSEL (30 R71); the values of DES_ENC, DES_DEC and the reserved
ones give none. -/
def plainOp (op : BitVec 4) : Option Instr :=
  match op.toNat with
  | 0x0 => some .nop
  | 0x3 => some .ede3Enc
  | 0x4 => some .ede3Dec
  | 0x5 => some .bufEde3Enc
  | 0x6 => some .bufEde3Dec
  | 0x7 => some .pad
  | 0x8 => some .unpad
  | 0x9 => some .streamEnc
  | 0xA => some .streamDec
  | 0xB => some .ldkeys
  | _ => none

/-- The decoder, in the order of 30 R75. -/
def decode (w : Word) : Except DecodeError Instr :=
  if rsvField w ≠ 0#26 then .error .reservedBits
  else if 0xC#4 ≤ opField w then .error .reservedOp
  else if opField w = 0x1#4 then
    if kselField w = 3#2 then .error .noSuchSlot else .ok (.desEnc (kselField w))
  else if opField w = 0x2#4 then
    if kselField w = 3#2 then .error .noSuchSlot else .ok (.desDec (kselField w))
  else if kselField w ≠ 0#2 then .error .kselNotZero
  else
    match plainOp (opField w) with
    | some i => .ok i
    | none => .error .reservedOp

/-- What the engine accepts (30 R75, 60 R301): the operation, or Illegal. -/
def decodeCommand (w : Word) : Command :=
  match decode w with
  | .ok i => .op i
  | .error _ => .illegal

/-- The instruction that a word of the opcode table, given as `nbits` bits numbered from the least significant, stands
for. A command is one 32-bit bus word, so no byte order comes in (20 R63); bits above `nbits` are 0, and a number that
does not fit the word is no command. -/
def decodeTableWord (nbits w : Nat) : Option Instr :=
  if w % 2 ^ nbits < 2 ^ 32 then
    match decode (BitVec.ofNat 32 (w % 2 ^ nbits)) with
    | .ok i => some i
    | .error _ => none
  else none

/-- The value of OP for each operation (30 R71). -/
def opOf : Instr → BitVec 4
  | .nop => 0x0#4
  | .desEnc _ => 0x1#4
  | .desDec _ => 0x2#4
  | .ede3Enc => 0x3#4
  | .ede3Dec => 0x4#4
  | .bufEde3Enc => 0x5#4
  | .bufEde3Dec => 0x6#4
  | .pad => 0x7#4
  | .unpad => 0x8#4
  | .streamEnc => 0x9#4
  | .streamDec => 0xA#4
  | .ldkeys => 0xB#4

/-- The value of KSEL for each operation (30 R72): 0 where the operation takes none. -/
def kselOf : Instr → BitVec 2
  | .desEnc ksel => ksel
  | .desDec ksel => ksel
  | .nop | .ede3Enc | .ede3Dec | .bufEde3Enc | .bufEde3Dec => 0#2
  | .pad | .unpad | .streamEnc | .streamDec | .ldkeys => 0#2

/-- The command word of an instruction: RSV = 0, KSEL, OP (30 R70). -/
def encode (i : Instr) : Word := (0#26 ++ kselOf i) ++ opOf i

end Sys2Proof
end

