-- ==== Sys2Proof/Machine/Cipher.lean ====
section
/-! DEFINITION. The cipher as pure functions (spec 40 to 44): the bit-permutation engine, the key schedule generator, the
S-box unit, the round function, the 16-round block cipher and the EDE3 composition of one block. -/

namespace Sys2Proof.Machine

/-! ### The bit-permutation engine (40) -/

/-- `permute(x, W, T)` (40 R100): the output's bits, most significant first, are the input positions T[0], T[1], ...,
where position p of a W-bit value is its bit W-p (00 R11). `n` is the number of entries of the table. -/
def permute {w : Nat} (n : Nat) (table : List Nat) (x : BitVec w) : BitVec n :=
  BitVec.ofNat n (table.foldl (fun acc p => 2 * acc + (x.getLsbD (w - p)).toNat) 0)

/-- Every entry of a table lies in 1 to `w` (40 R101). -/
def tableInRange (w : Nat) (table : List Nat) : Bool :=
  table.all fun p => decide (1 ≤ p) && decide (p ≤ w)

/-- IP (40 R102). -/
def initialPerm (x : Block) : Block := permute 64 ipTable x

/-- FP (40 R103). -/
def finalPerm (x : Block) : Block := permute 64 fpTable x

/-- E (40 R105). -/
def expand (r : Half) : Subkey := permute 48 eTable r

/-- P (40 R106). -/
def roundPerm (x : Half) : Half := permute 32 pTable x

/-! ### The key schedule generator (41) -/

/-- `rotl_W(v, n)` for 0 <= n < W, with the guarded zero case (00 R12). -/
def rotl {w : Nat} (v : BitVec w) (n : Nat) : BitVec w :=
  if n = 0 then v else (v <<< n) ||| (v >>> (w - n))

/-- The loop of KeySchedule (41 R122) from the halves C and D on, one subkey for each rotation count left. -/
def scheduleFrom : List Nat → BitVec 28 → BitVec 28 → List Subkey
  | [], _, _ => []
  | r :: rs, c, d =>
    permute 48 pc2Table (rotl c r ++ rotl d r : BitVec 56) :: scheduleFrom rs (rotl c r) (rotl d r)

/-- KeySchedule(K) (41 R122): 16 subkeys; the fragment is C0 || D0 directly. Irreducible, so that no proof about the
machine unfolds the schedule by accident. -/
@[irreducible] def keySchedule (k : Key) : List Subkey :=
  scheduleFrom rotTable (k.extractLsb' 28 28) (k.extractLsb' 0 28)

/-! ### The S-box unit and the round function (42) -/

/-- The lookup of one 6-bit group in S-box `g` (42 R141): the outer bits are the row, b[5] its high bit; the four middle
bits are the column. -/
def sboxLookup (g : Nat) (b : BitVec 6) : BitVec 4 :=
  BitVec.ofNat 4 ((sboxTable g).getD
    (16 * (b.extractLsb' 5 1 ++ b.extractLsb' 0 1 : BitVec 2).toNat + (b.extractLsb' 1 4).toNat) 0)

/-- The nibble n_g: group g is x[53-6g : 48-6g] (42 R141). -/
def nibble (g : Nat) (x : Subkey) : BitVec 4 := sboxLookup g (x.extractLsb' (48 - 6 * g) 6)

/-- SubstitutionBox (42 R141): n_1 || ... || n_8, n_1 in bits 31:28. -/
def substitute (x : Subkey) : Half :=
  nibble 1 x ++ nibble 2 x ++ nibble 3 x ++ nibble 4 x ++ nibble 5 x ++ nibble 6 x ++ nibble 7 x ++ nibble 8 x

/-- RoundFunction f(R, k) (42 R142). -/
def roundFn (r : Half) (k : Subkey) : Half := roundPerm (substitute (expand r ^^^ k))

/-! ### The block cipher (43) -/

/-- The direction input of the block cipher (41 R124, 43 R161). -/
inductive Dir where
  | enc | dec
  deriving DecidableEq, Repr

/-- The subkeys in the order the rounds use them: derivation order, or its exact reverse (41 R124). -/
def subkeyOrder (dir : Dir) (sk : List Subkey) : List Subkey :=
  match dir with
  | .enc => sk
  | .dec => sk.reverse

/-- One round: (L, R) <- (R, L XOR f(R, k)) (43 R160 step 2). -/
def feistelRound (lr : Half × Half) (k : Subkey) : Half × Half :=
  (lr.2, lr.1 ^^^ roundFn lr.2 k)

/-- The rounds, one for each subkey of the list (43 R160 step 2). -/
def feistel (lr : Half × Half) (ks : List Subkey) : Half × Half := ks.foldl feistelRound lr

/-- The two halves of a block (43 R160 step 2: L0 = x[63:32], R0 = x[31:0]). -/
def halves (x : Block) : Half × Half := (x.extractLsb' 32 32, x.extractLsb' 0 32)

/-- DES(b, SK, dir) (43 R160); step 3 concatenates (R16, L16). Irreducible, so that no proof about the machine unfolds the
cipher by accident. -/
@[irreducible] def des (b : Block) (sk : List Subkey) (dir : Dir) : Block :=
  let lr := feistel (halves (initialPerm b)) (subkeyOrder dir sk)
  finalPerm (lr.2 ++ lr.1)

/-- E_K (43 R161). -/
def desEncrypt (k : Key) (b : Block) : Block := des b (keySchedule k) .enc

/-- D_K (43 R161). -/
def desDecrypt (k : Key) (b : Block) : Block := des b (keySchedule k) .dec

/-! ### The EDE3 composition of one block (44) -/

/-- EDE3_E over the three fragments (44 R180). -/
def ede3Encrypt (ka kb kc : Key) (b : Block) : Block := desEncrypt kc (desDecrypt kb (desEncrypt ka b))

/-- EDE3_D, the exact mirror (44 R180). -/
def ede3Decrypt (ka kb kc : Key) (b : Block) : Block := desDecrypt ka (desEncrypt kb (desDecrypt kc b))

end Sys2Proof.Machine
end

