-- ==== Sys2Proof/Config.lean ====
section
/-! DEFINITION. What the spec leaves open (00 R9, R10; 20 R57; 70 R342): constants with no body, so that no proof can
lean on a value of theirs. The definitions that use them stand in Machine/Ops.lean and Machine/HostSide.lean. -/

namespace Sys2Proof.Config

/-- Selects the instance of the OPEN parameter BUF_BYTES (00 R9): see `Sys2Proof.Machine.bufBytes` (log entry 1). -/
opaque bufBlocksRaw : Nat

/-- `bufByte r i`: what byte `i` of BUF holds after the `r`-th reset (power-on is number 0), a free draw for each
byte and each reset (70 R342, log entry 2). -/
opaque bufByte : Nat → Nat → Byte

/-- `busyRead k`: the answer to the `k`-th unspecified read of a run, a free draw for each such read (20 R57,
log entry 3). -/
opaque busyRead : Nat → Word

/-- Selects the size of the host's hash (00 R10): see `Sys2Proof.Machine.hashSize` (log entry 12). -/
opaque hashSizeRaw : Nat

/-- `hashByte d i`: byte `i` of the host's hash of the byte string `d` (00 R10, log entry 12). -/
opaque hashByte : List Byte → Nat → Byte

end Sys2Proof.Config
end

