-- ==== Sys2Proof/Machine/State.lean ====
section
/-! DEFINITION. The state of DES3-CORE as plain data (spec 10 R20 to R42), the reasons a step can stop, and the state
right after power-on reset (70 R340). -/

namespace Sys2Proof.Machine

/-- The result codes of STATUS.ERRCODE (60 R300). Codes 6 to 15 are never produced and have no name. -/
inductive ErrCode where
  | ok | illegalCmd | keyErr | invalidInput | invalidPadding | lengthErr
  deriving DecidableEq, Repr

/-- The three passes of a buffer command (44 R184, R185). -/
inductive PassNo where
  | first | second | third
  deriving DecidableEq, Repr

/-- The phases of the engine's state machine (45 R210). -/
inductive Phase where
  | check
  | single
  | pad
  /-- `Pass(p, S)`: `done` is the set S of blocks already transformed, kept strictly rising. -/
  | pass (p : PassNo) (done : List Nat)
  | unpad
  | loadKeys
  | complete (code : ErrCode)
  deriving DecidableEq, Repr

/-- The hidden engine state ENG (10 R40): Idle, or Run(op, ksel, phase). -/
inductive Engine where
  | idle
  | run (cmd : Command) (phase : Phase)
  deriving DecidableEq, Repr

/-- One key slot (10 R27, R28): the 56-bit fragment and the two hidden written-flags. -/
structure KeySlot where
  key : Key
  hw : Bool
  lw : Bool
  deriving DecidableEq, Repr

/-- A host transaction on the slave port (20 R50). -/
inductive BusReq where
  | rd (addr : Addr)
  | wr (addr : Addr) (wdata : Word)
  deriving DecidableEq, Repr

/-- The response of the slave port (00 R6, 20 R50): `err` is true for SLVERR. -/
inductive BusResp where
  | read (rdata : Word) (err : Bool)
  | write (err : Bool)
  deriving DecidableEq, Repr

/-- One event that the outside world and the interleaving (60 R311) put before the machine. -/
inductive Input where
  /-- The host makes one transaction (20 R50). -/
  | access (req : BusReq)
  /-- `rst_n` is asserted and released (70 R340, R341). -/
  | reset
  /-- The engine takes ONE step of 45 R210; `pick` chooses the block of a Pass step among those left. -/
  | phase (pick : Nat)
  /-- The engine takes the completion step of 45 R211: the whole command at once. -/
  | run
  deriving DecidableEq, Repr

/-- BUF, as the cells that a host write or a command has defined since the last reset: byte indexes strictly rising
(`Memory.wf`). An index that is not listed has no value of its own (70 R342). -/
abbrev Memory := List Host.Cell

/-- The whole state (10 R42), then the slave port's last response and the model's own fields (`inputs`, `resets`,
`draws`). ID, PARAM, STATUS.BUSY, the KV bits, SK_HI, SK_LO and irq are functions of these. -/
structure State where
  /-- STATUS.DONE (10 R24) -/
  done : Bool
  /-- STATUS.WERR (10 R24) -/
  werr : Bool
  /-- STATUS.ERRCODE (10 R24, 60 R300) -/
  errCode : ErrCode
  /-- IE.DONE_IE (10 R25) -/
  doneIe : Bool
  /-- IE.WERR_IE (10 R25) -/
  werrIe : Bool
  /-- LENGTH (10 R26) -/
  length : Word
  /-- SKSEL.ROUND (10 R31) -/
  skRound : BitVec 4
  /-- SKSEL.SLOT (10 R31) -/
  skSlot : BitVec 2
  /-- KEY[A], HW[A], LW[A] (10 R27, R28) -/
  slotA : KeySlot
  /-- KEY[B], HW[B], LW[B] (10 R27, R28) -/
  slotB : KeySlot
  /-- KEY[C], HW[C], LW[C] (10 R27, R28) -/
  slotC : KeySlot
  /-- DIN (10 R29) -/
  din : Block
  /-- DOUT (10 R30) -/
  dout : Block
  /-- BUF (10 R33) -/
  buf : Memory
  /-- ENG (10 R40) -/
  eng : Engine
  /-- The last response on the slave port (00 R6); none before the first transaction after a reset (log entry 8). -/
  resp : Option BusResp
  /-- The model's own: the events to come, oldest first (log entry 4). -/
  inputs : List Input
  /-- The model's own: how many resets came after power-on; it selects the draw of BUF's bytes (log entry 2). -/
  resets : Nat
  /-- The model's own: how many unspecified reads were answered (log entry 3). -/
  draws : Nat
  deriving DecidableEq, Repr

/-- Why the machine stops. No instruction and no bus transaction stops it (93 part 1: no behaviour of the core is
stuck); these two name engine states that no run reaches, and both are safe (log entry 10). -/
inductive Fault where
  /-- Raised by a single engine step (`phaseStep`) in a Pad, Pass or Unpad phase whose bytes would lie outside BUF;
  20 R53 says that the engine makes no such access. Safe. -/
  | bufRange
  /-- Raised by a single engine step (`phaseStep`) in a phase that no arrow of 45 R210 gives the running operation.
  Safe. -/
  | noArrow
  deriving DecidableEq, Repr

/-- Why a step has no meaning. -/
inductive Refusal where
  /-- An arm of `exec` for an instruction without a meaning yet; no arm answers it. Safe. -/
  | notModelled (mnemonic : String)
  deriving DecidableEq, Repr

/-- The outcome of a step or of an instruction. -/
abbrev Result := Host.Outcome State Fault Refusal

/-- A key slot right after reset (70 R340): key 0, both written-flags 0. -/
def KeySlot.reset : KeySlot := { key := 0#56, hw := false, lw := false }

/-- The machine right after power-on reset (70 R340): every register at the spec's value, nothing of BUF defined; the
model's own fields start empty and at 0 (log entries 2, 3, 4, 8). -/
def State.reset : State where
  done := false
  werr := false
  errCode := .ok
  doneIe := false
  werrIe := false
  length := 0#32
  skRound := 0#4
  skSlot := 0#2
  slotA := KeySlot.reset
  slotB := KeySlot.reset
  slotC := KeySlot.reset
  din := 0#64
  dout := 0#64
  buf := []
  eng := .idle
  resp := none
  inputs := []
  resets := 0
  draws := 0

end Sys2Proof.Machine
end

