-- ==== Sys2Proof/Machine/Ops.lean ====
section
/-! DEFINITION. The named operations over registers and BUF, acceptance of a command, and Complete(code), the one way a
command ends, with or without an error (spec 20 R53, 60 R301 to R304). -/

namespace Sys2Proof.Machine

/-! ### The OPEN parameter -/

/-- BUF_BYTES (00 R9): a multiple of 8 from 24 to 61440, otherwise open (log entry 1). -/
def bufBytes : Nat := 8 * (Config.bufBlocksRaw % 7678 + 3)

/-! ### BUF as a list of cells -/

/-- The canonical form: byte indexes strictly rising, all inside BUF (10 R33). -/
abbrev Memory.wf (m : Memory) : Prop :=
  m.Pairwise (fun x y => x.1 < y.1) ∧ ∀ c ∈ m, c.1 < bufBytes

/-- What the cells say of byte `i`; none where nothing has defined it since the last reset. -/
def Memory.lookup : Memory → Nat → Option Byte
  | [], _ => none
  | (j, v) :: m, i => if j = i then some v else Memory.lookup m i

/-- Define byte `i`, keeping the cells in rising order. -/
def Memory.store : Memory → Nat → Byte → Memory
  | [], i, v => [(i, v)]
  | (j, w) :: m, i, v =>
    if i < j then (i, v) :: (j, w) :: m
    else if i = j then (i, v) :: m
    else (j, w) :: Memory.store m i v

/-! ### Field updates -/

/-- BUF changes. -/
def State.setBuf (s : State) (m : Memory) : State := { s with buf := m }

/-- LENGTH changes (10 R26). -/
def State.setLength (s : State) (w : Word) : State := { s with length := w }

/-- DIN changes (10 R29). -/
def State.setDin (s : State) (b : Block) : State := { s with din := b }

/-- DOUT changes (10 R30). -/
def State.setDout (s : State) (b : Block) : State := { s with dout := b }

/-- ENG changes (10 R40). -/
def State.setEng (s : State) (e : Engine) : State := { s with eng := e }

/-- The port gives a response (20 R50). -/
def State.respond (s : State) (r : BusResp) : State := { s with resp := some r }

/-- STATUS.WERR is set: a host write was dropped (20 R56). -/
def State.setWerr (s : State) : State := { s with werr := true }

/-- The two W1C fields change (10 R24). -/
def State.setFlags (s : State) (done werr : Bool) : State := { s with done := done, werr := werr }

/-- IE changes (10 R25). -/
def State.setIe (s : State) (doneIe werrIe : Bool) : State := { s with doneIe := doneIe, werrIe := werrIe }

/-- SKSEL changes (10 R31). -/
def State.setSksel (s : State) (round : BitVec 4) (slot : BitVec 2) : State :=
  { s with skRound := round, skSlot := slot }

/-- The events still to come change (log entry 4). -/
def State.setInputs (s : State) (is : List Input) : State := { s with inputs := is }

/-- One more unspecified read has been answered (log entry 3). -/
def State.countDraw (s : State) : State := { s with draws := s.draws + 1 }

/-- The key slot named `k` (10 R27). -/
def State.slot (s : State) : Slot → KeySlot
  | .a => s.slotA
  | .b => s.slotB
  | .c => s.slotC

/-- The key slot named `k` changes. -/
def State.setSlot (s : State) (k : Slot) (v : KeySlot) : State :=
  match k with
  | .a => { s with slotA := v }
  | .b => { s with slotB := v }
  | .c => { s with slotC := v }

/-! ### Bytes and big-endian values of BUF (20 R53) -/

/-- BUF[i]: the byte last defined, else this reset's free draw for it (70 R342, log entry 2). -/
def State.readByte (s : State) (i : Nat) : Byte :=
  (s.buf.lookup i).getD (Config.bufByte s.resets i)

/-- BUF[i] <- v. -/
def State.writeByte (s : State) (i : Nat) (v : Byte) : State := s.setBuf (s.buf.store i v)

/-- MemRead(i, n) = BUF[i] || ... || BUF[i+n-1] (20 R53). -/
def State.memRead (s : State) (i : Nat) : (n : Nat) → BitVec (8 * n)
  | 0 => 0#0
  | n + 1 => (s.memRead i n ++ s.readByte (i + n) : BitVec (8 * n + 8))

/-- MemWrite(i, n, v): BUF[i+k] <- v[8(n-k)-1 : 8(n-k)-8] for k = 0 to n-1 (20 R53). -/
def State.memWrite (s : State) (i n : Nat) (v : BitVec (8 * n)) : State :=
  (List.range n).foldl (fun t k => t.writeByte (i + k) (v.extractLsb' (8 * (n - k) - 8) 8)) s

/-- BUF[i+k] <- v for k = 0 to n-1 (45 R201). -/
def State.fill (s : State) (i n : Nat) (v : Byte) : State :=
  (List.range n).foldl (fun t k => t.writeByte (i + k) v) s

/-! ### Acceptance and completion (60) -/

/-- Acceptance of the command word `w` (60 R301). -/
def State.accept (s : State) (w : Word) : State :=
  { s with eng := .run (decodeCommand w) .check, done := false, errCode := .ok }

/-- Complete(code) (60 R304): the result code is recorded, DONE is set, the engine is Idle, so BUSY is 0. This is the
core's whole exception mechanism: `raise CmdError(code)` is Complete(code) with the effects of earlier lines kept
(60 R303), and there is no trap entry and no return (60 R321). -/
def State.complete (s : State) (code : ErrCode) : State :=
  { s with errCode := code, done := true, eng := .idle }

/-- The code of the first check that fails, in the order written (60 R302). -/
def firstError : List (Bool × ErrCode) → Option ErrCode
  | [] => none
  | (fails, code) :: rest => if fails then some code else firstError rest

/-- A command of the form `if ... then raise ...; ...; body`: the first failing check ends the command with every other
state as it was (60 R303), else the body runs. -/
def guarded (checks : List (Bool × ErrCode)) (body : State → State) (s : State) : Result :=
  .next (match firstError checks with
    | some code => s.complete code
    | none => body s)

/-- Reset (70 R340, R341): every register at its reset value, a running command aborted, every byte of BUF undefined and
drawn anew (70 R342). The events still to come and the count of draws are not the core's and stay. -/
def State.takeReset (s : State) : State :=
  { State.reset with inputs := s.inputs, draws := s.draws, resets := s.resets + 1 }

end Sys2Proof.Machine
end

