-- ==== Sys2Proof/Machine/Flags.lean ====
section
/-! DEFINITION. The flags: BUSY and the KV bits, the STATUS and IE words, and the interrupt output (spec 10 R24, R25, R28,
R40; 60 R300, R320). -/

namespace Sys2Proof.Machine

/-- A slot is valid when both halves have been written (10 R28). -/
def KeySlot.valid (k : KeySlot) : Bool := k.hw && k.lw

/-- STATUS.KV_s (10 R28). -/
def State.kv (s : State) (k : Slot) : Bool := (s.slot k).valid

/-- All three KV bits (44 R181). -/
def State.allKv (s : State) : Bool := s.kv .a && s.kv .b && s.kv .c

/-- STATUS.BUSY = 1 exactly when ENG is not Idle (10 R40). -/
def State.busy (s : State) : Bool :=
  match s.eng with
  | .idle => false
  | .run _ _ => true

/-- The number of a result code (60 R300). -/
def ErrCode.code : ErrCode → BitVec 4
  | .ok => 0#4
  | .illegalCmd => 1#4
  | .keyErr => 2#4
  | .invalidInput => 3#4
  | .invalidPadding => 4#4
  | .lengthErr => 5#4

/-- One bit. -/
def bit (b : Bool) : BitVec 1 := BitVec.ofBool b

/-- The STATUS word (10 R24): 31:11 reserved, KV_C, KV_B, KV_A, ERRCODE in 7:4, 3 reserved, WERR, DONE, BUSY. -/
def State.statusWord (s : State) : Word :=
  0#21 ++ bit (s.kv .c) ++ bit (s.kv .b) ++ bit (s.kv .a) ++ s.errCode.code ++ 0#1 ++ bit s.werr ++ bit s.done
    ++ bit s.busy

/-- A write of `w` to STATUS: each W1C field whose bit in `w` is 1 is cleared, the rest of `w` is ignored (10 R24). -/
def State.writeStatus (s : State) (w : Word) : State :=
  s.setFlags (s.done && !w.getLsbD 1) (s.werr && !w.getLsbD 2)

/-- The IE word (10 R25). -/
def State.ieWord (s : State) : Word := 0#30 ++ bit s.werrIe ++ bit s.doneIe

/-- A write of `w` to IE updates bits 1:0 (10 R25). -/
def State.writeIe (s : State) (w : Word) : State := s.setIe (w.getLsbD 0) (w.getLsbD 1)

/-- The interrupt output (60 R320). -/
def State.irq (s : State) : Bool := (s.done && s.doneIe) || (s.werr && s.werrIe)

end Sys2Proof.Machine
end

