-- ==== Sys2Proof/Machine/Operands.lean ====
section
/-! DEFINITION. The operands of the commands: the slot that KSEL names, the schedule of a slot, LENGTH and the blocks of BUF,
the pad count, and the error checks the commands share (spec 30 R72, 10 R34, 20 R54, 45 R200, 60 R300). -/

namespace Sys2Proof.Machine

/-- The slot a two-bit selector names (30 R72, 10 R31): 0 = A, 1 = B, 2 = C; 3 names none. -/
def slotOf (sel : BitVec 2) : Option Slot :=
  match sel.toNat with
  | 0 => some .a
  | 1 => some .b
  | 2 => some .c
  | _ => none

/-- KEY[s] (10 R27). -/
def State.key (s : State) (k : Slot) : Key := (s.slot k).key

/-- SCHED[s], a function of KEY[s] at every instant (10 R34). -/
def State.sched (s : State) (k : Slot) : List Subkey := keySchedule (s.key k)

/-- LENGTH as a number (10 R26). -/
def State.len (s : State) : Nat := s.length.toNat

/-- N = LENGTH / 8 (44 R184). -/
def State.blocks (s : State) : Nat := s.len / 8

/-- LENGTH takes the value of a number. -/
def State.setLen (s : State) (n : Nat) : State := s.setLength (BitVec.ofNat 32 n)

/-- Block j of the buffer, MemRead(8j, 8) (20 R54). -/
def State.readBlock (s : State) (j : Nat) : Block := s.memRead (8 * j) 8

/-- A block is written back with MemWrite(8j, 8, v) (20 R54). -/
def State.writeBlock (s : State) (j : Nat) (v : Block) : State := s.memWrite (8 * j) 8 v

/-- padcount(L) = 8 - (L mod 8) (45 R200). -/
def padCount (n : Nat) : Nat := 8 - n % 8

/-! The error checks (60 R300): true where the check fails. -/

/-- LENGTH > BUF_BYTES. -/
def State.tooLong (s : State) : Bool := decide (bufBytes < s.len)

/-- LENGTH + padcount(LENGTH) > BUF_BYTES (45 R201). -/
def State.noRoom (s : State) : Bool := decide (bufBytes < s.len + padCount s.len)

/-- LENGTH mod 8 is not 0 (44 R184). -/
def State.unaligned (s : State) : Bool := decide (s.len % 8 ≠ 0)

/-- LENGTH = 0 or LENGTH mod 8 is not 0 (45 R202). -/
def State.emptyOrUnaligned (s : State) : Bool := decide (s.len = 0) || s.unaligned

/-- LENGTH < 21, a key file that is too short (46 R221). -/
def State.shortKeyFile (s : State) : Bool := decide (s.len < 21)

end Sys2Proof.Machine
end

