-- ==== Sys2Proof/Machine/Bus.lean ====
section
/-! DEFINITION. The host's transactions on the slave port: the register map, defined and unspecified reads, writes, the busy
interlock and the bus error (spec 10 R20 to R33, 20 R50 to R59, 60 R306). -/

namespace Sys2Proof.Machine

/-- What stands at an aligned offset of the aperture (10 R20). -/
inductive Reg where
  | id | param | cmd | status | ie | length | sksel | skHi | skLo
  | keyHi (k : Slot) | keyLo (k : Slot)
  | dinHi | dinLo | doutHi | doutLo
  /-- Window word `i`: BUF[4i] to BUF[4i+3] (20 R52). -/
  | window (i : Nat)
  | reserved
  deriving DecidableEq, Repr

/-- The register map (10 R20). -/
def regAt (addr : Addr) : Reg :=
  match addr.toNat with
  | 0x0000 => .id
  | 0x0004 => .param
  | 0x0008 => .cmd
  | 0x000C => .status
  | 0x0010 => .ie
  | 0x0014 => .length
  | 0x0018 => .sksel
  | 0x001C => .skHi
  | 0x0020 => .skLo
  | 0x0030 => .keyHi .a
  | 0x0034 => .keyLo .a
  | 0x0038 => .keyHi .b
  | 0x003C => .keyLo .b
  | 0x0040 => .keyHi .c
  | 0x0044 => .keyLo .c
  | 0x0050 => .dinHi
  | 0x0054 => .dinLo
  | 0x0058 => .doutHi
  | 0x005C => .doutLo
  | a => if 0x1000 ≤ a ∧ a < 0x1000 + bufBytes then .window ((a - 0x1000) / 4) else .reserved

/-- addr[1:0] is not 0 (20 R51). -/
def misaligned (addr : Addr) : Bool := decide (addr.extractLsb' 0 2 ≠ 0#2)

/-! ### Reads -/

/-- The subkey that SKSEL selects, whatever the KV bits (10 R32); 0 where SLOT = 3 names no slot. -/
def State.selectedSubkey (s : State) : Subkey :=
  match slotOf s.skSlot with
  | some k => (s.sched k).getD s.skRound.toNat 0#48
  | none => 0#48

/-- The defined value of a register (10 R21 to R32, 20 R52, R58). -/
def State.regValue (s : State) : Reg → Word
  | .id => 0x44455333#32
  | .param => BitVec.ofNat 32 bufBytes
  | .cmd => 0#32
  | .status => s.statusWord
  | .ie => s.ieWord
  | .length => s.length
  | .sksel => 0#26 ++ s.skSlot ++ s.skRound
  | .skHi => 0#16 ++ s.selectedSubkey.extractLsb' 32 16
  | .skLo => s.selectedSubkey.extractLsb' 0 32
  | .keyHi k => 0#8 ++ (s.key k).extractLsb' 32 24
  | .keyLo k => (s.key k).extractLsb' 0 32
  | .dinHi => s.din.extractLsb' 32 32
  | .dinLo => s.din.extractLsb' 0 32
  | .doutHi => s.dout.extractLsb' 32 32
  | .doutLo => s.dout.extractLsb' 0 32
  | .window i => s.memRead (4 * i) 4
  | .reserved => 0#32

/-- The registers whose reads are unspecified while BUSY = 1 (20 R57). -/
def Reg.openWhileBusy : Reg → Bool
  | .length | .doutHi | .doutLo | .window _ => true
  | .id | .param | .cmd | .status | .ie | .sksel | .skHi | .skLo => false
  | .keyHi _ | .keyLo _ | .dinHi | .dinLo | .reserved => false

/-- RD(addr) (20 R50): only the port's response changes, but for the count of free draws (log entry 3). -/
def State.hostRead (s : State) (addr : Addr) : State :=
  if misaligned addr then s.respond (.read 0#32 true)
  else if s.busy && (regAt addr).openWhileBusy then
    (s.respond (.read (Config.busyRead s.draws) false)).countDraw
  else s.respond (.read (s.regValue (regAt addr)) false)

/-! ### Writes -/

/-- The registers whose writes are dropped while BUSY = 1 (20 R56). -/
def Reg.interlocked : Reg → Bool
  | .cmd | .length | .sksel | .keyHi _ | .keyLo _ | .dinHi | .dinLo | .window _ => true
  | .id | .param | .status | .ie | .skHi | .skLo | .doutHi | .doutLo | .reserved => false

/-- A write to KEYs_HI: bits 23:0 become KEY[s][55:32], and HW[s] is set (10 R27, R28). -/
def State.writeKeyHi (s : State) (k : Slot) (w : Word) : State :=
  s.setSlot k { key := w.extractLsb' 0 24 ++ (s.key k).extractLsb' 0 32, hw := true, lw := (s.slot k).lw }

/-- A write to KEYs_LO: it becomes KEY[s][31:0], and LW[s] is set (10 R27, R28). -/
def State.writeKeyLo (s : State) (k : Slot) (w : Word) : State :=
  s.setSlot k { key := (s.key k).extractLsb' 32 24 ++ w, hw := (s.slot k).hw, lw := true }

/-- A write that is performed (10 R21 to R33, 20 R52, R58): read-only and reserved places ignore it. -/
def State.writeReg (s : State) (r : Reg) (w : Word) : State :=
  match r with
  | .cmd => s.accept w
  | .status => s.writeStatus w
  | .ie => s.writeIe w
  | .length => s.setLength w
  | .sksel => s.setSksel (w.extractLsb' 0 4) (w.extractLsb' 4 2)
  | .keyHi k => s.writeKeyHi k w
  | .keyLo k => s.writeKeyLo k w
  | .dinHi => s.setDin (w ++ s.din.extractLsb' 0 32)
  | .dinLo => s.setDin (s.din.extractLsb' 32 32 ++ w)
  | .window i => s.memWrite (4 * i) 4 w
  | .id | .param | .skHi | .skLo | .doutHi | .doutLo | .reserved => s

/-- WR(addr, wdata) (20 R50, R51, R56): a misaligned write is an error without effect; an interlocked one is dropped while
BUSY = 1 and sets WERR. -/
def State.hostWrite (s : State) (addr : Addr) (w : Word) : State :=
  if misaligned addr then s.respond (.write true)
  else if s.busy && (regAt addr).interlocked then s.setWerr.respond (.write false)
  else (s.writeReg (regAt addr) w).respond (.write false)

/-- One host transaction (20 R50). -/
def State.access (s : State) : BusReq → State
  | .rd addr => s.hostRead addr
  | .wr addr w => s.hostWrite addr w

end Sys2Proof.Machine
end

