-- ==== Sys2Proof/Machine/Control.lean ====
section
/-! DEFINITION. The control commands NOP and LDKEYS (spec 46). -/

namespace Sys2Proof.Machine

/-- NOP (46 R220): complete with no effect. -/
def execNop (s : State) : Result := .next (s.complete .ok)

/-- The error checks of LDKEYS, in order (46 R221). -/
def State.ldkeysChecks (s : State) : List (Bool × ErrCode) :=
  [(s.tooLong, .lengthErr), (s.shortKeyFile, .keyErr)]

/-- A slot as LDKEYS leaves it: the fragment MemRead(i, 7), both written-flags set (46 R221, 20 R55). -/
def State.slotFromFile (s : State) (i : Nat) : KeySlot := { key := s.memRead i 7, hw := true, lw := true }

/-- The three fragments of the key file at BUF[0..20] (46 R221). -/
def State.loadKeys (s : State) : State :=
  { s with slotA := s.slotFromFile 0, slotB := s.slotFromFile 7, slotC := s.slotFromFile 14 }

/-- LDKEYS (46 R221). -/
def execLdkeys (s : State) : Result := guarded s.ldkeysChecks (fun t => t.loadKeys.complete .ok) s

end Sys2Proof.Machine
end

