-- ==== Sys2Proof/Machine/Ede3.lean ====
section
/-! DEFINITION. The EDE3 commands: one block (EDE3_ENC, EDE3_DEC) and the buffer in place (BUF_EDE3_ENC, BUF_EDE3_DEC)
(spec 44). -/

namespace Sys2Proof.Machine

/-- The error check of EDE3_ENC and EDE3_DEC (44 R181). -/
def State.ede3Checks (s : State) : List (Bool × ErrCode) := [(!s.allKv, .keyErr)]

/-- EDE3_E(b) with the three slots (44 R180). -/
def State.ede3Enc (s : State) (b : Block) : Block := ede3Encrypt (s.key .a) (s.key .b) (s.key .c) b

/-- EDE3_D(b) with the three slots (44 R180). -/
def State.ede3Dec (s : State) (b : Block) : Block := ede3Decrypt (s.key .a) (s.key .b) (s.key .c) b

/-- EDE3_ENC (44 R181). -/
def execEde3Enc (s : State) : Result :=
  guarded s.ede3Checks (fun t => (t.setDout (t.ede3Enc t.din)).complete .ok) s

/-- EDE3_DEC (44 R182). -/
def execEde3Dec (s : State) : Result :=
  guarded s.ede3Checks (fun t => (t.setDout (t.ede3Dec t.din)).complete .ok) s

/-- The direction and slot of each pass of an encryption (44 R184). -/
def encPass : PassNo → Dir × Slot
  | .first => (.enc, .a)
  | .second => (.dec, .b)
  | .third => (.enc, .c)

/-- The direction and slot of each pass of a decryption (44 R185). -/
def decPass : PassNo → Dir × Slot
  | .first => (.dec, .c)
  | .second => (.enc, .b)
  | .third => (.dec, .a)

/-- One block of one pass: MemWrite(8j, 8, DES(MemRead(8j, 8), SCHED[s], dir)) (44 R184). -/
def State.passBlock (s : State) (pass : Dir × Slot) (j : Nat) : State :=
  s.writeBlock j (des (s.readBlock j) (s.sched pass.2) pass.1)

/-- One pass over the blocks of a list, in its order (44 R184, R186). -/
def State.runPass (s : State) (pass : Dir × Slot) (js : List Nat) : State :=
  js.foldl (fun t j => t.passBlock pass j) s

/-- The three passes over the blocks of BUF[0 .. LENGTH-1], blocks in index order (44 R184 to R186). -/
def State.threePasses (s : State) (plan : PassNo → Dir × Slot) : State :=
  ((s.runPass (plan .first) (List.range s.blocks)).runPass (plan .second) (List.range s.blocks)).runPass
    (plan .third) (List.range s.blocks)

/-- The error checks of BUF_EDE3_ENC and BUF_EDE3_DEC, in order (44 R184, R185). -/
def State.bufChecks (s : State) : List (Bool × ErrCode) :=
  [(s.tooLong, .lengthErr), (s.unaligned, .invalidInput), (!s.allKv, .keyErr)]

/-- BUF_EDE3_ENC (44 R184). -/
def execBufEde3Enc (s : State) : Result :=
  guarded s.bufChecks (fun t => (t.threePasses encPass).complete .ok) s

/-- BUF_EDE3_DEC (44 R185). -/
def execBufEde3Dec (s : State) : Result :=
  guarded s.bufChecks (fun t => (t.threePasses decPass).complete .ok) s

end Sys2Proof.Machine
end

