-- ==== Sys2Proof/Machine/Padding.lean ====
section
/-! DEFINITION. Padding and the stream commands: PAD, UNPAD, STREAM_ENC, STREAM_DEC (spec 45 R200 to R204). -/

namespace Sys2Proof.Machine

/-- The error checks of PAD, in order (45 R201). -/
def State.padChecks (s : State) : List (Bool × ErrCode) :=
  [(s.tooLong, .lengthErr), (s.noRoom, .lengthErr)]

/-- The padding: n = padcount(LENGTH) bytes of value n from BUF[LENGTH] on, LENGTH <- LENGTH + n (45 R201). -/
def State.addPadding (s : State) : State :=
  (s.fill s.len (padCount s.len) (BitVec.ofNat 8 (padCount s.len))).setLen (s.len + padCount s.len)

/-- PAD (45 R201). -/
def execPad (s : State) : Result := guarded s.padChecks (fun t => t.addPadding.complete .ok) s

/-- The error checks of UNPAD before its last-byte check, in order (45 R202). -/
def State.unpadChecks (s : State) : List (Bool × ErrCode) :=
  [(s.tooLong, .lengthErr), (s.emptyOrUnaligned, .invalidInput)]

/-- The last byte, BUF[LENGTH-1] (45 R202). -/
def State.lastByte (s : State) : Byte := s.readByte (s.len - 1)

/-- The last-byte check fails: p < 1 or p > 8 (45 R202). -/
def badPadding (p : Byte) : Bool := decide (p < 1#8) || decide (8#8 < p)

/-- LENGTH <- LENGTH - p, p the last byte (45 R202). -/
def State.dropPadding (s : State) : State := s.setLen (s.len - s.lastByte.toNat)

/-- The end of UNPAD and STREAM_DEC: the last-byte check, then the shorter LENGTH (45 R202, R204). -/
def State.unpadEnd (s : State) : State :=
  if badPadding s.lastByte then s.complete .invalidPadding else s.dropPadding.complete .ok

/-- UNPAD (45 R202). -/
def execUnpad (s : State) : Result := guarded s.unpadChecks State.unpadEnd s

/-- The error checks of STREAM_ENC, in order (45 R203). -/
def State.streamEncChecks (s : State) : List (Bool × ErrCode) :=
  [(s.tooLong, .lengthErr), (s.noRoom, .lengthErr), (!s.allKv, .keyErr)]

/-- STREAM_ENC (45 R203): the padding, then the three passes over the new LENGTH. -/
def execStreamEnc (s : State) : Result :=
  guarded s.streamEncChecks (fun t => (t.addPadding.threePasses encPass).complete .ok) s

/-- The error checks of STREAM_DEC before its last-byte check, in order (45 R204). -/
def State.streamDecChecks (s : State) : List (Bool × ErrCode) :=
  [(s.tooLong, .lengthErr), (s.emptyOrUnaligned, .invalidInput), (!s.allKv, .keyErr)]

/-- STREAM_DEC (45 R204): the three passes, then the last-byte check on the decrypted bytes. -/
def execStreamDec (s : State) : Result :=
  guarded s.streamDecChecks (fun t => (t.threePasses decPass).unpadEnd) s

end Sys2Proof.Machine
end

