-- ==== Sys2Proof/Machine/SingleDes.lean ====
section
/-! DEFINITION. The single-DES commands DES_ENC and DES_DEC (spec 43 R165, R166). -/

namespace Sys2Proof.Machine

/-- The error checks of DES_ENC and DES_DEC, in order (43 R165): a selector that names no slot is ILLEGAL_CMD (30 R73 (c);
the decoder refuses such a word, log entry 9), then the slot's KV bit. -/
def State.desChecks (s : State) (ksel : BitVec 2) : List (Bool × ErrCode) :=
  match slotOf ksel with
  | none => [(true, .illegalCmd)]
  | some k => [(!s.kv k, .keyErr)]

/-- DES(DIN, SCHED[ksel], dir) (43 R165, R166); none where the selector names no slot. -/
def State.desResult (s : State) (ksel : BitVec 2) (dir : Dir) : Option Block :=
  (slotOf ksel).map fun k => des s.din (s.sched k) dir

/-- DOUT <- the result, if there is one. -/
def State.putResult (s : State) (r : Option Block) : State :=
  match r with
  | some b => s.setDout b
  | none => s

/-- DES_ENC (43 R165). -/
def execDesEnc (ksel : BitVec 2) (s : State) : Result :=
  guarded (s.desChecks ksel) (fun t => (t.putResult (t.desResult ksel .enc)).complete .ok) s

/-- DES_DEC (43 R166). -/
def execDesDec (ksel : BitVec 2) (s : State) : Result :=
  guarded (s.desChecks ksel) (fun t => (t.putResult (t.desResult ksel .dec)).complete .ok) s

end Sys2Proof.Machine
end

