-- ==== Sys2Proof/Machine/Dispatch.lean ====
section
/-! DEFINITION. One arm per command: the completion step of 45 R211, which applies the command's pseudocode from its first
line to complete() or raise. -/

namespace Sys2Proof.Machine

def exec (i : Instr) (s : State) : Host.Outcome State Fault Refusal :=
  match i with
  | .nop => Sys2Proof.Machine.execNop s
  | .desEnc ksel => Sys2Proof.Machine.execDesEnc ksel s
  | .desDec ksel => Sys2Proof.Machine.execDesDec ksel s
  | .ede3Enc => Sys2Proof.Machine.execEde3Enc s
  | .ede3Dec => Sys2Proof.Machine.execEde3Dec s
  | .bufEde3Enc => Sys2Proof.Machine.execBufEde3Enc s
  | .bufEde3Dec => Sys2Proof.Machine.execBufEde3Dec s
  | .pad => Sys2Proof.Machine.execPad s
  | .unpad => Sys2Proof.Machine.execUnpad s
  | .streamEnc => Sys2Proof.Machine.execStreamEnc s
  | .streamDec => Sys2Proof.Machine.execStreamDec s
  | .ldkeys => Sys2Proof.Machine.execLdkeys s

end Sys2Proof.Machine
end

