-- ==== Sys2Proof/Machine/Phases.lean ====
section
/-! DEFINITION. The engine's state machine, one arrow of 45 R210 at a time: phases Check, Single, Pad, Pass(p, S), Unpad,
LoadKeys and Complete(code). `exec` (Machine/Dispatch.lean) is the whole command at once (45 R211). -/

namespace Sys2Proof.Machine

/-- The error checks of each operation before its first state change, in the order of its rule (60 R302). -/
def State.checks (s : State) : Instr → List (Bool × ErrCode)
  | .nop => []
  | .desEnc ksel => s.desChecks ksel
  | .desDec ksel => s.desChecks ksel
  | .ede3Enc => s.ede3Checks
  | .ede3Dec => s.ede3Checks
  | .bufEde3Enc => s.bufChecks
  | .bufEde3Dec => s.bufChecks
  | .pad => s.padChecks
  | .unpad => s.unpadChecks
  | .streamEnc => s.streamEncChecks
  | .streamDec => s.streamDecChecks
  | .ldkeys => s.ldkeysChecks

/-- The first work phase of each operation (45 R210). -/
def firstWork : Instr → Phase
  | .nop => .complete .ok
  | .desEnc _ | .desDec _ | .ede3Enc | .ede3Dec => .single
  | .bufEde3Enc | .bufEde3Dec | .streamDec => .pass .first []
  | .pad | .streamEnc => .pad
  | .unpad => .unpad
  | .ldkeys => .loadKeys

/-- What the Single phase writes to DOUT; none for an operation without that phase (45 R210). -/
def State.singleResult (s : State) : Instr → Option Block
  | .desEnc ksel => s.desResult ksel .enc
  | .desDec ksel => s.desResult ksel .dec
  | .ede3Enc => some (s.ede3Enc s.din)
  | .ede3Dec => some (s.ede3Dec s.din)
  | .nop | .bufEde3Enc | .bufEde3Dec | .pad | .unpad | .streamEnc | .streamDec | .ldkeys => none

/-- The phase after Pad; none for an operation without that phase (45 R210). -/
def afterPad : Instr → Option Phase
  | .pad => some (.complete .ok)
  | .streamEnc => some (.pass .first [])
  | .nop | .desEnc _ | .desDec _ | .ede3Enc | .ede3Dec | .bufEde3Enc | .bufEde3Dec => none
  | .unpad | .streamDec | .ldkeys => none

/-- The passes of an operation; none for an operation without that phase (44 R184, R185; 45 R203, R204). -/
def passesOf : Instr → Option (PassNo → Dir × Slot)
  | .bufEde3Enc | .streamEnc => some encPass
  | .bufEde3Dec | .streamDec => some decPass
  | .nop | .desEnc _ | .desDec _ | .ede3Enc | .ede3Dec | .pad | .unpad | .ldkeys => none

/-- The phase after the third pass (45 R210). -/
def afterPasses : Instr → Phase
  | .streamDec => .unpad
  | .nop | .desEnc _ | .desDec _ | .ede3Enc | .ede3Dec | .bufEde3Enc | .bufEde3Dec => .complete .ok
  | .pad | .unpad | .streamEnc | .ldkeys => .complete .ok

/-- The operation has an Unpad phase (45 R210). -/
def hasUnpad : Instr → Bool
  | .unpad | .streamDec => true
  | .nop | .desEnc _ | .desDec _ | .ede3Enc | .ede3Dec | .bufEde3Enc | .bufEde3Dec => false
  | .pad | .streamEnc | .ldkeys => false

/-- The phase after pass `p` (45 R210). -/
def afterPass (i : Instr) : PassNo → Phase
  | .first => .pass .second []
  | .second => .pass .third []
  | .third => afterPasses i

/-- Put block `j` into the set S, kept strictly rising. -/
def addBlock (j : Nat) : List Nat → List Nat
  | [] => [j]
  | k :: ks => if j < k then j :: k :: ks else if j = k then k :: ks else k :: addBlock j ks

/-- The blocks of {0 .. n-1} that are not in S. -/
def blocksLeft (n : Nat) (done : List Nat) : List Nat := (List.range n).filter fun j => !done.contains j

/-- The running operation moves to another phase. -/
def State.goTo (s : State) (i : Instr) (p : Phase) : State := s.setEng (.run (.op i) p)

/-- The Check phase: the first failing check leads to Complete(code), else the first work phase (45 R210). -/
def checkStep (i : Instr) (s : State) : Result :=
  .next (match firstError (s.checks i) with
    | some code => s.goTo i (.complete code)
    | none => s.goTo i (firstWork i))

/-- The Single phase: the result is written to DOUT (45 R210). -/
def singleStep (i : Instr) (s : State) : Result :=
  match s.singleResult i with
  | some b => .next ((s.setDout b).goTo i (.complete .ok))
  | none => .fault .noArrow

/-- The Pad phase: the pad bytes and LENGTH (45 R210). -/
def padStep (i : Instr) (s : State) : Result :=
  match afterPad i with
  | some p => if s.noRoom then .fault .bufRange else .next (s.addPadding.goTo i p)
  | none => .fault .noArrow

/-- The Pass(p, S) phase: one block not in S, chosen by `pick`, is transformed and put into S; when S is everything the
pass is over. With no block at all the pass is over at once (45 R210). -/
def passStep (i : Instr) (p : PassNo) (done : List Nat) (pick : Nat) (s : State) : Result :=
  match passesOf i with
  | none => .fault .noArrow
  | some plan =>
    if s.tooLong then .fault .bufRange
    else
      match (blocksLeft s.blocks done)[pick % (blocksLeft s.blocks done).length]? with
      | none => .next (s.goTo i (if s.blocks = 0 then afterPasses i else afterPass i p))
      | some j =>
        .next ((s.passBlock (plan p) j).goTo i
          (if (blocksLeft s.blocks (addBlock j done)).isEmpty then afterPass i p else .pass p (addBlock j done)))

/-- The Unpad phase: the last-byte check and the shorter LENGTH (45 R210). -/
def unpadStep (i : Instr) (s : State) : Result :=
  if !hasUnpad i then .fault .noArrow
  else if s.tooLong || decide (s.len = 0) then .fault .bufRange
  else if badPadding s.lastByte then .next (s.goTo i (.complete .invalidPadding))
  else .next (s.dropPadding.goTo i (.complete .ok))

/-- The LoadKeys phase and Complete(OK), in one step (45 R210, 46 R221). -/
def loadKeysStep (i : Instr) (s : State) : Result :=
  if i = .ldkeys then .next (s.loadKeys.complete .ok) else .fault .noArrow

/-- One engine step (45 R210). An Idle engine does nothing (70 R343); an illegal command's Check phase completes at once
with ILLEGAL_CMD (60 R301, log entry 9). -/
def phaseStep (pick : Nat) (s : State) : Result :=
  match s.eng with
  | .idle => .next s
  | .run .illegal _ => .next (s.complete .illegalCmd)
  | .run (.op i) .check => checkStep i s
  | .run (.op i) .single => singleStep i s
  | .run (.op i) .pad => padStep i s
  | .run (.op i) (.pass p done) => passStep i p done pick s
  | .run (.op i) .unpad => unpadStep i s
  | .run (.op i) .loadKeys => loadKeysStep i s
  | .run (.op _) (.complete code) => .next (s.complete code)

end Sys2Proof.Machine
end

