-- ==== Sys2Proof/Machine/Step.lean ====
section
/-! DEFINITION. One step of the machine: the next event of `inputs`, or, where the outside world has none, the engine's turn
(spec 20 R50, 60 R311, 70 R361). -/

namespace Sys2Proof.Machine

/-- The engine's turn as 45 R211 allows it: a command in its Check phase runs as a whole, by `exec`; a command that has
left it takes its next single step. -/
def engineTurn (s : State) : Result :=
  match s.eng with
  | .run (.op i) .check => exec i s
  | .idle | .run .illegal _ => phaseStep 0 s
  | .run (.op _) .single | .run (.op _) .pad | .run (.op _) (.pass _ _) => phaseStep 0 s
  | .run (.op _) .unpad | .run (.op _) .loadKeys | .run (.op _) (.complete _) => phaseStep 0 s

/-- One step (log entry 4). -/
def step (s : State) : Host.Outcome State Fault Refusal :=
  match s.inputs with
  | [] => engineTurn s
  | .access req :: rest => .next ((s.setInputs rest).access req)
  | .reset :: rest => .next (s.setInputs rest).takeReset
  | .phase pick :: rest => phaseStep pick (s.setInputs rest)
  | .run :: rest => engineTurn (s.setInputs rest)

/-- `s` with the command word `w` accepted (60 R301) and nothing else to come, so that the next step is the engine's turn
and runs exactly that command (log entry 7). A command is one 32-bit word: bits above `nbits` are 0. -/
def State.withFetchWord (s : State) (nbits w : Nat) : State :=
  (s.setInputs []).accept (BitVec.ofNat 32 (w % 2 ^ nbits))

end Sys2Proof.Machine
end

