-- ==== Sys2Proof/Machine/Executions.lean ====
section
/-! DEFINITION. Infinite executions of the machine and the weak fairness of its engine (spec 70 R361). The events of an
execution are a sequence without end, so a host may poll for ever; they are no part of State. -/

namespace Sys2Proof.Machine

/-- The event `e` comes next; what stands in `inputs` comes after it (log entry 4). -/
def State.issue (s : State) (e : Input) : Result := step (s.setInputs (e :: s.inputs))

/-- The event is a step of the engine (00 R7). -/
def Input.ofEngine : Input → Bool
  | .phase _ | .run => true
  | .access _ | .reset => false

/-- An infinite execution: event `n` takes state `n` to state `n + 1` (60 R311). -/
structure Execution where
  event : Nat → Input
  state : Nat → State
  steps : ∀ n, (state n).issue (event n) = .next (state (n + 1))

/-- Weak fairness of the engine agent (70 R361): where the engine is not Idle from some point on, it takes a step infinitely
often. -/
def Execution.WeaklyFair (x : Execution) : Prop :=
  ∀ n, (∀ m, n ≤ m → (x.state m).eng ≠ .idle) → ∀ m, n ≤ m → ∃ k, m ≤ k ∧ (x.event k).ofEngine = true

end Sys2Proof.Machine
end

