-- ==== Sys2Proof/Machine/HostSide.lean ====
section
/-! DEFINITION. Host software, not hardware: the host assembly (spec 30 R76, R77) as lists of events, the key derivation
(48 R240) with its OPEN hash (00 R10), a host program that acts on what it reads (`WAIT`, the check of ERRCODE, the
read-back), the loading of a key file (48 R241) and the file flows (48 R242, R243). Nothing in the core depends on this
file. -/

namespace Sys2Proof.Machine

/-! ### Host assembly (30 R76, R77) -/

/-- `RD <offset>`. -/
def asmRd (addr : Addr) : Input := .access (.rd addr)

/-- `WR <offset>, <word>`. -/
def asmWr (addr : Addr) (w : Word) : Input := .access (.wr addr w)

/-- The offset of KEYs_HI (10 R27). -/
def keyHiAddr : Slot → Addr
  | .a => 0x0030#16
  | .b => 0x0038#16
  | .c => 0x0040#16

/-- The offset of KEYs_LO (10 R27). -/
def keyLoAddr : Slot → Addr
  | .a => 0x0034#16
  | .b => 0x003C#16
  | .c => 0x0044#16

/-- `CMD <mnemonic>` and `CMD DES_ENC, <slot>`: a write of the opcode word to CMD. -/
def asmCmd (i : Instr) : List Input := [asmWr 0x0008#16 (encode i)]

/-- `SETKEY <s>, <K>`. -/
def asmSetKey (k : Slot) (v : Key) : List Input :=
  [asmWr (keyHiAddr k) (0#8 ++ v.extractLsb' 32 24), asmWr (keyLoAddr k) (v.extractLsb' 0 32)]

/-- `SETDIN <v>`. -/
def asmSetDin (v : Block) : List Input :=
  [asmWr 0x0050#16 (v.extractLsb' 32 32), asmWr 0x0054#16 (v.extractLsb' 0 32)]

/-- Window word `i` of a byte string; bytes past its end are 0x00. -/
def fileWord (bytes : List Byte) (i : Nat) : Word :=
  bytes.getD (4 * i) 0#8 ++ bytes.getD (4 * i + 1) 0#8 ++ bytes.getD (4 * i + 2) 0#8 ++ bytes.getD (4 * i + 3) 0#8

/-- The offset of window word `i` (20 R52), for `i` under 15360. A larger `i` names no word of the window (00 R9); the rules do
not say what `WR` or `RD` at an offset above 0xFFFF is, and here its low 16 bits reach the port, so it names a low register again
(DESIGN CHOICE, log entry 16). -/
def windowAddr (i : Nat) : Addr := BitVec.ofNat 16 (0x1000 + 4 * i)

/-- `LOADBUF <bytes>`: ceil(n/4) writes, from the first window word on (30 R77). Of more than 61440 bytes the later writes leave
the window and hit the low registers, CMD among them (DESIGN CHOICE, log entry 16); the flows below never issue such a line. -/
def asmLoadBuf (bytes : List Byte) : List Input :=
  (List.range ((bytes.length + 3) / 4)).map fun i => asmWr (windowAddr i) (fileWord bytes i)

/-- `SETLEN <n>`; of an `n` that is no 32-bit value the low 32 bits are written (DESIGN CHOICE, log entry 16). -/
def asmSetLen (n : Nat) : List Input := [asmWr 0x0014#16 (BitVec.ofNat 32 n)]

/-! ### Key derivation (48 R240, R241) -/

/-- HASH_SIZE (00 R10): at least 7, otherwise open (log entry 12). -/
def hashSize : Nat := Config.hashSizeRaw + 7

/-- HASH (00 R10): a byte string of HASH_SIZE bytes, otherwise open (log entry 12). -/
def hostHash (d : List Byte) : List Byte := (List.range hashSize).map (Config.hashByte d)

/-- `for i in 0 .. t-1: d[i] <- d[i] XOR pw[i]`, t = min(HASH_SIZE, m) (48 R240). -/
def mixPassword : List Byte → List Byte → List Byte
  | d :: ds, p :: ps => (d ^^^ p) :: mixPassword ds ps
  | ds, [] => ds
  | [], _ => []

/-- KeyDerivation(pw): the 21-byte key file A || B || C; each re-hash covers the whole digest (48 R240, 92 D30). -/
def keyDerivation (pw : List Byte) : List Byte :=
  let d0 := hostHash pw
  let d1 := hostHash (mixPassword d0 pw)
  let d2 := hostHash (mixPassword d1 pw)
  d0.take 7 ++ d1.take 7 ++ d2.take 7

/-! ### A host program at work (log entry 14) -/

/-- Why a host program ends before its last line. -/
inductive FlowStop where
  /-- The check `ERRCODE = 0` failed, after a command of a file flow (48 R242, step 6) or after LDKEYS (log entry 17): the code of
  STATUS. -/
  | errCode (code : BitVec 4)
  /-- A `WAIT` still reads BUSY = 1 after the engine's turns that it was given; more turns end it (70 R361). -/
  | waiting
  /-- The bytes are more than BUF can take (48 R242): the host does not issue the command. -/
  | doesNotFit
  /-- The flow has come to a chunk that no split that 48 R243 allows has there. -/
  | badSplit
  /-- The key file has not 21 bytes to give three fragments (20 R55). -/
  | shortKeyFile
  /-- A read answered an error; no aligned read does (20 R51). -/
  | busError
  /-- The machine gave no next state (`Fault`, `Refusal`). -/
  | machineStops
  deriving DecidableEq, Repr

/-- What the host has after a part of its program: a value it read and the machine's state, or the reason it ended. -/
abbrev Flow (α : Type) := Except FlowStop (α × State)

/-- The next event of the machine is `e`. -/
def hostStep (e : Input) (s : State) : Except FlowStop State :=
  match s.issue e with
  | .next t => .ok t
  | .fault _ => .error .machineStops
  | .refused _ => .error .machineStops

/-- Lines of host assembly that read nothing, one step each, in their order (20 R50). -/
def hostPlay : List Input → State → Except FlowStop State
  | [], s => .ok s
  | e :: es, s => (hostStep e s).bind (hostPlay es)

/-- `RD <offset> -> <name>`: the value bound to the name (30 R76). -/
def hostRd (addr : Addr) (s : State) : Flow Word :=
  (hostStep (asmRd addr) s).bind fun t =>
    match t.resp with
    | some (.read w false) => .ok (w, t)
    | some (.read _ true) | some (.write _) | none => .error .busError

/-- A turn of the engine between two polls of a `WAIT`: the whole command (45 R211) or one single step (45 R210). -/
inductive Turn where
  | whole
  | single (pick : Nat)
  deriving DecidableEq, Repr

/-- The event of a turn. -/
def Turn.event : Turn → Input
  | .whole => .run
  | .single pick => .phase pick

/-- `WAIT`: `loop: RD STATUS -> s; if s[0] = 1 goto loop` (30 R77), the engine taking one of `turns` between two reads. A WAIT
to which the list gives too few turns is cut off with `waiting` (DESIGN CHOICE, log entry 14): that is the end of the list,
not of the WAIT, which 70 R361 says terminates; see `Execution.WaitsFrom` for a WAIT without such an end. -/
def hostWait : List Turn → State → Except FlowStop State
  | [], s => (hostRd 0x000C#16 s).bind fun r => if r.1.getLsbD 0 then .error .waiting else .ok r.2
  | e :: es, s =>
    (hostRd 0x000C#16 s).bind fun r =>
      if r.1.getLsbD 0 then (hostStep e.event r.2).bind (hostWait es) else .ok r.2

/-- From event `n` on the host is in a WAIT that it never leaves: it makes no transaction but reads of STATUS, and of these
without end (30 R77). -/
def Execution.WaitsFrom (x : Execution) (n : Nat) : Prop :=
  (∀ m, n ≤ m → (x.event m).ofEngine = true ∨ x.event m = asmRd 0x000C#16) ∧
    ∀ m, n ≤ m → ∃ k, m ≤ k ∧ x.event k = asmRd 0x000C#16

/-- The host checks ERRCODE = 0 in STATUS (48 R242, step 6). -/
def hostCheck (s : State) : Except FlowStop State :=
  (hostRd 0x000C#16 s).bind fun r =>
    if r.1.extractLsb' 4 4 = 0#4 then .ok r.2 else .error (.errCode (r.1.extractLsb' 4 4))

/-- `CMD <mnemonic>`, `WAIT`, and the check of ERRCODE (48 R242, steps 4 to 6; after LDKEYS the check is the model's choice, log
entry 17). -/
def hostCommand (turns : List Turn) (i : Instr) (s : State) : Except FlowStop State :=
  ((hostPlay (asmCmd i) s).bind (hostWait turns)).bind hostCheck

/-- `GETDOUT -> v`: `RD DOUT_HI -> h; RD DOUT_LO -> l; v = h || l` (30 R77). -/
def hostGetDout (s : State) : Flow Block :=
  (hostRd 0x0058#16 s).bind fun h => (hostRd 0x005C#16 h.2).bind fun l => .ok (h.1 ++ l.1, l.2)

/-- `LOADBUF <bytes>; SETLEN <n>` with n the number of bytes. -/
def asmLoadFile (bytes : List Byte) : List Input := asmLoadBuf bytes ++ asmSetLen bytes.length

/-- The four bytes of a window word, in the order of BUF (20 R52). -/
def wordBytes (w : Word) : List Byte :=
  [w.extractLsb' 24 8, w.extractLsb' 16 8, w.extractLsb' 8 8, w.extractLsb' 0 8]

/-- The first `k` window words, read one after the other, as bytes; a `k` above 15360 leaves the window (`windowAddr`). -/
def hostReadWords : Nat → State → Flow (List Byte)
  | 0, s => .ok ([], s)
  | k + 1, s =>
    (hostReadWords k s).bind fun r =>
      (hostRd (windowAddr k) r.2).bind fun w => .ok (r.1 ++ wordBytes w.1, w.2)

/-- The result of a command over BUF: read LENGTH, then ceil(LENGTH/4) window words, and keep the first LENGTH bytes
(48 R242, step 7). -/
def hostResult (s : State) : Flow (List Byte) :=
  (hostRd 0x0014#16 s).bind fun n =>
    (hostReadWords ((n.1.toNat + 3) / 4) n.2).bind fun r => .ok (r.1.take n.1.toNat, r.2)

/-! ### Loading the keys (48 R241) -/

/-- A 7-byte key fragment as a 56-bit value, f[0] || ... || f[6]; none for a string of another length (20 R55). -/
def keyOfFragment : List Byte → Option Key
  | [f0, f1, f2, f3, f4, f5, f6] => some (f0 ++ f1 ++ f2 ++ f3 ++ f4 ++ f5 ++ f6)
  | _ => none

/-- `SETKEY` of the three fragments of a key file, in the order A, B, C (48 R241, 20 R55); none for a file under 21
bytes. -/
def asmSetKeys (file : List Byte) : Option (List Input) :=
  match keyOfFragment (file.take 7), keyOfFragment ((file.drop 7).take 7), keyOfFragment ((file.drop 14).take 7) with
  | some a, some b, some c => some (asmSetKey .a a ++ asmSetKey .b b ++ asmSetKey .c c)
  | _, _, _ => none

/-- The two ways a host loads a key file (48 R241). -/
inductive KeyLoading where
  | ldkeys
  | setkey
  deriving DecidableEq, Repr

/-- The host loads a key file into the core (48 R241): with LDKEYS on the file in BUF (46 R221), or with SETKEY (30 R77). The
rules do not say whether the host checks ERRCODE after LDKEYS; here it does, as after every other command, and ends the flow with
`errCode` where it is not 0 (DESIGN CHOICE, log entry 17). -/
def hostLoadKeys (turns : List Turn) (way : KeyLoading) (file : List Byte) (s : State) : Except FlowStop State :=
  match way with
  | .ldkeys =>
    if file.length ≤ bufBytes then (hostPlay (asmLoadFile file) s).bind (hostCommand turns .ldkeys)
    else .error .doesNotFit
  | .setkey =>
    match asmSetKeys file with
    | some lines => hostPlay lines s
    | none => .error .shortKeyFile

/-- The host derives the key file from a password and loads it (48 R240, R241). -/
def hostLoadPassword (turns : List Turn) (way : KeyLoading) (pw : List Byte) (s : State) : Except FlowStop State :=
  hostLoadKeys turns way (keyDerivation pw) s

/-! ### File flows (48 R242, R243) -/

/-- The bytes of BUF that a command needs for an input of `n` bytes: STREAM_ENC appends the padding (48 R242). -/
def roomFor (i : Instr) (n : Nat) : Nat := if i = .streamEnc then n + padCount n else n

/-- One command over a byte string that fits BUF, whose size the host knows from PARAM: steps 2 to 7 of 48 R242. -/
def hostOverBuffer (turns : List Turn) (i : Instr) (bytes : List Byte) (s : State) : Flow (List Byte) :=
  if roomFor i bytes.length ≤ bufBytes then
    ((hostPlay (asmLoadFile bytes) s).bind (hostCommand turns i)).bind hostResult
  else .error .doesNotFit

/-- Encryption in chunks (48 R243): BUF_EDE3_ENC for every chunk but the last, whose lengths are multiples of 8, and
STREAM_ENC for the last; the results one after the other. What a host does with a split that R243 does not allow is open: here
each chunk is looked at when its turn comes, after the earlier ones have run, so an earlier chunk's stop comes first, and a bad
chunk ends the flow with `badSplit` before any line for it is issued (DESIGN CHOICE, log entry 15). -/
def hostEncryptChunks (turns : List Turn) : List (List Byte) → State → Flow (List Byte)
  | [], _ => .error .badSplit
  | [last], s => hostOverBuffer turns .streamEnc last s
  | chunk :: next :: rest, s =>
    if chunk.length % 8 = 0 then
      (hostOverBuffer turns .bufEde3Enc chunk s).bind fun r =>
        (hostEncryptChunks turns (next :: rest) r.2).bind fun q => .ok (r.1 ++ q.1, q.2)
    else .error .badSplit

/-- Decryption in chunks (48 R243): BUF_EDE3_DEC for every chunk but the last, whose lengths are multiples of 8, and
STREAM_DEC for the last, a non-empty multiple of 8; the results one after the other. A split that R243 does not allow is taken
as in `hostEncryptChunks` (DESIGN CHOICE, log entry 15). -/
def hostDecryptChunks (turns : List Turn) : List (List Byte) → State → Flow (List Byte)
  | [], _ => .error .badSplit
  | [last], s =>
    if last.length ≠ 0 ∧ last.length % 8 = 0 then hostOverBuffer turns .streamDec last s else .error .badSplit
  | chunk :: next :: rest, s =>
    if chunk.length % 8 = 0 then
      (hostOverBuffer turns .bufEde3Dec chunk s).bind fun r =>
        (hostDecryptChunks turns (next :: rest) r.2).bind fun q => .ok (r.1 ++ q.1, q.2)
    else .error .badSplit

/-- A byte string cut into chunks of BUF_BYTES until what is left fits the last command `i` (48 R243); `fuel` bounds the
number of cuts, and the number of bytes is enough. -/
def cutFile (i : Instr) : Nat → List Byte → List (List Byte)
  | 0, bytes => [bytes]
  | fuel + 1, bytes =>
    if roomFor i bytes.length ≤ bufBytes then [bytes]
    else bytes.take bufBytes :: cutFile i fuel (bytes.drop bufBytes)

/-- `encryptFile(plainBytes)`: load the keys, then the flow of 48 R242 where the input fits, else that of 48 R243. -/
def hostEncryptFile (turns : List Turn) (way : KeyLoading) (keyFile plain : List Byte) (s : State) : Flow (List Byte) :=
  (hostLoadKeys turns way keyFile s).bind fun t =>
    if roomFor .streamEnc plain.length ≤ bufBytes then hostOverBuffer turns .streamEnc plain t
    else hostEncryptChunks turns (cutFile .streamEnc plain.length plain) t

/-- `decryptFile(cipherBytes)`: load the keys, then the flow of 48 R242 where the input fits, else that of 48 R243. -/
def hostDecryptFile (turns : List Turn) (way : KeyLoading) (keyFile cipher : List Byte) (s : State) : Flow (List Byte) :=
  (hostLoadKeys turns way keyFile s).bind fun t =>
    if roomFor .streamDec cipher.length ≤ bufBytes then hostOverBuffer turns .streamDec cipher t
    else hostDecryptChunks turns (cutFile .streamDec cipher.length cipher) t

end Sys2Proof.Machine
end

