-- ==== Sys2Proof/Safety.lean ====
section
/-! DEFINITION. The terms in which claims speak: what every run keeps (the invariant `Inv`), runs of single engine steps, the
legal words, the classes of offsets, the values after reset, the causes of the error codes, the bytes a command stores to,
as the spec tabulates them, and the ciphertext of a byte string (spec 10 R20, R40, 20 R53, R54, R56, 30 R73, R75, 45 R203,
R210, 60 R300, 70 R340). -/

namespace Sys2Proof.Machine

/-- The running operation `i` can be in this phase with the registers as they are (45 R210): the phase is one of its own,
and the checks that lead to the phase hold. -/
def phaseOk (s : State) (i : Instr) : Phase → Prop
  | .check => True
  | .single => (s.singleResult i).isSome = true
  | .pad => (afterPad i).isSome = true ∧ s.noRoom = false
  | .pass _ done =>
    (passesOf i).isSome = true ∧ s.tooLong = false ∧ s.unaligned = false ∧ (i = .streamDec → s.len ≠ 0) ∧
      done.Pairwise (· < ·) ∧ ∀ j ∈ done, j < s.blocks
  | .unpad => hasUnpad i = true ∧ s.tooLong = false ∧ s.emptyOrUnaligned = false
  | .loadKeys => i = .ldkeys ∧ s.tooLong = false ∧ s.shortKeyFile = false
  | .complete _ => True

/-- ENG is one of the states of 45 R210. -/
def engineOk (s : State) : Prop :=
  match s.eng with
  | .idle => True
  | .run .illegal p => p = .check
  | .run (.op i) p => i.WellFormed ∧ phaseOk s i p

/-- While a command runs, STATUS shows no completion (60 R301, R304). -/
def statusOk (s : State) : Prop := s.busy = true → s.done = false ∧ s.errCode = .ok

/-- The invariant of every run: BUF's cells are in canonical form and inside BUF, the engine is in a state of 45 R210, and
STATUS shows no completion while BUSY = 1. -/
def Inv (s : State) : Prop := s.buf.wf ∧ engineOk s ∧ statusOk s

/-- `picks.length` single engine steps (45 R210), the k-th with the k-th choice of a block. -/
def phaseRun : List Nat → State → Result
  | [], s => .next s
  | pick :: picks, s =>
    match phaseStep pick s with
    | .next t => phaseRun picks t
    | .fault r => .fault r
    | .refused r => .refused r

/-- The command reads LENGTH and BUF (44 R184, R185; 45 R201 to R204; 46 R221). -/
def usesBuffer : Instr → Bool
  | .bufEde3Enc | .bufEde3Dec | .pad | .unpad | .streamEnc | .streamDec | .ldkeys => true
  | .nop | .desEnc _ | .desDec _ | .ede3Enc | .ede3Dec => false

/-- The slots a command uses (43 R165, 44 R181, R184, 45 R203). -/
def slotsUsed : Instr → List Slot
  | .desEnc ksel => (slotOf ksel).toList
  | .desDec ksel => (slotOf ksel).toList
  | .ede3Enc | .ede3Dec | .bufEde3Enc | .bufEde3Dec | .streamEnc | .streamDec => [.a, .b, .c]
  | .nop | .pad | .unpad | .ldkeys => []

/-- The cause column of 60 R300 for a legal command, but for INVALID_PADDING, whose byte is read after the passes. -/
def errorCause (s : State) (i : Instr) : ErrCode → Prop
  | .lengthErr =>
    (usesBuffer i = true ∧ bufBytes < s.len) ∨
      ((i = .pad ∨ i = .streamEnc) ∧ bufBytes < s.len + padCount s.len)
  | .invalidInput =>
    ((i = .bufEde3Enc ∨ i = .bufEde3Dec ∨ i = .unpad ∨ i = .streamDec) ∧ s.len % 8 ≠ 0) ∨
      ((i = .unpad ∨ i = .streamDec) ∧ s.len = 0)
  | .keyErr => (∃ k ∈ slotsUsed i, s.kv k = false) ∨ (i = .ldkeys ∧ s.len < 21)
  | .ok | .illegalCmd | .invalidPadding => False

/-- The bytes of BUF a command stores to when it succeeds (44 R184, R185; 45 R201 to R204; 46 R221): the addresses its
meaning computes from LENGTH. -/
def storesTo (i : Instr) (s : State) (a : Nat) : Prop :=
  match i with
  | .bufEde3Enc | .bufEde3Dec | .streamDec => a < 8 * s.blocks
  | .pad => s.len ≤ a ∧ a < s.len + padCount s.len
  | .streamEnc => a < s.len + padCount s.len
  | .nop | .desEnc _ | .desDec _ | .ede3Enc | .ede3Dec | .unpad | .ldkeys => False

/-- The illegal words (30 R73): (a) RSV not 0, (b) OP 0xC to 0xF, (c) DES_ENC or DES_DEC with KSEL = 3, (d) another
operation with KSEL not 0. -/
def illegalWord (w : Word) : Prop :=
  w.toNat / 64 ≠ 0 ∨ 12 ≤ w.toNat % 16 ∨
    ((w.toNat % 16 = 1 ∨ w.toNat % 16 = 2) ∧ w.toNat / 16 % 4 = 3) ∨
    (¬ (w.toNat % 16 = 1 ∨ w.toNat % 16 = 2) ∧ w.toNat / 16 % 4 ≠ 0)

/-- The sixteen legal words and what they stand for (30 R71, R72, R75). -/
def legalWords : List (Word × Instr) :=
  [(0x00000001#32, .desEnc 0#2), (0x00000011#32, .desEnc 1#2), (0x00000021#32, .desEnc 2#2),
   (0x00000002#32, .desDec 0#2), (0x00000012#32, .desDec 1#2), (0x00000022#32, .desDec 2#2),
   (0x00000000#32, .nop), (0x00000003#32, .ede3Enc), (0x00000004#32, .ede3Dec), (0x00000005#32, .bufEde3Enc),
   (0x00000006#32, .bufEde3Dec), (0x00000007#32, .pad), (0x00000008#32, .unpad), (0x00000009#32, .streamEnc),
   (0x0000000A#32, .streamDec), (0x0000000B#32, .ldkeys)]

/-- An offset of the BUF window (10 R20). -/
def inWindow (a : Nat) : Prop := 0x1000 ≤ a ∧ a < 0x1000 + bufBytes

/-- The aligned offsets whose writes the busy interlock drops (20 R56): CMD, LENGTH, SKSEL, KEY*, DIN_HI, DIN_LO, BUF. -/
def interlockedOffset (a : Nat) : Prop :=
  a ∈ [0x0008, 0x0014, 0x0018, 0x0030, 0x0034, 0x0038, 0x003C, 0x0040, 0x0044, 0x0050, 0x0054] ∨ inWindow a

/-- The reserved offsets (10 R20). -/
def reservedOffset (a : Nat) : Prop :=
  (0x0024 ≤ a ∧ a < 0x0030) ∨ (0x0048 ≤ a ∧ a < 0x0050) ∨ (0x0060 ≤ a ∧ a < 0x1000) ∨ 0x1000 + bufBytes ≤ a

/-- The aligned offsets whose writes are ignored at all times (20 R56): ID, PARAM, SK_HI, SK_LO, DOUT_HI, DOUT_LO and the
reserved ones. -/
def ignoredOffset (a : Nat) : Prop :=
  a ∈ [0x0000, 0x0004, 0x001C, 0x0020, 0x0058, 0x005C] ∨ reservedOffset a

/-- Every register is at its reset value (70 R340), and no byte of BUF is defined (70 R342). -/
def registersAtReset (s : State) : Prop :=
  s.done = false ∧ s.werr = false ∧ s.errCode = .ok ∧ s.doneIe = false ∧ s.werrIe = false ∧ s.length = 0#32 ∧
    s.skRound = 0#4 ∧ s.skSlot = 0#2 ∧ (∀ k, s.slot k = { key := 0#56, hw := false, lw := false }) ∧
    s.din = 0#64 ∧ s.dout = 0#64 ∧ s.eng = .idle ∧ s.buf = []

/-- The registers that read back what is written to them, with the bits they hold (10 R25 to R31). -/
def readBackMasks : List (Addr × Word) :=
  [(0x0010#16, 0x00000003#32), (0x0014#16, 0xFFFFFFFF#32), (0x0018#16, 0x0000003F#32),
   (0x0030#16, 0x00FFFFFF#32), (0x0034#16, 0xFFFFFFFF#32), (0x0038#16, 0x00FFFFFF#32), (0x003C#16, 0xFFFFFFFF#32),
   (0x0040#16, 0x00FFFFFF#32), (0x0044#16, 0xFFFFFFFF#32), (0x0050#16, 0xFFFFFFFF#32), (0x0054#16, 0xFFFFFFFF#32)]

/-- The offsets of the registers and their values after reset, as the host reads them (70 R340). -/
def resetReads : List (Addr × Word) :=
  [(0x0000#16, 0x44455333#32), (0x0004#16, BitVec.ofNat 32 bufBytes), (0x0008#16, 0#32), (0x000C#16, 0#32),
   (0x0010#16, 0#32), (0x0014#16, 0#32), (0x0018#16, 0#32), (0x001C#16, 0#32), (0x0020#16, 0#32), (0x0030#16, 0#32),
   (0x0034#16, 0#32), (0x0038#16, 0#32), (0x003C#16, 0#32), (0x0040#16, 0#32), (0x0044#16, 0#32), (0x0050#16, 0#32),
   (0x0054#16, 0#32), (0x0058#16, 0#32), (0x005C#16, 0#32)]

/-- The eight bytes of a block, in the order of BUF (20 R54). -/
def blockBytes (b : Block) : List Byte :=
  [b.extractLsb' 56 8, b.extractLsb' 48 8, b.extractLsb' 40 8, b.extractLsb' 32 8, b.extractLsb' 24 8,
   b.extractLsb' 16 8, b.extractLsb' 8 8, b.extractLsb' 0 8]

/-- Each whole block of a byte string goes through `f`, the results one after the other (44 R184, R186); bytes past the last
whole block give nothing. -/
def mapBlocks (f : Block → Block) : List Byte → List Byte
  | b0 :: b1 :: b2 :: b3 :: b4 :: b5 :: b6 :: b7 :: rest =>
    blockBytes (f (b0 ++ b1 ++ b2 ++ b3 ++ b4 ++ b5 ++ b6 ++ b7)) ++ mapBlocks f rest
  | _ => []

/-- A byte string with its padding: n = padcount bytes of value n (45 R200, R201). -/
def paddedBytes (bytes : List Byte) : List Byte :=
  bytes ++ List.replicate (padCount bytes.length) (BitVec.ofNat 8 (padCount bytes.length))

/-- The ciphertext of a whole byte string of any length: pad, then EDE3_E of each block (45 R203). -/
def streamCipher (ka kb kc : Key) (bytes : List Byte) : List Byte := mapBlocks (ede3Encrypt ka kb kc) (paddedBytes bytes)

/-- The event is the engine's turn (log entry 4). -/
def enginesTurn (s : State) : Prop :=
  s.inputs = [] ∨ (∃ rest, s.inputs = .run :: rest) ∨ ∃ pick rest, s.inputs = .phase pick :: rest

end Sys2Proof.Machine
end

