-- ==== Sys2Proof/Certificates/Slice0/Obligations.lean ====
section
/-! DEFINITION. The statements about DES3-CORE, from the numbered rules of the spec. OBLIGATIONS.json lists them. -/

open Sys2Proof
open Sys2Proof.Machine

/-! ### Encoding (30) -/

/-- 30 R71, R72: some words of the opcode map, written out from the field table, decode to their instructions. -/
def Obligations.SampleWordsDecodeToTheirInstructions : Prop :=
  decode 0x00000000#32 = .ok .nop ∧ decode 0x00000011#32 = .ok (.desEnc 1#2) ∧
    decode 0x00000022#32 = .ok (.desDec 2#2) ∧ decode 0x00000005#32 = .ok .bufEde3Enc ∧
    decode 0x00000008#32 = .ok .unpad ∧ decode 0x0000000B#32 = .ok .ldkeys

/-- 30 R75: of all 2^32 words exactly these sixteen are legal, and each stands for the instruction beside it. -/
def Obligations.DecodeAnswersExactlyTheSixteenLegalWords : Prop :=
  legalWords.length = 16 ∧ ∀ (w : Word) (i : Instr), decode w = .ok i ↔ (w, i) ∈ legalWords

/-- 30 R70 to R72: decoding the word of a well-formed instruction gives the instruction back, with KSEL at every value the
encoding admits; and a word that decodes to an instruction is that instruction's own word, so no other word stands for it. -/
def Obligations.DecodeAndEncodeAgree : Prop :=
  (∀ i : Instr, i.WellFormed → decode (encode i) = .ok i) ∧
    ∀ (w : Word) (i : Instr), decode w = .ok i → i.WellFormed ∧ encode i = w

/-- 30 R73, 60 R301: a word is illegal exactly in the cases (a) to (d); written to CMD while BUSY = 0 it is accepted, completes
with ILLEGAL_CMD, and changes nothing else. That its Check phase and its completion are ONE engine step is the model's reading
of "completes at once" (DEDUCED, log entry 9). -/
def Obligations.IllegalWordCompletesWithIllegalCmd : Prop :=
  ∀ w : Word,
    ((∃ e, decode w = .error e) ↔ illegalWord w) ∧
      (illegalWord w → ∀ s : State, s.eng = .idle →
        (s.access (.wr 0x0008#16 w)).eng = .run .illegal .check ∧
          engineTurn (s.access (.wr 0x0008#16 w)) =
            .next { s with done := true, errCode := .illegalCmd, resp := some (.write false) } ∧
          ∀ pick, phaseStep pick (s.access (.wr 0x0008#16 w)) =
            .next { s with done := true, errCode := .illegalCmd, resp := some (.write false) })

/-! ### The step, acceptance, completion, reset (45, 60, 70) -/

/-- 60 R301, 45 R211: a step whose event is the engine's turn, in the Check phase of an accepted instruction, is `exec` of it;
the step takes the event out of the list and does nothing else; and the step after a command word was placed is `exec` of the
instruction it decodes to (the event list and the placed word are the model's, log entries 4 and 7). -/
def Obligations.StepRunsTheDecodedInstruction : Prop :=
  (∀ (s : State) (i : Instr), s.eng = .run (.op i) .check →
      (s.inputs = [] → step s = exec i s) ∧
        ∀ rest, s.inputs = .run :: rest → step s = exec i { s with inputs := rest }) ∧
    ∀ (s : State) (w : Word) (i : Instr), decode w = .ok i →
      step (s.withFetchWord 32 w.toNat) =
        exec i { s with inputs := [], eng := .run (.op i) .check, done := false, errCode := .ok }

/-- 60 R301: a write of any word to CMD while ENG = Idle sets BUSY, clears DONE and ERRCODE and starts the decoded command; an
illegal word is accepted too, is busy, and its Check phase completes at once; a write while BUSY = 1 is not accepted. -/
def Obligations.AcceptanceStartsTheCommand : Prop :=
  ∀ (s : State) (w : Word),
    (s.eng = .idle →
      s.access (.wr 0x0008#16 w) =
          { s with eng := .run (decodeCommand w) .check, done := false, errCode := .ok,
                   resp := some (.write false) } ∧
        (s.access (.wr 0x0008#16 w)).busy = true ∧
        (decodeCommand w = .illegal →
          ∃ t, engineTurn (s.access (.wr 0x0008#16 w)) = .next t ∧ t.errCode = .illegalCmd ∧ t.busy = false)) ∧
      (s.busy = true → (s.access (.wr 0x0008#16 w)).eng = s.eng)

/-- 60 R304: in the phase Complete(code) the next engine step records the code, sets DONE, clears BUSY and makes ENG Idle; it
changes nothing else. -/
def Obligations.CompleteRecordsTheCodeAndEndsTheCommand : Prop :=
  ∀ (s : State) (i : Instr) (code : ErrCode) (pick : Nat), s.eng = .run (.op i) (.complete code) →
    phaseStep pick s = .next { s with errCode := code, done := true, eng := .idle } ∧
      (∀ t, phaseStep pick s = .next t → t.busy = false)

/-- 70 R341: a reset while a command runs aborts it: no completion is reported and every register takes its reset value. -/
def Obligations.ResetAbortsTheRunningCommand : Prop :=
  ∀ (s : State) (rest : List Input), s.busy = true → s.inputs = .reset :: rest →
    ∃ t, step s = .next t ∧ registersAtReset t ∧ t.busy = false ∧ t.done = false ∧ t.errCode = .ok

/-- 70 R340: after power-on and after any later reset the host reads every register at the table's value, the hidden flags are
0, ENG is Idle, irq is 0, and no byte of BUF is defined (70 R342). -/
def Obligations.AfterResetEveryRegisterReadsItsTableValue : Prop :=
  ∀ s : State, (s = State.reset ∨ ∃ (u : State) (rest : List Input), u.inputs = .reset :: rest ∧ step u = .next s) →
    registersAtReset s ∧ s.irq = false ∧
      ∀ r ∈ resetReads, (s.access (.rd r.1)).resp = some (.read r.2 false)

/-- 45 R210, R211: run one step at a time, with any choice of block in every Pass step, a command from its Check phase on
reaches, within 3(LENGTH/8 + 1) + 3 engine steps, exactly the state that `exec` gives, and stays there (the choice is the
model's `pick`, log entry 5). -/
def Obligations.SingleEngineStepsReachTheCommandsEffect : Prop :=
  ∀ (s : State) (i : Instr) (picks : List Nat), Inv s → s.eng = .run (.op i) .check →
    3 * (s.len / 8 + 1) + 3 ≤ picks.length → phaseRun picks s = exec i s

/-- The invariant holds right after reset. -/
def Obligations.InvariantHoldsAtReset : Prop := Inv State.reset

/-- Every step, whatever its event (log entry 4), keeps the invariant: BUF's canonical form inside BUF_BYTES, an engine state
of 45 R210, and no completion shown while BUSY. -/
def Obligations.EveryStepKeepsTheInvariant : Prop :=
  ∀ s t : State, Inv s → step s = .next t → Inv t

/-- 20 R53, 60 R304, 70 R361, 30 R77, 93 part 1: no state that meets the invariant stops: its step has a next state, so no
engine step leaves BUF and none is without an arrow of 45 R210. In every infinite execution in which the engine is weakly
fair, a command that is running comes to its end: BUSY stays 1 until one step makes it 0, and that step sets DONE unless it is
a reset; and a WAIT that polls STATUS without end reads BUSY = 0. For the model's finite WAIT some number of engine turns,
whole or single, is always enough (executions and turns: log entries 4 and 14). -/
def Obligations.NoRunStops : Prop :=
  (∀ s : State, Inv s → ∃ t, step s = .next t) ∧
    (∀ x : Execution, x.WeaklyFair → ∀ n, (x.state n).busy = true →
      ∃ m, n ≤ m ∧ (∀ k, n ≤ k → k ≤ m → (x.state k).busy = true) ∧ (x.state (m + 1)).busy = false ∧
        (x.event m ≠ .reset → (x.state (m + 1)).done = true)) ∧
    (∀ x : Execution, x.WeaklyFair → ∀ n, x.WaitsFrom n →
      ∃ m v, n ≤ m ∧ x.event m = .access (.rd 0x000C#16) ∧ (x.state (m + 1)).resp = some (.read v false) ∧
        v.getLsbD 0 = false) ∧
    ∀ s : State, Inv s → ∃ enough, ∀ turns : List Turn, enough ≤ turns.length →
      ∃ t, hostWait turns s = .ok t ∧ t.busy = false

/-- 10 R27, R29, 20 R57, R61, 45 R210, 70 R343: on its turn the engine never changes DIN, IE, SKSEL, WERR or the port's
response; it changes key registers and written-flags only in LDKEYS, and these, the KV bits, DONE and ERRCODE only in the step
that completes the command; and it does nothing when Idle. -/
def Obligations.EngineLeavesTheHostsRegistersAlone : Prop :=
  ∀ s t : State, enginesTurn s → step s = .next t →
    t.din = s.din ∧ t.doneIe = s.doneIe ∧ t.werrIe = s.werrIe ∧ t.skRound = s.skRound ∧ t.skSlot = s.skSlot ∧
      t.werr = s.werr ∧ t.resp = s.resp ∧ t.resets = s.resets ∧ t.draws = s.draws ∧
      ((∀ p, s.eng ≠ .run (.op .ldkeys) p) → ∀ k, t.slot k = s.slot k) ∧
      (t.busy = true →
        (∀ k, t.slot k = s.slot k ∧ t.kv k = s.kv k) ∧ t.done = s.done ∧ t.errCode = s.errCode) ∧
      (s.eng = .idle → t = { s with inputs := s.inputs.tail })

/-- 10 R28: a performed write to KEYs_HI sets HW[s], one to KEYs_LO sets LW[s], KV_s is their conjunction, and no step but a
reset clears a written-flag. -/
def Obligations.OnlyResetClearsAWrittenFlag : Prop :=
  (∀ (s : State) (k : Slot), s.kv k = ((s.slot k).hw && (s.slot k).lw)) ∧
    (∀ (s : State) (w : Word) (k : Slot) (hi lo : Addr), s.eng = .idle →
      (k, hi, lo) ∈ [(Slot.a, 0x0030#16, 0x0034#16), (Slot.b, 0x0038#16, 0x003C#16),
        (Slot.c, 0x0040#16, 0x0044#16)] →
      ((s.access (.wr hi w)).slot k).hw = true ∧ ((s.access (.wr lo w)).slot k).lw = true) ∧
    ∀ (s t : State) (k : Slot), step s = .next t → (∀ rest, s.inputs ≠ .reset :: rest) →
      ((s.slot k).hw = true → (t.slot k).hw = true) ∧ ((s.slot k).lw = true → (t.slot k).lw = true)

/-! ### Host accesses (10, 20) -/

/-- 20 R56: while BUSY = 1 a write to CMD, LENGTH, SKSEL, KEY*, DIN* or BUF changes nothing but WERR, with an OKAY response;
writes to STATUS and IE are performed all the same; writes to read-only and reserved offsets are ignored at all times and
never set WERR. -/
def Obligations.BusyInterlockDropsWrites : Prop :=
  ∀ (s : State) (addr : Addr) (w : Word), addr.toNat % 4 = 0 →
    (s.busy = true → interlockedOffset addr.toNat →
      s.access (.wr addr w) = { s with werr := true, resp := some (.write false) }) ∧
    (addr = 0x000C#16 →
      s.access (.wr addr w) = { s with done := s.done && !w.getLsbD 1, werr := s.werr && !w.getLsbD 2,
                                       resp := some (.write false) }) ∧
    (addr = 0x0010#16 →
      s.access (.wr addr w) = { s with doneIe := w.getLsbD 0, werrIe := w.getLsbD 1,
                                       resp := some (.write false) }) ∧
    (ignoredOffset addr.toNat → s.access (.wr addr w) = { s with resp := some (.write false) })

/-- 20 R51: a misaligned access answers SLVERR and changes no state, a misaligned read has rdata 0; an aligned access answers
err = 0. -/
def Obligations.MisalignedAccessIsAnErrorWithoutEffect : Prop :=
  ∀ (s : State) (addr : Addr) (w : Word),
    (addr.extractLsb' 0 2 ≠ 0#2 →
      s.access (.rd addr) = { s with resp := some (.read 0x00000000#32 true) } ∧
        s.access (.wr addr w) = { s with resp := some (.write true) }) ∧
    (addr.extractLsb' 0 2 = 0#2 →
      (∃ v, (s.access (.rd addr)).resp = some (.read v false)) ∧
        (s.access (.wr addr w)).resp = some (.write false))

/-- 20 R58: an aligned access to a reserved offset reads 0 with err = 0, and a write there is ignored. -/
def Obligations.ReservedOffsetsReadZeroAndIgnoreWrites : Prop :=
  ∀ (s : State) (addr : Addr) (w : Word), addr.toNat % 4 = 0 → reservedOffset addr.toNat →
    s.access (.rd addr) = { s with resp := some (.read 0x00000000#32 false) } ∧
      s.access (.wr addr w) = { s with resp := some (.write false) }

/-- 20 R52: window word i is BUF[4i] to BUF[4i+3], most significant byte first, for reads and, while BUSY = 0, for writes; a
write leaves every other byte, LENGTH and every register as they are; position 1 of block j, bit 63, is bit 31 of word 2j. -/
def Obligations.WindowWordIsFourBytesBigEndian : Prop :=
  ∀ (s : State) (i : Nat) (w : Word), i < bufBytes / 4 → s.busy = false →
    (s.access (.rd (BitVec.ofNat 16 (0x1000 + 4 * i)))).resp =
        some (.read (s.readByte (4 * i) ++ s.readByte (4 * i + 1) ++ s.readByte (4 * i + 2) ++
          s.readByte (4 * i + 3)) false) ∧
      ∃ t, s.access (.wr (BitVec.ofNat 16 (0x1000 + 4 * i)) w) = t ∧
        t = { s with buf := t.buf, resp := some (.write false) } ∧
        t.readByte (4 * i) = w.extractLsb' 24 8 ∧ t.readByte (4 * i + 1) = w.extractLsb' 16 8 ∧
        t.readByte (4 * i + 2) = w.extractLsb' 8 8 ∧ t.readByte (4 * i + 3) = w.extractLsb' 0 8 ∧
        (∀ a, a / 4 ≠ i → t.readByte a = s.readByte a) ∧
        ∀ (j : Nat) (v : Word), i = 2 * j →
          (s.access (.rd (BitVec.ofNat 16 (0x1000 + 4 * i)))).resp = some (.read v false) →
          (s.readBlock j).getLsbD 63 = v.getLsbD 31

/-- 20 R60: block j is window word 2j followed by window word 2j+1. -/
def Obligations.BlockIsTwoWindowWords : Prop :=
  ∀ (s : State) (j : Nat), 8 * j + 8 ≤ bufBytes → s.busy = false →
    ∃ hi lo : Word,
      (s.access (.rd (BitVec.ofNat 16 (0x1000 + 4 * (2 * j))))).resp = some (.read hi false) ∧
        (s.access (.rd (BitVec.ofNat 16 (0x1000 + 4 * (2 * j + 1))))).resp = some (.read lo false) ∧
        s.readBlock j = hi ++ lo

/-- 20 R50, R59: a read changes nothing but the port's response (and the model's count of free draws), and while BUSY = 0 a
second read of the same offset answers the same. -/
def Obligations.ReadsHaveNoSideEffect : Prop :=
  ∀ (s : State) (addr : Addr),
    (∃ r d, s.access (.rd addr) = { s with resp := r, draws := d }) ∧
      (s.busy = false → (s.access (.rd addr)).access (.rd addr) = s.access (.rd addr))

/-- 20 R57: while BUSY = 1 a read of BUF, LENGTH or DOUT answers OKAY with some word; a read of every other offset answers the
word it answers while the engine is Idle, but for STATUS, whose bit 0 then is BUSY. -/
def Obligations.ReadsOfOtherRegistersAreDefinedWhileBusy : Prop :=
  ∀ (s : State) (addr : Addr), s.busy = true → addr.toNat % 4 = 0 →
    ((addr.toNat ∈ [0x0014, 0x0058, 0x005C] ∨ inWindow addr.toNat) →
      ∃ v, (s.access (.rd addr)).resp = some (.read v false)) ∧
    (addr.toNat ∉ [0x000C, 0x0014, 0x0058, 0x005C] → ¬ inWindow addr.toNat →
      (s.access (.rd addr)).resp = (({ s with eng := .idle } : State).access (.rd addr)).resp) ∧
    (addr = 0x000C#16 →
      (s.access (.rd addr)).resp =
        some (.read (({ s with eng := .idle } : State).statusWord ||| 0x00000001#32) false))

/-- 10 R25 to R31, 20 R50: while BUSY = 0 the whole next state of each performed write to a read-write register: the bits it
holds take the word's, KEYs_HI and KEYs_LO also set their written-flag, and nothing else changes but the port's response; what
each of these registers and DOUT_HI and DOUT_LO read; so a register reads back the bits it holds of the word written to it (its
other bits read 0), and a write to one changes what no other of them reads. -/
def Obligations.RegistersReadBackWhatIsWritten : Prop :=
  ∀ (s : State) (w : Word), s.eng = .idle →
    (∀ p ∈ [((0x0010#16 : Addr), { s with doneIe := w.getLsbD 0, werrIe := w.getLsbD 1 }),
        (0x0014#16, { s with length := w }),
        (0x0018#16, { s with skRound := w.extractLsb' 0 4, skSlot := w.extractLsb' 4 2 }),
        (0x0030#16, { s with slotA :=
          { key := w.extractLsb' 0 24 ++ s.slotA.key.extractLsb' 0 32, hw := true, lw := s.slotA.lw } }),
        (0x0034#16, { s with slotA := { key := s.slotA.key.extractLsb' 32 24 ++ w, hw := s.slotA.hw, lw := true } }),
        (0x0038#16, { s with slotB :=
          { key := w.extractLsb' 0 24 ++ s.slotB.key.extractLsb' 0 32, hw := true, lw := s.slotB.lw } }),
        (0x003C#16, { s with slotB := { key := s.slotB.key.extractLsb' 32 24 ++ w, hw := s.slotB.hw, lw := true } }),
        (0x0040#16, { s with slotC :=
          { key := w.extractLsb' 0 24 ++ s.slotC.key.extractLsb' 0 32, hw := true, lw := s.slotC.lw } }),
        (0x0044#16, { s with slotC := { key := s.slotC.key.extractLsb' 32 24 ++ w, hw := s.slotC.hw, lw := true } }),
        (0x0050#16, { s with din := w ++ s.din.extractLsb' 0 32 }),
        (0x0054#16, { s with din := s.din.extractLsb' 32 32 ++ w })],
      s.access (.wr p.1 w) = { p.2 with resp := some (.write false) }) ∧
    (∀ p ∈ [((0x0010#16 : Addr), (BitVec.ofBool s.werrIe ++ BitVec.ofBool s.doneIe).setWidth 32), (0x0014#16, s.length),
        (0x0018#16, (s.skSlot ++ s.skRound).setWidth 32),
        (0x0030#16, (s.slotA.key.extractLsb' 32 24).setWidth 32), (0x0034#16, s.slotA.key.extractLsb' 0 32),
        (0x0038#16, (s.slotB.key.extractLsb' 32 24).setWidth 32), (0x003C#16, s.slotB.key.extractLsb' 0 32),
        (0x0040#16, (s.slotC.key.extractLsb' 32 24).setWidth 32), (0x0044#16, s.slotC.key.extractLsb' 0 32),
        (0x0050#16, s.din.extractLsb' 32 32), (0x0054#16, s.din.extractLsb' 0 32),
        (0x0058#16, s.dout.extractLsb' 32 32), (0x005C#16, s.dout.extractLsb' 0 32)],
      (s.access (.rd p.1)).resp = some (.read p.2 false)) ∧
    ∀ p ∈ readBackMasks,
      ((s.access (.wr p.1 w)).access (.rd p.1)).resp = some (.read (w &&& p.2) false) ∧
        ∀ q ∈ readBackMasks, q.1 ≠ p.1 →
          ((s.access (.wr p.1 w)).access (.rd q.1)).resp = (s.access (.rd q.1)).resp

/-- 10 R21, R22: ID reads 0x44455333 and PARAM reads BUF_BYTES, one of the admitted sizes (00 R9), in every state; writes to
them are ignored, busy or not, without WERR. -/
def Obligations.IdAndParamAreConstant : Prop :=
  24 ≤ bufBytes ∧ bufBytes ≤ 61440 ∧ bufBytes % 8 = 0 ∧
    ∀ (s : State) (w : Word),
      s.access (.rd 0x0000#16) = { s with resp := some (.read 0x44455333#32 false) } ∧
        s.access (.rd 0x0004#16) = { s with resp := some (.read (BitVec.ofNat 32 bufBytes) false) } ∧
        s.access (.wr 0x0000#16 w) = { s with resp := some (.write false) } ∧
        s.access (.wr 0x0004#16 w) = { s with resp := some (.write false) }

/-- 10 R24, R40, 60 R300: STATUS reads, bit by bit, BUSY, DONE, WERR, 0, the code's number in 7:4, KV_A, KV_B, KV_C and zeros,
busy or not, where BUSY = 1 exactly when ENG is not Idle. -/
def Obligations.StatusWordHoldsTheFlags : Prop :=
  ∀ s : State, ∃ v : Word, (s.access (.rd 0x000C#16)).resp = some (.read v false) ∧
    (v.getLsbD 0 = true ↔ s.eng ≠ .idle) ∧ v.getLsbD 1 = s.done ∧ v.getLsbD 2 = s.werr ∧ v.getLsbD 3 = false ∧
      (s.errCode, (v.extractLsb' 4 4).toNat) ∈ [(ErrCode.ok, 0), (ErrCode.illegalCmd, 1), (ErrCode.keyErr, 2),
        (ErrCode.invalidInput, 3), (ErrCode.invalidPadding, 4), (ErrCode.lengthErr, 5)] ∧
      v.getLsbD 8 = s.kv .a ∧ v.getLsbD 9 = s.kv .b ∧ v.getLsbD 10 = s.kv .c ∧
      ∀ b, 11 ≤ b → v.getLsbD b = false

/-- 60 R320: irq is (DONE and DONE_IE) or (WERR and WERR_IE), read off the STATUS and IE words; writing the W1C bits, clearing
IE, or, for DONE, submitting a new command clears it. -/
def Obligations.InterruptFollowsStatusAndEnable : Prop :=
  ∀ s : State,
    (∃ st ie : Word, (s.access (.rd 0x000C#16)).resp = some (.read st false) ∧
      (s.access (.rd 0x0010#16)).resp = some (.read ie false) ∧
      s.irq = ((st.getLsbD 1 && ie.getLsbD 0) || (st.getLsbD 2 && ie.getLsbD 1))) ∧
    (s.access (.wr 0x000C#16 0x00000006#32)).irq = false ∧
    (s.access (.wr 0x0010#16 0x00000000#32)).irq = false ∧
    ∀ w, s.eng = .idle → s.werr = false → (s.access (.wr 0x0008#16 w)).irq = false

/-- 10 R32, R34: SK_HI and SK_LO read the subkey that SKSEL selects of the schedule of the key registers as they are, busy or
not and whatever the KV bits, 0 where SLOT = 3; writes to them are ignored. -/
def Obligations.SubkeyReadoutShowsTheSchedule : Prop :=
  (∀ (s : State) (k : Slot), (s.skSlot, k) ∈ [(0#2, Slot.a), (1#2, Slot.b), (2#2, Slot.c)] →
    ∃ sk : Subkey, (keySchedule (s.key k))[s.skRound.toNat]? = some sk ∧
      (s.access (.rd 0x001C#16)).resp = some (.read ((sk.extractLsb' 32 16).setWidth 32) false) ∧
      (s.access (.rd 0x0020#16)).resp = some (.read (sk.setWidth 32) false)) ∧
  (∀ s : State, s.skSlot = 3#2 →
    (s.access (.rd 0x001C#16)).resp = some (.read 0x00000000#32 false) ∧
      (s.access (.rd 0x0020#16)).resp = some (.read 0x00000000#32 false)) ∧
  ∀ (s : State) (w : Word),
    s.access (.wr 0x001C#16 w) = { s with resp := some (.write false) } ∧
      s.access (.wr 0x0020#16 w) = { s with resp := some (.write false) }

/-- 70 R352, R351: with KV_s = 1 a write of only one half leaves KV_s = 1 and the slot holding the new half and the old other
half, and DES_ENC then uses that mixed key, with no wait and no error. -/
def Obligations.HalfAKeyWriteLeavesAMixedKeyInUse : Prop :=
  ∀ (s : State) (w : Word) (k : Slot) (ksel : BitVec 2) (hi lo : Addr), s.eng = .idle → s.kv k = true →
    (k, ksel, hi, lo) ∈ [(Slot.a, 0#2, 0x0030#16, 0x0034#16), (Slot.b, 1#2, 0x0038#16, 0x003C#16),
      (Slot.c, 2#2, 0x0040#16, 0x0044#16)] →
    (s.access (.wr hi w)).kv k = true ∧ (s.access (.wr lo w)).kv k = true ∧
      (∃ t, exec (.desEnc ksel) (s.access (.wr hi w)) = .next t ∧ t.errCode = .ok ∧
        t.dout = desEncrypt (w.extractLsb' 0 24 ++ (s.key k).extractLsb' 0 32) s.din) ∧
      (∃ t, exec (.desEnc ksel) (s.access (.wr lo w)) = .next t ∧ t.errCode = .ok ∧
        t.dout = desEncrypt ((s.key k).extractLsb' 32 24 ++ w) s.din)

/-! ### The cipher (40 to 44) -/

/-- 40 R101: every entry of every table lies in 1 to W. -/
def Obligations.TableEntriesAreInRange : Prop :=
  tableInRange 64 ipTable = true ∧ tableInRange 64 fpTable = true ∧ tableInRange 32 eTable = true ∧
    tableInRange 32 pTable = true ∧ tableInRange 56 pc2Table = true

/-- 40 R100: for every table with entries in range, permute of 0 is 0 and permute of all ones is all ones. -/
def Obligations.PermutationsKeepAllZerosAndAllOnes : Prop :=
  ∀ (w n : Nat) (table : List Nat), table.length = n → tableInRange w table = true →
    permute n table (0#w) = 0#n ∧ permute n table (BitVec.allOnes w) = BitVec.allOnes n

/-- 40 R104: FP is the inverse of IP, both ways, on every 64-bit value; and permute is linear over XOR. -/
def Obligations.FinalPermutationInvertsInitial : Prop :=
  (∀ x : Block, finalPerm (initialPerm x) = x ∧ initialPerm (finalPerm x) = x) ∧
    ∀ (w n : Nat) (table : List Nat) (x y : BitVec w), table.length = n →
      permute n table (x ^^^ y) = permute n table x ^^^ permute n table y

/-- 41 R123: after the sixteen rotations a half is back where it was. -/
def Obligations.SixteenRotationsReturnAHalf : Prop :=
  ∀ c : BitVec 28, rotTable.foldl rotl c = c

/-- 41 R125: the corner cases of the key schedule. -/
def Obligations.ScheduleCornerCases : Prop :=
  keySchedule 0#56 = List.replicate 16 0#48 ∧
    keySchedule (BitVec.allOnes 56) = List.replicate 16 (BitVec.allOnes 48) ∧
    keySchedule 0x0000000FFFFFFF#56 = List.replicate 16 0x000000FFFFFF#48 ∧
    keySchedule 0xFFFFFFF0000000#56 = List.replicate 16 0xFFFFFF000000#48 ∧
    (keySchedule 0x80000000000000#56)[0]? = some 0x010000000000#48 ∧
    ∀ k l : Key, k = l → keySchedule k = keySchedule l

/-- 42 R140: each of the 32 rows of the S-boxes is a permutation of 0 to 15. -/
def Obligations.SboxRowsArePermutations : Prop :=
  ∀ g ∈ [1, 2, 3, 4, 5, 6, 7, 8], (sboxTable g).length = 64 ∧ ∀ row ∈ List.range 4, ∀ v ∈ List.range 16,
    v ∈ ((sboxTable g).drop (16 * row)).take 16

/-- 43 R163: decryption undoes encryption and encryption undoes decryption, for every block and every fragment. -/
def Obligations.DecryptionUndoesEncryption : Prop :=
  ∀ (k : Key) (b : Block), desDecrypt k (desEncrypt k b) = b ∧ desEncrypt k (desDecrypt k b) = b

/-- 43 R164: with sixteen equal subkeys encryption and decryption are the same involution; and the complementation property. -/
def Obligations.EqualSubkeysAndComplementation : Prop :=
  (∀ (k : Key) (b : Block) (sk : Subkey), (∀ x ∈ keySchedule k, x = sk) →
    desEncrypt k b = desDecrypt k b ∧ desEncrypt k (desEncrypt k b) = b) ∧
  (∀ (k : Key) (b : Block), desEncrypt (~~~k) (~~~b) = ~~~(desEncrypt k b)) ∧
  desEncrypt 0#56 0#64 = 0x8CA64DE9C1B123A7#64 ∧ desDecrypt 0#56 0#64 = 0x8CA64DE9C1B123A7#64 ∧
  desEncrypt 0#56 0x8CA64DE9C1B123A7#64 = 0#64 ∧
  desEncrypt (BitVec.allOnes 56) (BitVec.allOnes 64) = 0x7359B2163E4EDC58#64

/-- 44 R180: EDE3_D undoes EDE3_E for every block and all three keys. -/
def Obligations.Ede3DecryptionUndoesEncryption : Prop :=
  ∀ (ka kb kc : Key) (b : Block),
    ede3Encrypt ka kb kc b = desEncrypt kc (desDecrypt kb (desEncrypt ka b)) ∧
      ede3Decrypt ka kb kc b = desDecrypt ka (desEncrypt kb (desDecrypt kc b)) ∧
      ede3Decrypt ka kb kc (ede3Encrypt ka kb kc b) = b

/-- 44 R183: with three equal keys EDE3 is single DES. -/
def Obligations.EqualKeysMakeEde3SingleDes : Prop :=
  ∀ (k : Key) (b : Block), ede3Encrypt k k k b = desEncrypt k b ∧ ede3Decrypt k k k b = desDecrypt k b

/-! ### Results of the commands (43 to 46) -/

/-- 46 R220: NOP completes with OK and changes nothing else; a stale error code is cleared. -/
def Obligations.NopCompletesWithOk : Prop :=
  ∀ s : State, exec .nop s = .next { s with done := true, errCode := .ok, eng := .idle } ∧
    (s.eng = .idle → ∀ t, engineTurn (s.access (.wr 0x0008#16 0x00000000#32)) = .next t →
      t = { s with done := true, errCode := .ok, resp := some (.write false) })

/-- 43 R165: DES_ENC. With a valid slot DOUT takes E_K(DIN) and nothing else changes but the completion record; with an
invalid slot KEY_ERR and nothing else; and DES_DEC of the result gives the input back. -/
def Obligations.DesEncWritesTheCiphertext : Prop :=
  ∀ (s : State) (ksel : BitVec 2) (k : Slot), (ksel, k) ∈ [(0#2, Slot.a), (1#2, Slot.b), (2#2, Slot.c)] →
    (s.kv k = true →
      exec (.desEnc ksel) s =
          .next { s with dout := desEncrypt (s.key k) s.din, done := true, errCode := .ok, eng := .idle } ∧
        exec (.desDec ksel) { s with din := desEncrypt (s.key k) s.din } =
          .next { s with din := desEncrypt (s.key k) s.din, dout := s.din, done := true, errCode := .ok,
                         eng := .idle }) ∧
    (s.kv k = false → exec (.desEnc ksel) s = .next { s with done := true, errCode := .keyErr, eng := .idle })

/-- 43 R166: DES_DEC, as DES_ENC with D_K; where the slot's subkeys are all equal, DES_ENC gives the same DOUT. -/
def Obligations.DesDecWritesThePlaintext : Prop :=
  ∀ (s : State) (ksel : BitVec 2) (k : Slot), (ksel, k) ∈ [(0#2, Slot.a), (1#2, Slot.b), (2#2, Slot.c)] →
    (s.kv k = true →
      exec (.desDec ksel) s =
          .next { s with dout := desDecrypt (s.key k) s.din, done := true, errCode := .ok, eng := .idle } ∧
        ((∃ sk, ∀ x ∈ keySchedule (s.key k), x = sk) → exec (.desDec ksel) s = exec (.desEnc ksel) s)) ∧
    (s.kv k = false → exec (.desDec ksel) s = .next { s with done := true, errCode := .keyErr, eng := .idle })

/-- 44 R181: EDE3_ENC. -/
def Obligations.Ede3EncWritesTheCiphertext : Prop :=
  ∀ s : State,
    (s.kv .a = true → s.kv .b = true → s.kv .c = true →
      exec .ede3Enc s =
        .next { s with dout := ede3Encrypt s.slotA.key s.slotB.key s.slotC.key s.din, done := true, errCode := .ok,
                       eng := .idle }) ∧
    (∀ k, s.kv k = false → exec .ede3Enc s = .next { s with done := true, errCode := .keyErr, eng := .idle })

/-- 44 R182: EDE3_DEC, and that it returns the input of EDE3_ENC. -/
def Obligations.Ede3DecWritesThePlaintext : Prop :=
  ∀ s : State,
    (s.kv .a = true → s.kv .b = true → s.kv .c = true →
      exec .ede3Dec s =
          .next { s with dout := ede3Decrypt s.slotA.key s.slotB.key s.slotC.key s.din, done := true, errCode := .ok,
                         eng := .idle } ∧
        ∀ t u, exec .ede3Enc s = .next t → exec .ede3Dec { t with din := t.dout } = .next u → u.dout = s.din) ∧
    (∀ k, s.kv k = false → exec .ede3Dec s = .next { s with done := true, errCode := .keyErr, eng := .idle })

/-- 44 R184, R186: BUF_EDE3_ENC puts EDE3_E of each block in its place and leaves every byte from LENGTH on, LENGTH and every
register as they are; its errors, in order, change only the completion record. -/
def Obligations.BufEde3EncEncryptsEveryBlock : Prop :=
  ∀ s : State,
    (s.len ≤ bufBytes → s.len % 8 = 0 → s.kv .a = true → s.kv .b = true → s.kv .c = true →
      ∃ t, exec .bufEde3Enc s = .next t ∧
        (∀ j, j < s.len / 8 → t.readBlock j = ede3Encrypt s.slotA.key s.slotB.key s.slotC.key (s.readBlock j)) ∧
        (∀ a, s.len ≤ a → t.readByte a = s.readByte a) ∧
        t = { s with buf := t.buf, done := true, errCode := .ok, eng := .idle }) ∧
    (bufBytes < s.len → exec .bufEde3Enc s = .next { s with done := true, errCode := .lengthErr, eng := .idle }) ∧
    (s.len ≤ bufBytes → s.len % 8 ≠ 0 →
      exec .bufEde3Enc s = .next { s with done := true, errCode := .invalidInput, eng := .idle }) ∧
    (s.len ≤ bufBytes → s.len % 8 = 0 → ∀ k, s.kv k = false →
      exec .bufEde3Enc s = .next { s with done := true, errCode := .keyErr, eng := .idle })

/-- 44 R185, R186: BUF_EDE3_DEC, as BUF_EDE3_ENC with EDE3_D. -/
def Obligations.BufEde3DecDecryptsEveryBlock : Prop :=
  ∀ s : State,
    (s.len ≤ bufBytes → s.len % 8 = 0 → s.kv .a = true → s.kv .b = true → s.kv .c = true →
      ∃ t, exec .bufEde3Dec s = .next t ∧
        (∀ j, j < s.len / 8 → t.readBlock j = ede3Decrypt s.slotA.key s.slotB.key s.slotC.key (s.readBlock j)) ∧
        (∀ a, s.len ≤ a → t.readByte a = s.readByte a) ∧
        t = { s with buf := t.buf, done := true, errCode := .ok, eng := .idle }) ∧
    (bufBytes < s.len → exec .bufEde3Dec s = .next { s with done := true, errCode := .lengthErr, eng := .idle }) ∧
    (s.len ≤ bufBytes → s.len % 8 ≠ 0 →
      exec .bufEde3Dec s = .next { s with done := true, errCode := .invalidInput, eng := .idle }) ∧
    (s.len ≤ bufBytes → s.len % 8 = 0 → ∀ k, s.kv k = false →
      exec .bufEde3Dec s = .next { s with done := true, errCode := .keyErr, eng := .idle })

/-- 44 R186: the order of the blocks within each pass does not show: any three orders of the blocks give the state that index
order gives. -/
def Obligations.BlockOrderWithinAPassIsFree : Prop :=
  ∀ (s : State) (plan : PassNo → Dir × Slot) (j₁ j₂ j₃ : List Nat), s.buf.wf → s.len ≤ bufBytes →
    j₁.Perm (List.range s.blocks) → j₂.Perm (List.range s.blocks) → j₃.Perm (List.range s.blocks) →
    ((s.runPass (plan .first) j₁).runPass (plan .second) j₂).runPass (plan .third) j₃ = s.threePasses plan

/-- 44 R187: blocks with equal plaintext have equal ciphertext after BUF_EDE3_ENC, whatever their positions. -/
def Obligations.EqualBlocksEncryptEqually : Prop :=
  ∀ (s t : State) (i j : Nat), exec .bufEde3Enc s = .next t → t.errCode = .ok → i < s.len / 8 → j < s.len / 8 →
    s.readBlock i = s.readBlock j → t.readBlock i = t.readBlock j

/-- 45 R200, R201: PAD appends n = 8 - (LENGTH mod 8) bytes of value n, 1 to 8 of them, and LENGTH grows by n; it needs no key;
where LENGTH or the padded length is past BUF_BYTES it is LENGTH_ERR and nothing is written. -/
def Obligations.PadAppendsThePadding : Prop :=
  ∀ s : State,
    (s.len + (8 - s.len % 8) ≤ bufBytes →
      ∃ t, exec .pad s = .next t ∧ t.len = s.len + (8 - s.len % 8) ∧
        (∀ a, s.len ≤ a → a < s.len + (8 - s.len % 8) → t.readByte a = BitVec.ofNat 8 (8 - s.len % 8)) ∧
        (∀ a, a < s.len ∨ s.len + (8 - s.len % 8) ≤ a → t.readByte a = s.readByte a) ∧
        t = { s with buf := t.buf, length := t.length, done := true, errCode := .ok, eng := .idle }) ∧
    (bufBytes < s.len + (8 - s.len % 8) →
      exec .pad s = .next { s with done := true, errCode := .lengthErr, eng := .idle }) ∧
    1 ≤ 8 - s.len % 8 ∧ 8 - s.len % 8 ≤ 8

/-- 45 R202, R206: UNPAD takes the last byte p off LENGTH when p is 1 to 8, whatever the other padding bytes hold, and leaves
BUF as it is; outside that range it is INVALID_PADDING with LENGTH unchanged; its other errors, in order, change only the
completion record. -/
def Obligations.UnpadDropsWhatTheLastByteSays : Prop :=
  ∀ s : State,
    (s.len ≤ bufBytes → s.len ≠ 0 → s.len % 8 = 0 →
      (1 ≤ (s.readByte (s.len - 1)).toNat → (s.readByte (s.len - 1)).toNat ≤ 8 →
        ∃ t, exec .unpad s = .next t ∧ t.len = s.len - (s.readByte (s.len - 1)).toNat ∧
          t = { s with length := t.length, done := true, errCode := .ok, eng := .idle }) ∧
      ((s.readByte (s.len - 1)).toNat < 1 ∨ 8 < (s.readByte (s.len - 1)).toNat →
        exec .unpad s = .next { s with done := true, errCode := .invalidPadding, eng := .idle })) ∧
    (bufBytes < s.len → exec .unpad s = .next { s with done := true, errCode := .lengthErr, eng := .idle }) ∧
    (s.len ≤ bufBytes → s.len = 0 ∨ s.len % 8 ≠ 0 →
      exec .unpad s = .next { s with done := true, errCode := .invalidInput, eng := .idle })

/-- 45 R203: STREAM_ENC pads and encrypts: LENGTH becomes what PAD makes it and each block is EDE3_E of the block that PAD
leaves there; its errors, in order, leave BUF and LENGTH unpadded. -/
def Obligations.StreamEncPadsAndEncrypts : Prop :=
  ∀ s : State,
    (s.len + padCount s.len ≤ bufBytes → s.kv .a = true → s.kv .b = true → s.kv .c = true →
      ∃ t u, exec .streamEnc s = .next t ∧ exec .pad s = .next u ∧ t.length = u.length ∧
        t.len = s.len + padCount s.len ∧ t.len % 8 = 0 ∧
        (∀ j, j < t.len / 8 → t.readBlock j = ede3Encrypt s.slotA.key s.slotB.key s.slotC.key (u.readBlock j)) ∧
        (∀ a, t.len ≤ a → t.readByte a = s.readByte a) ∧
        t = { s with buf := t.buf, length := t.length, done := true, errCode := .ok, eng := .idle }) ∧
    (bufBytes < s.len + padCount s.len →
      exec .streamEnc s = .next { s with done := true, errCode := .lengthErr, eng := .idle }) ∧
    (s.len + padCount s.len ≤ bufBytes → ∀ k, s.kv k = false →
      exec .streamEnc s = .next { s with done := true, errCode := .keyErr, eng := .idle })

/-- 45 R204: STREAM_DEC decrypts every block and then takes the decrypted last byte p off LENGTH when p is 1 to 8; otherwise
it is INVALID_PADDING with BUF left decrypted and LENGTH unchanged; its other errors, in order, change only the completion
record. -/
def Obligations.StreamDecDecryptsAndUnpads : Prop :=
  ∀ s : State,
    (s.len ≤ bufBytes → s.len ≠ 0 → s.len % 8 = 0 → s.kv .a = true → s.kv .b = true → s.kv .c = true →
      ∃ t, exec .streamDec s = .next t ∧
        (∀ j, j < s.len / 8 → t.readBlock j = ede3Decrypt s.slotA.key s.slotB.key s.slotC.key (s.readBlock j)) ∧
        (∀ a, s.len ≤ a → t.readByte a = s.readByte a) ∧
        t = { s with buf := t.buf, length := t.length, done := true, errCode := t.errCode, eng := .idle } ∧
        (1 ≤ (t.readByte (s.len - 1)).toNat ∧ (t.readByte (s.len - 1)).toNat ≤ 8 →
          t.errCode = .ok ∧ t.len = s.len - (t.readByte (s.len - 1)).toNat) ∧
        (¬ (1 ≤ (t.readByte (s.len - 1)).toNat ∧ (t.readByte (s.len - 1)).toNat ≤ 8) →
          t.errCode = .invalidPadding ∧ t.length = s.length)) ∧
    (bufBytes < s.len → exec .streamDec s = .next { s with done := true, errCode := .lengthErr, eng := .idle }) ∧
    (s.len ≤ bufBytes → s.len = 0 ∨ s.len % 8 ≠ 0 →
      exec .streamDec s = .next { s with done := true, errCode := .invalidInput, eng := .idle }) ∧
    (s.len ≤ bufBytes → s.len ≠ 0 → s.len % 8 = 0 → ∀ k, s.kv k = false →
      exec .streamDec s = .next { s with done := true, errCode := .keyErr, eng := .idle })

/-- 45 R205: when both parts succeed, STREAM_ENC ends in the state of PAD followed by BUF_EDE3_ENC, and STREAM_DEC in that of
BUF_EDE3_DEC followed by UNPAD; on a missing key STREAM_ENC stops before padding while PAD alone pads. -/
def Obligations.StreamCommandsAreTheirParts : Prop :=
  (∀ s t u : State, exec .pad s = .next t → t.errCode = .ok →
      exec .bufEde3Enc (t.accept 0x00000005#32) = .next u → u.errCode = .ok → exec .streamEnc s = .next u) ∧
    (∀ s t u : State, exec .bufEde3Dec s = .next t → t.errCode = .ok →
      exec .unpad (t.accept 0x00000008#32) = .next u → u.errCode = .ok → exec .streamDec s = .next u) ∧
    ∀ (s : State) (k : Slot), s.kv k = false → s.len + padCount s.len ≤ bufBytes →
      ∃ t u, exec .streamEnc s = .next t ∧ t.errCode = .keyErr ∧ t.len = s.len ∧
        exec .pad s = .next u ∧ u.errCode = .ok ∧ u.len ≠ s.len

/-- 45 R207: STREAM_ENC followed by STREAM_DEC restores LENGTH and BUF[0 .. LENGTH-1] and ends with ERRCODE = 0. -/
def Obligations.StreamDecUndoesStreamEnc : Prop :=
  ∀ s : State, s.len + padCount s.len ≤ bufBytes → s.kv .a = true → s.kv .b = true → s.kv .c = true →
    ∃ t u, exec .streamEnc s = .next t ∧ exec .streamDec (t.accept 0x0000000A#32) = .next u ∧ u.errCode = .ok ∧
      u.len = s.len ∧ ∀ a, a < s.len → u.readByte a = s.readByte a

/-- 48 R242, R243 (host software): a stream may be split on a block boundary. Let `s₁` hold the first `8m` bytes of what `s`
holds and `s₂` the rest, with the same keys: BUF_EDE3_ENC of the first part and STREAM_ENC of the rest, one after the other, are
the bytes and the length of the whole stream's STREAM_ENC. The host's flow over chunks, from an Idle core with three valid
slots, gives the ciphertext of the whole string, and the decrypting flow gives the string back, whatever the chunks that R243
allows; and decryptFile gives back what encryptFile took, of any length, with the keys of any password, loaded either way. The
flows are the model's functions (DESIGN CHOICE, log entry 14): in each WAIT here the engine takes exactly one turn, the whole
command (`[.whole]`), and a file that does not fit is cut into chunks of BUF_BYTES; loading with LDKEYS has the check of ERRCODE
of log entry 17, which passes here; the password's keys rest on the open hash of log entry 12. -/
def Obligations.StreamEncSplitsOnABlockBoundary : Prop :=
  (∀ (s s₁ s₂ t t₁ t₂ : State) (m : Nat),
    (∀ k, s₁.slot k = s.slot k ∧ s₂.slot k = s.slot k) → s₁.len = 8 * m → s.len = 8 * m + s₂.len →
    (∀ a, a < 8 * m → s₁.readByte a = s.readByte a) →
    (∀ a, a < s₂.len → s₂.readByte a = s.readByte (8 * m + a)) →
    exec .streamEnc s = .next t → t.errCode = .ok → exec .bufEde3Enc s₁ = .next t₁ → exec .streamEnc s₂ = .next t₂ →
    t₁.errCode = .ok ∧ t₂.errCode = .ok ∧ t.len = 8 * m + t₂.len ∧
      (∀ a, a < 8 * m → t.readByte a = t₁.readByte a) ∧
      ∀ a, a < t₂.len → t.readByte (8 * m + a) = t₂.readByte a) ∧
  (∀ (s : State) (chunks : List (List Byte)) (last : List Byte), s.eng = .idle → (∀ k, s.kv k = true) →
    (∀ c ∈ chunks, c.length % 8 = 0 ∧ c.length ≤ bufBytes) →
    (last.length + padCount last.length ≤ bufBytes →
      ∃ t, hostEncryptChunks [.whole] (chunks ++ [last]) s =
        .ok (streamCipher s.slotA.key s.slotB.key s.slotC.key (chunks.flatten ++ last), t)) ∧
    (last.length ≤ bufBytes → last ≠ [] → ∀ plain,
      chunks.flatten ++ last = streamCipher s.slotA.key s.slotB.key s.slotC.key plain →
      ∃ t, hostDecryptChunks [.whole] (chunks ++ [last]) s = .ok (plain, t))) ∧
  ∀ (s : State) (way : KeyLoading) (pw plain : List Byte), s.eng = .idle →
    ∃ cipher t u, hostEncryptFile [.whole] way (keyDerivation pw) plain s = .ok (cipher, t) ∧
      cipher = streamCipher t.slotA.key t.slotB.key t.slotC.key plain ∧
      hostDecryptFile [.whole] way (keyDerivation pw) cipher t = .ok (plain, u)

/-- 48 R240, R241, 20 R55 (host software): with m₁ the password's hash and m₂ the hash of m₁, each with the password mixed in
by XOR over its first min(HASH_SIZE, m) bytes, the key file is the 21 bytes of the first 7 of the password's hash, of the hash
of m₁ and of the hash of m₂; an empty password mixes nothing in; and loading that file, with LDKEYS or with SETKEY, makes its
three fragments, byte 0 of each in the top bits, the keys of slots A, B and C, all valid. The hash is an open constant (log
entry 12); the loading is the model's function (DESIGN CHOICE, log entry 14), and in the WAIT of LDKEYS the engine takes exactly
one turn, the whole command (`[.whole]`); the check of ERRCODE after LDKEYS (log entry 17) passes here. -/
def Obligations.KeyDerivationGivesATwentyOneByteFile : Prop :=
  ∀ pw : List Byte, ∃ (m₁ m₂ : List Byte) (ka kb kc : Key),
    (m₁.length = hashSize ∧ ∀ i, i < hashSize → m₁.getD i 0#8 =
      if i < pw.length then (hostHash pw).getD i 0#8 ^^^ pw.getD i 0#8 else (hostHash pw).getD i 0#8) ∧
    (m₂.length = hashSize ∧ ∀ i, i < hashSize → m₂.getD i 0#8 =
      if i < pw.length then (hostHash m₁).getD i 0#8 ^^^ pw.getD i 0#8 else (hostHash m₁).getD i 0#8) ∧
    keyDerivation pw = (hostHash pw).take 7 ++ (hostHash m₁).take 7 ++ (hostHash m₂).take 7 ∧
    (keyDerivation pw).length = 21 ∧ (pw = [] → m₁ = hostHash [] ∧ m₂ = hostHash (hostHash [])) ∧
    (∀ i, i < 7 → ka.extractLsb' (8 * (6 - i)) 8 = (hostHash pw).getD i 0#8 ∧
      kb.extractLsb' (8 * (6 - i)) 8 = (hostHash m₁).getD i 0#8 ∧
      kc.extractLsb' (8 * (6 - i)) 8 = (hostHash m₂).getD i 0#8) ∧
    ∀ (way : KeyLoading) (s : State), s.eng = .idle →
      ∃ t, hostLoadPassword [.whole] way pw s = .ok t ∧ t.eng = .idle ∧
        t.slotA = { key := ka, hw := true, lw := true } ∧ t.slotB = { key := kb, hw := true, lw := true } ∧
        t.slotC = { key := kc, hw := true, lw := true }

/-- 46 R221, 20 R55: LDKEYS loads the three fragments from BUF[0..20], byte 0 of each in its top bits, sets all six
written-flags and leaves BUF, LENGTH and every other register as they are; a LENGTH past BUF_BYTES is LENGTH_ERR, one below
21 is KEY_ERR, and neither changes a key. -/
def Obligations.LdkeysLoadsTheKeyFile : Prop :=
  ∀ s : State,
    (s.len ≤ bufBytes → 21 ≤ s.len →
      exec .ldkeys s =
        .next { s with
          slotA := { key := s.readByte 0 ++ s.readByte 1 ++ s.readByte 2 ++ s.readByte 3 ++ s.readByte 4 ++
            s.readByte 5 ++ s.readByte 6, hw := true, lw := true }
          slotB := { key := s.readByte 7 ++ s.readByte 8 ++ s.readByte 9 ++ s.readByte 10 ++ s.readByte 11 ++
            s.readByte 12 ++ s.readByte 13, hw := true, lw := true }
          slotC := { key := s.readByte 14 ++ s.readByte 15 ++ s.readByte 16 ++ s.readByte 17 ++ s.readByte 18 ++
            s.readByte 19 ++ s.readByte 20, hw := true, lw := true }
          done := true, errCode := .ok, eng := .idle }) ∧
    (bufBytes < s.len → exec .ldkeys s = .next { s with done := true, errCode := .lengthErr, eng := .idle }) ∧
    (s.len ≤ bufBytes → s.len < 21 →
      exec .ldkeys s = .next { s with done := true, errCode := .keyErr, eng := .idle })

/-! ### Errors and frames over all commands (60) -/

/-- 60 R303: every error but INVALID_PADDING leaves all state except STATUS as it was; INVALID_PADDING from UNPAD leaves
everything unchanged; from STREAM_DEC it leaves BUF decrypted and LENGTH unchanged; no other command gives it. -/
def Obligations.ErrorsLeaveTheStateAsItWas : Prop :=
  ∀ (i : Instr) (s t : State), exec i s = .next t →
    (t.errCode ≠ .ok → t.errCode ≠ .invalidPadding ∨ i = .unpad →
      t = { s with done := true, errCode := t.errCode, eng := .idle }) ∧
    (t.errCode = .invalidPadding → i = .unpad ∨ i = .streamDec) ∧
    (t.errCode = .invalidPadding → i = .streamDec →
      t = { s with buf := t.buf, done := true, errCode := .invalidPadding, eng := .idle } ∧
        ∀ j, j < s.len / 8 → t.readBlock j = ede3Decrypt s.slotA.key s.slotB.key s.slotC.key (s.readBlock j))

/-- 60 R300, R302, R310: the code of a legal command is the first in the ranking LENGTH_ERR, INVALID_INPUT, KEY_ERR whose cause
(60 R300) holds; INVALID_PADDING comes last, after all of them; ILLEGAL_CMD comes first, whatever the operands. -/
def Obligations.ErrorCodesFollowTheRanking : Prop :=
  (∀ (s : State) (w : Word), illegalWord w →
    ∃ t, engineTurn (s.accept w) = .next t ∧ t.errCode = .illegalCmd) ∧
  ∀ (i : Instr) (s t : State), i.WellFormed → exec i s = .next t →
    (t.errCode = .lengthErr ↔ errorCause s i .lengthErr) ∧
    (t.errCode = .invalidInput ↔ errorCause s i .invalidInput ∧ ¬ errorCause s i .lengthErr) ∧
    (t.errCode = .keyErr ↔
      errorCause s i .keyErr ∧ ¬ errorCause s i .invalidInput ∧ ¬ errorCause s i .lengthErr) ∧
    t.errCode ≠ .illegalCmd ∧
    (t.errCode = .invalidPadding →
      ¬ errorCause s i .keyErr ∧ ¬ errorCause s i .invalidInput ∧ ¬ errorCause s i .lengthErr) ∧
    (i = .streamDec → s.len = 12 → s.kv .a = false → s.kv .b = false → s.kv .c = false →
      t.errCode = .invalidInput)

/-- The frame of NOP, DES_ENC, DES_DEC, EDE3_ENC and EDE3_DEC (43 R165, R166; 44 R181, R182; 46 R220): DOUT, and only on success
and never by NOP, and the completion record change; every other register, every written-flag and every byte of BUF is
unchanged. -/
def Obligations.RegisterCommandsChangeOnlyDout : Prop :=
  ∀ (i : Instr) (s t : State),
    (i = .nop ∨ (∃ k, i = .desEnc k) ∨ (∃ k, i = .desDec k) ∨ i = .ede3Enc ∨ i = .ede3Dec) → exec i s = .next t →
    t = { s with dout := t.dout, done := true, errCode := t.errCode, eng := .idle } ∧
      (t.errCode ≠ .ok ∨ i = .nop → t.dout = s.dout) ∧ ∀ a, t.readByte a = s.readByte a

/-- The frame of the buffer commands (44 R184, R185; 45 R201 to R204; 46 R221): of the registers only LENGTH (by PAD, UNPAD,
STREAM_ENC and STREAM_DEC), the key slots (by LDKEYS) and the completion record change, and every byte of BUF outside those
the command stores to is unchanged. -/
def Obligations.BufferCommandsChangeOnlyWhatTheyStore : Prop :=
  ∀ (i : Instr) (s t : State),
    (i = .bufEde3Enc ∨ i = .bufEde3Dec ∨ i = .pad ∨ i = .unpad ∨ i = .streamEnc ∨ i = .streamDec ∨ i = .ldkeys) →
    exec i s = .next t →
    t = { s with buf := t.buf, length := t.length, slotA := t.slotA, slotB := t.slotB, slotC := t.slotC, done := true,
                 errCode := t.errCode, eng := .idle } ∧
      (i = .bufEde3Enc ∨ i = .bufEde3Dec ∨ i = .ldkeys → t.length = s.length) ∧
      (i ≠ .ldkeys → ∀ k, t.slot k = s.slot k) ∧
      ∀ a, ¬ storesTo i s a → t.readByte a = s.readByte a
end

