-- ==== Sys2Proof/Laws/State.lean ====
section
/-! SUPPORT. The small lemmas of the state's updates: one for each field and each update, true by rfl, so that no later proof
unfolds a record update; then the same for the updates of one slot. -/

namespace Sys2Proof.Machine

/-! ### `State.setBuf` -/

@[simp] theorem State.setBuf_done (s : State) (m : Memory) : (s.setBuf m).done = s.done := rfl
@[simp] theorem State.setBuf_werr (s : State) (m : Memory) : (s.setBuf m).werr = s.werr := rfl
@[simp] theorem State.setBuf_errCode (s : State) (m : Memory) : (s.setBuf m).errCode = s.errCode := rfl
@[simp] theorem State.setBuf_doneIe (s : State) (m : Memory) : (s.setBuf m).doneIe = s.doneIe := rfl
@[simp] theorem State.setBuf_werrIe (s : State) (m : Memory) : (s.setBuf m).werrIe = s.werrIe := rfl
@[simp] theorem State.setBuf_length (s : State) (m : Memory) : (s.setBuf m).length = s.length := rfl
@[simp] theorem State.setBuf_skRound (s : State) (m : Memory) : (s.setBuf m).skRound = s.skRound := rfl
@[simp] theorem State.setBuf_skSlot (s : State) (m : Memory) : (s.setBuf m).skSlot = s.skSlot := rfl
@[simp] theorem State.setBuf_slotA (s : State) (m : Memory) : (s.setBuf m).slotA = s.slotA := rfl
@[simp] theorem State.setBuf_slotB (s : State) (m : Memory) : (s.setBuf m).slotB = s.slotB := rfl
@[simp] theorem State.setBuf_slotC (s : State) (m : Memory) : (s.setBuf m).slotC = s.slotC := rfl
@[simp] theorem State.setBuf_din (s : State) (m : Memory) : (s.setBuf m).din = s.din := rfl
@[simp] theorem State.setBuf_dout (s : State) (m : Memory) : (s.setBuf m).dout = s.dout := rfl
@[simp] theorem State.setBuf_buf (s : State) (m : Memory) : (s.setBuf m).buf = m := rfl
@[simp] theorem State.setBuf_eng (s : State) (m : Memory) : (s.setBuf m).eng = s.eng := rfl
@[simp] theorem State.setBuf_resp (s : State) (m : Memory) : (s.setBuf m).resp = s.resp := rfl
@[simp] theorem State.setBuf_inputs (s : State) (m : Memory) : (s.setBuf m).inputs = s.inputs := rfl
@[simp] theorem State.setBuf_resets (s : State) (m : Memory) : (s.setBuf m).resets = s.resets := rfl
@[simp] theorem State.setBuf_draws (s : State) (m : Memory) : (s.setBuf m).draws = s.draws := rfl

/-! ### `State.setLength` -/

@[simp] theorem State.setLength_done (s : State) (w : Word) : (s.setLength w).done = s.done := rfl
@[simp] theorem State.setLength_werr (s : State) (w : Word) : (s.setLength w).werr = s.werr := rfl
@[simp] theorem State.setLength_errCode (s : State) (w : Word) : (s.setLength w).errCode = s.errCode := rfl
@[simp] theorem State.setLength_doneIe (s : State) (w : Word) : (s.setLength w).doneIe = s.doneIe := rfl
@[simp] theorem State.setLength_werrIe (s : State) (w : Word) : (s.setLength w).werrIe = s.werrIe := rfl
@[simp] theorem State.setLength_length (s : State) (w : Word) : (s.setLength w).length = w := rfl
@[simp] theorem State.setLength_skRound (s : State) (w : Word) : (s.setLength w).skRound = s.skRound := rfl
@[simp] theorem State.setLength_skSlot (s : State) (w : Word) : (s.setLength w).skSlot = s.skSlot := rfl
@[simp] theorem State.setLength_slotA (s : State) (w : Word) : (s.setLength w).slotA = s.slotA := rfl
@[simp] theorem State.setLength_slotB (s : State) (w : Word) : (s.setLength w).slotB = s.slotB := rfl
@[simp] theorem State.setLength_slotC (s : State) (w : Word) : (s.setLength w).slotC = s.slotC := rfl
@[simp] theorem State.setLength_din (s : State) (w : Word) : (s.setLength w).din = s.din := rfl
@[simp] theorem State.setLength_dout (s : State) (w : Word) : (s.setLength w).dout = s.dout := rfl
@[simp] theorem State.setLength_buf (s : State) (w : Word) : (s.setLength w).buf = s.buf := rfl
@[simp] theorem State.setLength_eng (s : State) (w : Word) : (s.setLength w).eng = s.eng := rfl
@[simp] theorem State.setLength_resp (s : State) (w : Word) : (s.setLength w).resp = s.resp := rfl
@[simp] theorem State.setLength_inputs (s : State) (w : Word) : (s.setLength w).inputs = s.inputs := rfl
@[simp] theorem State.setLength_resets (s : State) (w : Word) : (s.setLength w).resets = s.resets := rfl
@[simp] theorem State.setLength_draws (s : State) (w : Word) : (s.setLength w).draws = s.draws := rfl

/-! ### `State.setDin` -/

@[simp] theorem State.setDin_done (s : State) (b : Block) : (s.setDin b).done = s.done := rfl
@[simp] theorem State.setDin_werr (s : State) (b : Block) : (s.setDin b).werr = s.werr := rfl
@[simp] theorem State.setDin_errCode (s : State) (b : Block) : (s.setDin b).errCode = s.errCode := rfl
@[simp] theorem State.setDin_doneIe (s : State) (b : Block) : (s.setDin b).doneIe = s.doneIe := rfl
@[simp] theorem State.setDin_werrIe (s : State) (b : Block) : (s.setDin b).werrIe = s.werrIe := rfl
@[simp] theorem State.setDin_length (s : State) (b : Block) : (s.setDin b).length = s.length := rfl
@[simp] theorem State.setDin_skRound (s : State) (b : Block) : (s.setDin b).skRound = s.skRound := rfl
@[simp] theorem State.setDin_skSlot (s : State) (b : Block) : (s.setDin b).skSlot = s.skSlot := rfl
@[simp] theorem State.setDin_slotA (s : State) (b : Block) : (s.setDin b).slotA = s.slotA := rfl
@[simp] theorem State.setDin_slotB (s : State) (b : Block) : (s.setDin b).slotB = s.slotB := rfl
@[simp] theorem State.setDin_slotC (s : State) (b : Block) : (s.setDin b).slotC = s.slotC := rfl
@[simp] theorem State.setDin_din (s : State) (b : Block) : (s.setDin b).din = b := rfl
@[simp] theorem State.setDin_dout (s : State) (b : Block) : (s.setDin b).dout = s.dout := rfl
@[simp] theorem State.setDin_buf (s : State) (b : Block) : (s.setDin b).buf = s.buf := rfl
@[simp] theorem State.setDin_eng (s : State) (b : Block) : (s.setDin b).eng = s.eng := rfl
@[simp] theorem State.setDin_resp (s : State) (b : Block) : (s.setDin b).resp = s.resp := rfl
@[simp] theorem State.setDin_inputs (s : State) (b : Block) : (s.setDin b).inputs = s.inputs := rfl
@[simp] theorem State.setDin_resets (s : State) (b : Block) : (s.setDin b).resets = s.resets := rfl
@[simp] theorem State.setDin_draws (s : State) (b : Block) : (s.setDin b).draws = s.draws := rfl

/-! ### `State.setDout` -/

@[simp] theorem State.setDout_done (s : State) (b : Block) : (s.setDout b).done = s.done := rfl
@[simp] theorem State.setDout_werr (s : State) (b : Block) : (s.setDout b).werr = s.werr := rfl
@[simp] theorem State.setDout_errCode (s : State) (b : Block) : (s.setDout b).errCode = s.errCode := rfl
@[simp] theorem State.setDout_doneIe (s : State) (b : Block) : (s.setDout b).doneIe = s.doneIe := rfl
@[simp] theorem State.setDout_werrIe (s : State) (b : Block) : (s.setDout b).werrIe = s.werrIe := rfl
@[simp] theorem State.setDout_length (s : State) (b : Block) : (s.setDout b).length = s.length := rfl
@[simp] theorem State.setDout_skRound (s : State) (b : Block) : (s.setDout b).skRound = s.skRound := rfl
@[simp] theorem State.setDout_skSlot (s : State) (b : Block) : (s.setDout b).skSlot = s.skSlot := rfl
@[simp] theorem State.setDout_slotA (s : State) (b : Block) : (s.setDout b).slotA = s.slotA := rfl
@[simp] theorem State.setDout_slotB (s : State) (b : Block) : (s.setDout b).slotB = s.slotB := rfl
@[simp] theorem State.setDout_slotC (s : State) (b : Block) : (s.setDout b).slotC = s.slotC := rfl
@[simp] theorem State.setDout_din (s : State) (b : Block) : (s.setDout b).din = s.din := rfl
@[simp] theorem State.setDout_dout (s : State) (b : Block) : (s.setDout b).dout = b := rfl
@[simp] theorem State.setDout_buf (s : State) (b : Block) : (s.setDout b).buf = s.buf := rfl
@[simp] theorem State.setDout_eng (s : State) (b : Block) : (s.setDout b).eng = s.eng := rfl
@[simp] theorem State.setDout_resp (s : State) (b : Block) : (s.setDout b).resp = s.resp := rfl
@[simp] theorem State.setDout_inputs (s : State) (b : Block) : (s.setDout b).inputs = s.inputs := rfl
@[simp] theorem State.setDout_resets (s : State) (b : Block) : (s.setDout b).resets = s.resets := rfl
@[simp] theorem State.setDout_draws (s : State) (b : Block) : (s.setDout b).draws = s.draws := rfl

/-! ### `State.setEng` -/

@[simp] theorem State.setEng_done (s : State) (e : Engine) : (s.setEng e).done = s.done := rfl
@[simp] theorem State.setEng_werr (s : State) (e : Engine) : (s.setEng e).werr = s.werr := rfl
@[simp] theorem State.setEng_errCode (s : State) (e : Engine) : (s.setEng e).errCode = s.errCode := rfl
@[simp] theorem State.setEng_doneIe (s : State) (e : Engine) : (s.setEng e).doneIe = s.doneIe := rfl
@[simp] theorem State.setEng_werrIe (s : State) (e : Engine) : (s.setEng e).werrIe = s.werrIe := rfl
@[simp] theorem State.setEng_length (s : State) (e : Engine) : (s.setEng e).length = s.length := rfl
@[simp] theorem State.setEng_skRound (s : State) (e : Engine) : (s.setEng e).skRound = s.skRound := rfl
@[simp] theorem State.setEng_skSlot (s : State) (e : Engine) : (s.setEng e).skSlot = s.skSlot := rfl
@[simp] theorem State.setEng_slotA (s : State) (e : Engine) : (s.setEng e).slotA = s.slotA := rfl
@[simp] theorem State.setEng_slotB (s : State) (e : Engine) : (s.setEng e).slotB = s.slotB := rfl
@[simp] theorem State.setEng_slotC (s : State) (e : Engine) : (s.setEng e).slotC = s.slotC := rfl
@[simp] theorem State.setEng_din (s : State) (e : Engine) : (s.setEng e).din = s.din := rfl
@[simp] theorem State.setEng_dout (s : State) (e : Engine) : (s.setEng e).dout = s.dout := rfl
@[simp] theorem State.setEng_buf (s : State) (e : Engine) : (s.setEng e).buf = s.buf := rfl
@[simp] theorem State.setEng_eng (s : State) (e : Engine) : (s.setEng e).eng = e := rfl
@[simp] theorem State.setEng_resp (s : State) (e : Engine) : (s.setEng e).resp = s.resp := rfl
@[simp] theorem State.setEng_inputs (s : State) (e : Engine) : (s.setEng e).inputs = s.inputs := rfl
@[simp] theorem State.setEng_resets (s : State) (e : Engine) : (s.setEng e).resets = s.resets := rfl
@[simp] theorem State.setEng_draws (s : State) (e : Engine) : (s.setEng e).draws = s.draws := rfl

/-! ### `State.respond` -/

@[simp] theorem State.respond_done (s : State) (r : BusResp) : (s.respond r).done = s.done := rfl
@[simp] theorem State.respond_werr (s : State) (r : BusResp) : (s.respond r).werr = s.werr := rfl
@[simp] theorem State.respond_errCode (s : State) (r : BusResp) : (s.respond r).errCode = s.errCode := rfl
@[simp] theorem State.respond_doneIe (s : State) (r : BusResp) : (s.respond r).doneIe = s.doneIe := rfl
@[simp] theorem State.respond_werrIe (s : State) (r : BusResp) : (s.respond r).werrIe = s.werrIe := rfl
@[simp] theorem State.respond_length (s : State) (r : BusResp) : (s.respond r).length = s.length := rfl
@[simp] theorem State.respond_skRound (s : State) (r : BusResp) : (s.respond r).skRound = s.skRound := rfl
@[simp] theorem State.respond_skSlot (s : State) (r : BusResp) : (s.respond r).skSlot = s.skSlot := rfl
@[simp] theorem State.respond_slotA (s : State) (r : BusResp) : (s.respond r).slotA = s.slotA := rfl
@[simp] theorem State.respond_slotB (s : State) (r : BusResp) : (s.respond r).slotB = s.slotB := rfl
@[simp] theorem State.respond_slotC (s : State) (r : BusResp) : (s.respond r).slotC = s.slotC := rfl
@[simp] theorem State.respond_din (s : State) (r : BusResp) : (s.respond r).din = s.din := rfl
@[simp] theorem State.respond_dout (s : State) (r : BusResp) : (s.respond r).dout = s.dout := rfl
@[simp] theorem State.respond_buf (s : State) (r : BusResp) : (s.respond r).buf = s.buf := rfl
@[simp] theorem State.respond_eng (s : State) (r : BusResp) : (s.respond r).eng = s.eng := rfl
@[simp] theorem State.respond_resp (s : State) (r : BusResp) : (s.respond r).resp = some r := rfl
@[simp] theorem State.respond_inputs (s : State) (r : BusResp) : (s.respond r).inputs = s.inputs := rfl
@[simp] theorem State.respond_resets (s : State) (r : BusResp) : (s.respond r).resets = s.resets := rfl
@[simp] theorem State.respond_draws (s : State) (r : BusResp) : (s.respond r).draws = s.draws := rfl

/-! ### `State.setWerr` -/

@[simp] theorem State.setWerr_done (s : State) : s.setWerr.done = s.done := rfl
@[simp] theorem State.setWerr_werr (s : State) : s.setWerr.werr = true := rfl
@[simp] theorem State.setWerr_errCode (s : State) : s.setWerr.errCode = s.errCode := rfl
@[simp] theorem State.setWerr_doneIe (s : State) : s.setWerr.doneIe = s.doneIe := rfl
@[simp] theorem State.setWerr_werrIe (s : State) : s.setWerr.werrIe = s.werrIe := rfl
@[simp] theorem State.setWerr_length (s : State) : s.setWerr.length = s.length := rfl
@[simp] theorem State.setWerr_skRound (s : State) : s.setWerr.skRound = s.skRound := rfl
@[simp] theorem State.setWerr_skSlot (s : State) : s.setWerr.skSlot = s.skSlot := rfl
@[simp] theorem State.setWerr_slotA (s : State) : s.setWerr.slotA = s.slotA := rfl
@[simp] theorem State.setWerr_slotB (s : State) : s.setWerr.slotB = s.slotB := rfl
@[simp] theorem State.setWerr_slotC (s : State) : s.setWerr.slotC = s.slotC := rfl
@[simp] theorem State.setWerr_din (s : State) : s.setWerr.din = s.din := rfl
@[simp] theorem State.setWerr_dout (s : State) : s.setWerr.dout = s.dout := rfl
@[simp] theorem State.setWerr_buf (s : State) : s.setWerr.buf = s.buf := rfl
@[simp] theorem State.setWerr_eng (s : State) : s.setWerr.eng = s.eng := rfl
@[simp] theorem State.setWerr_resp (s : State) : s.setWerr.resp = s.resp := rfl
@[simp] theorem State.setWerr_inputs (s : State) : s.setWerr.inputs = s.inputs := rfl
@[simp] theorem State.setWerr_resets (s : State) : s.setWerr.resets = s.resets := rfl
@[simp] theorem State.setWerr_draws (s : State) : s.setWerr.draws = s.draws := rfl

/-! ### `State.setFlags` -/

@[simp] theorem State.setFlags_done (s : State) (d w : Bool) : (s.setFlags d w).done = d := rfl
@[simp] theorem State.setFlags_werr (s : State) (d w : Bool) : (s.setFlags d w).werr = w := rfl
@[simp] theorem State.setFlags_errCode (s : State) (d w : Bool) : (s.setFlags d w).errCode = s.errCode := rfl
@[simp] theorem State.setFlags_doneIe (s : State) (d w : Bool) : (s.setFlags d w).doneIe = s.doneIe := rfl
@[simp] theorem State.setFlags_werrIe (s : State) (d w : Bool) : (s.setFlags d w).werrIe = s.werrIe := rfl
@[simp] theorem State.setFlags_length (s : State) (d w : Bool) : (s.setFlags d w).length = s.length := rfl
@[simp] theorem State.setFlags_skRound (s : State) (d w : Bool) : (s.setFlags d w).skRound = s.skRound := rfl
@[simp] theorem State.setFlags_skSlot (s : State) (d w : Bool) : (s.setFlags d w).skSlot = s.skSlot := rfl
@[simp] theorem State.setFlags_slotA (s : State) (d w : Bool) : (s.setFlags d w).slotA = s.slotA := rfl
@[simp] theorem State.setFlags_slotB (s : State) (d w : Bool) : (s.setFlags d w).slotB = s.slotB := rfl
@[simp] theorem State.setFlags_slotC (s : State) (d w : Bool) : (s.setFlags d w).slotC = s.slotC := rfl
@[simp] theorem State.setFlags_din (s : State) (d w : Bool) : (s.setFlags d w).din = s.din := rfl
@[simp] theorem State.setFlags_dout (s : State) (d w : Bool) : (s.setFlags d w).dout = s.dout := rfl
@[simp] theorem State.setFlags_buf (s : State) (d w : Bool) : (s.setFlags d w).buf = s.buf := rfl
@[simp] theorem State.setFlags_eng (s : State) (d w : Bool) : (s.setFlags d w).eng = s.eng := rfl
@[simp] theorem State.setFlags_resp (s : State) (d w : Bool) : (s.setFlags d w).resp = s.resp := rfl
@[simp] theorem State.setFlags_inputs (s : State) (d w : Bool) : (s.setFlags d w).inputs = s.inputs := rfl
@[simp] theorem State.setFlags_resets (s : State) (d w : Bool) : (s.setFlags d w).resets = s.resets := rfl
@[simp] theorem State.setFlags_draws (s : State) (d w : Bool) : (s.setFlags d w).draws = s.draws := rfl

/-! ### `State.setIe` -/

@[simp] theorem State.setIe_done (s : State) (d w : Bool) : (s.setIe d w).done = s.done := rfl
@[simp] theorem State.setIe_werr (s : State) (d w : Bool) : (s.setIe d w).werr = s.werr := rfl
@[simp] theorem State.setIe_errCode (s : State) (d w : Bool) : (s.setIe d w).errCode = s.errCode := rfl
@[simp] theorem State.setIe_doneIe (s : State) (d w : Bool) : (s.setIe d w).doneIe = d := rfl
@[simp] theorem State.setIe_werrIe (s : State) (d w : Bool) : (s.setIe d w).werrIe = w := rfl
@[simp] theorem State.setIe_length (s : State) (d w : Bool) : (s.setIe d w).length = s.length := rfl
@[simp] theorem State.setIe_skRound (s : State) (d w : Bool) : (s.setIe d w).skRound = s.skRound := rfl
@[simp] theorem State.setIe_skSlot (s : State) (d w : Bool) : (s.setIe d w).skSlot = s.skSlot := rfl
@[simp] theorem State.setIe_slotA (s : State) (d w : Bool) : (s.setIe d w).slotA = s.slotA := rfl
@[simp] theorem State.setIe_slotB (s : State) (d w : Bool) : (s.setIe d w).slotB = s.slotB := rfl
@[simp] theorem State.setIe_slotC (s : State) (d w : Bool) : (s.setIe d w).slotC = s.slotC := rfl
@[simp] theorem State.setIe_din (s : State) (d w : Bool) : (s.setIe d w).din = s.din := rfl
@[simp] theorem State.setIe_dout (s : State) (d w : Bool) : (s.setIe d w).dout = s.dout := rfl
@[simp] theorem State.setIe_buf (s : State) (d w : Bool) : (s.setIe d w).buf = s.buf := rfl
@[simp] theorem State.setIe_eng (s : State) (d w : Bool) : (s.setIe d w).eng = s.eng := rfl
@[simp] theorem State.setIe_resp (s : State) (d w : Bool) : (s.setIe d w).resp = s.resp := rfl
@[simp] theorem State.setIe_inputs (s : State) (d w : Bool) : (s.setIe d w).inputs = s.inputs := rfl
@[simp] theorem State.setIe_resets (s : State) (d w : Bool) : (s.setIe d w).resets = s.resets := rfl
@[simp] theorem State.setIe_draws (s : State) (d w : Bool) : (s.setIe d w).draws = s.draws := rfl

/-! ### `State.setSksel` -/

@[simp] theorem State.setSksel_done (s : State) (r : BitVec 4) (k : BitVec 2) : (s.setSksel r k).done = s.done := rfl
@[simp] theorem State.setSksel_werr (s : State) (r : BitVec 4) (k : BitVec 2) : (s.setSksel r k).werr = s.werr := rfl
@[simp] theorem State.setSksel_errCode (s : State) (r : BitVec 4) (k : BitVec 2) : (s.setSksel r k).errCode = s.errCode := rfl
@[simp] theorem State.setSksel_doneIe (s : State) (r : BitVec 4) (k : BitVec 2) : (s.setSksel r k).doneIe = s.doneIe := rfl
@[simp] theorem State.setSksel_werrIe (s : State) (r : BitVec 4) (k : BitVec 2) : (s.setSksel r k).werrIe = s.werrIe := rfl
@[simp] theorem State.setSksel_length (s : State) (r : BitVec 4) (k : BitVec 2) : (s.setSksel r k).length = s.length := rfl
@[simp] theorem State.setSksel_skRound (s : State) (r : BitVec 4) (k : BitVec 2) : (s.setSksel r k).skRound = r := rfl
@[simp] theorem State.setSksel_skSlot (s : State) (r : BitVec 4) (k : BitVec 2) : (s.setSksel r k).skSlot = k := rfl
@[simp] theorem State.setSksel_slotA (s : State) (r : BitVec 4) (k : BitVec 2) : (s.setSksel r k).slotA = s.slotA := rfl
@[simp] theorem State.setSksel_slotB (s : State) (r : BitVec 4) (k : BitVec 2) : (s.setSksel r k).slotB = s.slotB := rfl
@[simp] theorem State.setSksel_slotC (s : State) (r : BitVec 4) (k : BitVec 2) : (s.setSksel r k).slotC = s.slotC := rfl
@[simp] theorem State.setSksel_din (s : State) (r : BitVec 4) (k : BitVec 2) : (s.setSksel r k).din = s.din := rfl
@[simp] theorem State.setSksel_dout (s : State) (r : BitVec 4) (k : BitVec 2) : (s.setSksel r k).dout = s.dout := rfl
@[simp] theorem State.setSksel_buf (s : State) (r : BitVec 4) (k : BitVec 2) : (s.setSksel r k).buf = s.buf := rfl
@[simp] theorem State.setSksel_eng (s : State) (r : BitVec 4) (k : BitVec 2) : (s.setSksel r k).eng = s.eng := rfl
@[simp] theorem State.setSksel_resp (s : State) (r : BitVec 4) (k : BitVec 2) : (s.setSksel r k).resp = s.resp := rfl
@[simp] theorem State.setSksel_inputs (s : State) (r : BitVec 4) (k : BitVec 2) : (s.setSksel r k).inputs = s.inputs := rfl
@[simp] theorem State.setSksel_resets (s : State) (r : BitVec 4) (k : BitVec 2) : (s.setSksel r k).resets = s.resets := rfl
@[simp] theorem State.setSksel_draws (s : State) (r : BitVec 4) (k : BitVec 2) : (s.setSksel r k).draws = s.draws := rfl

/-! ### `State.setInputs` -/

@[simp] theorem State.setInputs_done (s : State) (is : List Input) : (s.setInputs is).done = s.done := rfl
@[simp] theorem State.setInputs_werr (s : State) (is : List Input) : (s.setInputs is).werr = s.werr := rfl
@[simp] theorem State.setInputs_errCode (s : State) (is : List Input) : (s.setInputs is).errCode = s.errCode := rfl
@[simp] theorem State.setInputs_doneIe (s : State) (is : List Input) : (s.setInputs is).doneIe = s.doneIe := rfl
@[simp] theorem State.setInputs_werrIe (s : State) (is : List Input) : (s.setInputs is).werrIe = s.werrIe := rfl
@[simp] theorem State.setInputs_length (s : State) (is : List Input) : (s.setInputs is).length = s.length := rfl
@[simp] theorem State.setInputs_skRound (s : State) (is : List Input) : (s.setInputs is).skRound = s.skRound := rfl
@[simp] theorem State.setInputs_skSlot (s : State) (is : List Input) : (s.setInputs is).skSlot = s.skSlot := rfl
@[simp] theorem State.setInputs_slotA (s : State) (is : List Input) : (s.setInputs is).slotA = s.slotA := rfl
@[simp] theorem State.setInputs_slotB (s : State) (is : List Input) : (s.setInputs is).slotB = s.slotB := rfl
@[simp] theorem State.setInputs_slotC (s : State) (is : List Input) : (s.setInputs is).slotC = s.slotC := rfl
@[simp] theorem State.setInputs_din (s : State) (is : List Input) : (s.setInputs is).din = s.din := rfl
@[simp] theorem State.setInputs_dout (s : State) (is : List Input) : (s.setInputs is).dout = s.dout := rfl
@[simp] theorem State.setInputs_buf (s : State) (is : List Input) : (s.setInputs is).buf = s.buf := rfl
@[simp] theorem State.setInputs_eng (s : State) (is : List Input) : (s.setInputs is).eng = s.eng := rfl
@[simp] theorem State.setInputs_resp (s : State) (is : List Input) : (s.setInputs is).resp = s.resp := rfl
@[simp] theorem State.setInputs_inputs (s : State) (is : List Input) : (s.setInputs is).inputs = is := rfl
@[simp] theorem State.setInputs_resets (s : State) (is : List Input) : (s.setInputs is).resets = s.resets := rfl
@[simp] theorem State.setInputs_draws (s : State) (is : List Input) : (s.setInputs is).draws = s.draws := rfl

/-! ### `State.countDraw` -/

@[simp] theorem State.countDraw_done (s : State) : s.countDraw.done = s.done := rfl
@[simp] theorem State.countDraw_werr (s : State) : s.countDraw.werr = s.werr := rfl
@[simp] theorem State.countDraw_errCode (s : State) : s.countDraw.errCode = s.errCode := rfl
@[simp] theorem State.countDraw_doneIe (s : State) : s.countDraw.doneIe = s.doneIe := rfl
@[simp] theorem State.countDraw_werrIe (s : State) : s.countDraw.werrIe = s.werrIe := rfl
@[simp] theorem State.countDraw_length (s : State) : s.countDraw.length = s.length := rfl
@[simp] theorem State.countDraw_skRound (s : State) : s.countDraw.skRound = s.skRound := rfl
@[simp] theorem State.countDraw_skSlot (s : State) : s.countDraw.skSlot = s.skSlot := rfl
@[simp] theorem State.countDraw_slotA (s : State) : s.countDraw.slotA = s.slotA := rfl
@[simp] theorem State.countDraw_slotB (s : State) : s.countDraw.slotB = s.slotB := rfl
@[simp] theorem State.countDraw_slotC (s : State) : s.countDraw.slotC = s.slotC := rfl
@[simp] theorem State.countDraw_din (s : State) : s.countDraw.din = s.din := rfl
@[simp] theorem State.countDraw_dout (s : State) : s.countDraw.dout = s.dout := rfl
@[simp] theorem State.countDraw_buf (s : State) : s.countDraw.buf = s.buf := rfl
@[simp] theorem State.countDraw_eng (s : State) : s.countDraw.eng = s.eng := rfl
@[simp] theorem State.countDraw_resp (s : State) : s.countDraw.resp = s.resp := rfl
@[simp] theorem State.countDraw_inputs (s : State) : s.countDraw.inputs = s.inputs := rfl
@[simp] theorem State.countDraw_resets (s : State) : s.countDraw.resets = s.resets := rfl
@[simp] theorem State.countDraw_draws (s : State) : s.countDraw.draws = s.draws + 1 := rfl

/-! ### `State.writeByte` -/

@[simp] theorem State.writeByte_done (s : State) (i : Nat) (v : Byte) : (s.writeByte i v).done = s.done := rfl
@[simp] theorem State.writeByte_werr (s : State) (i : Nat) (v : Byte) : (s.writeByte i v).werr = s.werr := rfl
@[simp] theorem State.writeByte_errCode (s : State) (i : Nat) (v : Byte) : (s.writeByte i v).errCode = s.errCode := rfl
@[simp] theorem State.writeByte_doneIe (s : State) (i : Nat) (v : Byte) : (s.writeByte i v).doneIe = s.doneIe := rfl
@[simp] theorem State.writeByte_werrIe (s : State) (i : Nat) (v : Byte) : (s.writeByte i v).werrIe = s.werrIe := rfl
@[simp] theorem State.writeByte_length (s : State) (i : Nat) (v : Byte) : (s.writeByte i v).length = s.length := rfl
@[simp] theorem State.writeByte_skRound (s : State) (i : Nat) (v : Byte) : (s.writeByte i v).skRound = s.skRound := rfl
@[simp] theorem State.writeByte_skSlot (s : State) (i : Nat) (v : Byte) : (s.writeByte i v).skSlot = s.skSlot := rfl
@[simp] theorem State.writeByte_slotA (s : State) (i : Nat) (v : Byte) : (s.writeByte i v).slotA = s.slotA := rfl
@[simp] theorem State.writeByte_slotB (s : State) (i : Nat) (v : Byte) : (s.writeByte i v).slotB = s.slotB := rfl
@[simp] theorem State.writeByte_slotC (s : State) (i : Nat) (v : Byte) : (s.writeByte i v).slotC = s.slotC := rfl
@[simp] theorem State.writeByte_din (s : State) (i : Nat) (v : Byte) : (s.writeByte i v).din = s.din := rfl
@[simp] theorem State.writeByte_dout (s : State) (i : Nat) (v : Byte) : (s.writeByte i v).dout = s.dout := rfl
@[simp] theorem State.writeByte_buf (s : State) (i : Nat) (v : Byte) : (s.writeByte i v).buf = s.buf.store i v := rfl
@[simp] theorem State.writeByte_eng (s : State) (i : Nat) (v : Byte) : (s.writeByte i v).eng = s.eng := rfl
@[simp] theorem State.writeByte_resp (s : State) (i : Nat) (v : Byte) : (s.writeByte i v).resp = s.resp := rfl
@[simp] theorem State.writeByte_inputs (s : State) (i : Nat) (v : Byte) : (s.writeByte i v).inputs = s.inputs := rfl
@[simp] theorem State.writeByte_resets (s : State) (i : Nat) (v : Byte) : (s.writeByte i v).resets = s.resets := rfl
@[simp] theorem State.writeByte_draws (s : State) (i : Nat) (v : Byte) : (s.writeByte i v).draws = s.draws := rfl

/-! ### `State.setLen` -/

@[simp] theorem State.setLen_done (s : State) (n : Nat) : (s.setLen n).done = s.done := rfl
@[simp] theorem State.setLen_werr (s : State) (n : Nat) : (s.setLen n).werr = s.werr := rfl
@[simp] theorem State.setLen_errCode (s : State) (n : Nat) : (s.setLen n).errCode = s.errCode := rfl
@[simp] theorem State.setLen_doneIe (s : State) (n : Nat) : (s.setLen n).doneIe = s.doneIe := rfl
@[simp] theorem State.setLen_werrIe (s : State) (n : Nat) : (s.setLen n).werrIe = s.werrIe := rfl
@[simp] theorem State.setLen_length (s : State) (n : Nat) : (s.setLen n).length = BitVec.ofNat 32 n := rfl
@[simp] theorem State.setLen_skRound (s : State) (n : Nat) : (s.setLen n).skRound = s.skRound := rfl
@[simp] theorem State.setLen_skSlot (s : State) (n : Nat) : (s.setLen n).skSlot = s.skSlot := rfl
@[simp] theorem State.setLen_slotA (s : State) (n : Nat) : (s.setLen n).slotA = s.slotA := rfl
@[simp] theorem State.setLen_slotB (s : State) (n : Nat) : (s.setLen n).slotB = s.slotB := rfl
@[simp] theorem State.setLen_slotC (s : State) (n : Nat) : (s.setLen n).slotC = s.slotC := rfl
@[simp] theorem State.setLen_din (s : State) (n : Nat) : (s.setLen n).din = s.din := rfl
@[simp] theorem State.setLen_dout (s : State) (n : Nat) : (s.setLen n).dout = s.dout := rfl
@[simp] theorem State.setLen_buf (s : State) (n : Nat) : (s.setLen n).buf = s.buf := rfl
@[simp] theorem State.setLen_eng (s : State) (n : Nat) : (s.setLen n).eng = s.eng := rfl
@[simp] theorem State.setLen_resp (s : State) (n : Nat) : (s.setLen n).resp = s.resp := rfl
@[simp] theorem State.setLen_inputs (s : State) (n : Nat) : (s.setLen n).inputs = s.inputs := rfl
@[simp] theorem State.setLen_resets (s : State) (n : Nat) : (s.setLen n).resets = s.resets := rfl
@[simp] theorem State.setLen_draws (s : State) (n : Nat) : (s.setLen n).draws = s.draws := rfl

/-! ### `State.accept` -/

@[simp] theorem State.accept_done (s : State) (w : Word) : (s.accept w).done = false := rfl
@[simp] theorem State.accept_werr (s : State) (w : Word) : (s.accept w).werr = s.werr := rfl
@[simp] theorem State.accept_errCode (s : State) (w : Word) : (s.accept w).errCode = .ok := rfl
@[simp] theorem State.accept_doneIe (s : State) (w : Word) : (s.accept w).doneIe = s.doneIe := rfl
@[simp] theorem State.accept_werrIe (s : State) (w : Word) : (s.accept w).werrIe = s.werrIe := rfl
@[simp] theorem State.accept_length (s : State) (w : Word) : (s.accept w).length = s.length := rfl
@[simp] theorem State.accept_skRound (s : State) (w : Word) : (s.accept w).skRound = s.skRound := rfl
@[simp] theorem State.accept_skSlot (s : State) (w : Word) : (s.accept w).skSlot = s.skSlot := rfl
@[simp] theorem State.accept_slotA (s : State) (w : Word) : (s.accept w).slotA = s.slotA := rfl
@[simp] theorem State.accept_slotB (s : State) (w : Word) : (s.accept w).slotB = s.slotB := rfl
@[simp] theorem State.accept_slotC (s : State) (w : Word) : (s.accept w).slotC = s.slotC := rfl
@[simp] theorem State.accept_din (s : State) (w : Word) : (s.accept w).din = s.din := rfl
@[simp] theorem State.accept_dout (s : State) (w : Word) : (s.accept w).dout = s.dout := rfl
@[simp] theorem State.accept_buf (s : State) (w : Word) : (s.accept w).buf = s.buf := rfl
@[simp] theorem State.accept_eng (s : State) (w : Word) : (s.accept w).eng = .run (decodeCommand w) .check := rfl
@[simp] theorem State.accept_resp (s : State) (w : Word) : (s.accept w).resp = s.resp := rfl
@[simp] theorem State.accept_inputs (s : State) (w : Word) : (s.accept w).inputs = s.inputs := rfl
@[simp] theorem State.accept_resets (s : State) (w : Word) : (s.accept w).resets = s.resets := rfl
@[simp] theorem State.accept_draws (s : State) (w : Word) : (s.accept w).draws = s.draws := rfl

/-! ### `State.complete` -/

@[simp] theorem State.complete_done (s : State) (c : ErrCode) : (s.complete c).done = true := rfl
@[simp] theorem State.complete_werr (s : State) (c : ErrCode) : (s.complete c).werr = s.werr := rfl
@[simp] theorem State.complete_errCode (s : State) (c : ErrCode) : (s.complete c).errCode = c := rfl
@[simp] theorem State.complete_doneIe (s : State) (c : ErrCode) : (s.complete c).doneIe = s.doneIe := rfl
@[simp] theorem State.complete_werrIe (s : State) (c : ErrCode) : (s.complete c).werrIe = s.werrIe := rfl
@[simp] theorem State.complete_length (s : State) (c : ErrCode) : (s.complete c).length = s.length := rfl
@[simp] theorem State.complete_skRound (s : State) (c : ErrCode) : (s.complete c).skRound = s.skRound := rfl
@[simp] theorem State.complete_skSlot (s : State) (c : ErrCode) : (s.complete c).skSlot = s.skSlot := rfl
@[simp] theorem State.complete_slotA (s : State) (c : ErrCode) : (s.complete c).slotA = s.slotA := rfl
@[simp] theorem State.complete_slotB (s : State) (c : ErrCode) : (s.complete c).slotB = s.slotB := rfl
@[simp] theorem State.complete_slotC (s : State) (c : ErrCode) : (s.complete c).slotC = s.slotC := rfl
@[simp] theorem State.complete_din (s : State) (c : ErrCode) : (s.complete c).din = s.din := rfl
@[simp] theorem State.complete_dout (s : State) (c : ErrCode) : (s.complete c).dout = s.dout := rfl
@[simp] theorem State.complete_buf (s : State) (c : ErrCode) : (s.complete c).buf = s.buf := rfl
@[simp] theorem State.complete_eng (s : State) (c : ErrCode) : (s.complete c).eng = .idle := rfl
@[simp] theorem State.complete_resp (s : State) (c : ErrCode) : (s.complete c).resp = s.resp := rfl
@[simp] theorem State.complete_inputs (s : State) (c : ErrCode) : (s.complete c).inputs = s.inputs := rfl
@[simp] theorem State.complete_resets (s : State) (c : ErrCode) : (s.complete c).resets = s.resets := rfl
@[simp] theorem State.complete_draws (s : State) (c : ErrCode) : (s.complete c).draws = s.draws := rfl

/-! ### `State.goTo` -/

@[simp] theorem State.goTo_done (s : State) (i : Instr) (p : Phase) : (s.goTo i p).done = s.done := rfl
@[simp] theorem State.goTo_werr (s : State) (i : Instr) (p : Phase) : (s.goTo i p).werr = s.werr := rfl
@[simp] theorem State.goTo_errCode (s : State) (i : Instr) (p : Phase) : (s.goTo i p).errCode = s.errCode := rfl
@[simp] theorem State.goTo_doneIe (s : State) (i : Instr) (p : Phase) : (s.goTo i p).doneIe = s.doneIe := rfl
@[simp] theorem State.goTo_werrIe (s : State) (i : Instr) (p : Phase) : (s.goTo i p).werrIe = s.werrIe := rfl
@[simp] theorem State.goTo_length (s : State) (i : Instr) (p : Phase) : (s.goTo i p).length = s.length := rfl
@[simp] theorem State.goTo_skRound (s : State) (i : Instr) (p : Phase) : (s.goTo i p).skRound = s.skRound := rfl
@[simp] theorem State.goTo_skSlot (s : State) (i : Instr) (p : Phase) : (s.goTo i p).skSlot = s.skSlot := rfl
@[simp] theorem State.goTo_slotA (s : State) (i : Instr) (p : Phase) : (s.goTo i p).slotA = s.slotA := rfl
@[simp] theorem State.goTo_slotB (s : State) (i : Instr) (p : Phase) : (s.goTo i p).slotB = s.slotB := rfl
@[simp] theorem State.goTo_slotC (s : State) (i : Instr) (p : Phase) : (s.goTo i p).slotC = s.slotC := rfl
@[simp] theorem State.goTo_din (s : State) (i : Instr) (p : Phase) : (s.goTo i p).din = s.din := rfl
@[simp] theorem State.goTo_dout (s : State) (i : Instr) (p : Phase) : (s.goTo i p).dout = s.dout := rfl
@[simp] theorem State.goTo_buf (s : State) (i : Instr) (p : Phase) : (s.goTo i p).buf = s.buf := rfl
@[simp] theorem State.goTo_eng (s : State) (i : Instr) (p : Phase) : (s.goTo i p).eng = .run (.op i) p := rfl
@[simp] theorem State.goTo_resp (s : State) (i : Instr) (p : Phase) : (s.goTo i p).resp = s.resp := rfl
@[simp] theorem State.goTo_inputs (s : State) (i : Instr) (p : Phase) : (s.goTo i p).inputs = s.inputs := rfl
@[simp] theorem State.goTo_resets (s : State) (i : Instr) (p : Phase) : (s.goTo i p).resets = s.resets := rfl
@[simp] theorem State.goTo_draws (s : State) (i : Instr) (p : Phase) : (s.goTo i p).draws = s.draws := rfl

/-! ### `State.loadKeys` -/

@[simp] theorem State.loadKeys_done (s : State) : s.loadKeys.done = s.done := rfl
@[simp] theorem State.loadKeys_werr (s : State) : s.loadKeys.werr = s.werr := rfl
@[simp] theorem State.loadKeys_errCode (s : State) : s.loadKeys.errCode = s.errCode := rfl
@[simp] theorem State.loadKeys_doneIe (s : State) : s.loadKeys.doneIe = s.doneIe := rfl
@[simp] theorem State.loadKeys_werrIe (s : State) : s.loadKeys.werrIe = s.werrIe := rfl
@[simp] theorem State.loadKeys_length (s : State) : s.loadKeys.length = s.length := rfl
@[simp] theorem State.loadKeys_skRound (s : State) : s.loadKeys.skRound = s.skRound := rfl
@[simp] theorem State.loadKeys_skSlot (s : State) : s.loadKeys.skSlot = s.skSlot := rfl
@[simp] theorem State.loadKeys_slotA (s : State) : s.loadKeys.slotA = s.slotFromFile 0 := rfl
@[simp] theorem State.loadKeys_slotB (s : State) : s.loadKeys.slotB = s.slotFromFile 7 := rfl
@[simp] theorem State.loadKeys_slotC (s : State) : s.loadKeys.slotC = s.slotFromFile 14 := rfl
@[simp] theorem State.loadKeys_din (s : State) : s.loadKeys.din = s.din := rfl
@[simp] theorem State.loadKeys_dout (s : State) : s.loadKeys.dout = s.dout := rfl
@[simp] theorem State.loadKeys_buf (s : State) : s.loadKeys.buf = s.buf := rfl
@[simp] theorem State.loadKeys_eng (s : State) : s.loadKeys.eng = s.eng := rfl
@[simp] theorem State.loadKeys_resp (s : State) : s.loadKeys.resp = s.resp := rfl
@[simp] theorem State.loadKeys_inputs (s : State) : s.loadKeys.inputs = s.inputs := rfl
@[simp] theorem State.loadKeys_resets (s : State) : s.loadKeys.resets = s.resets := rfl
@[simp] theorem State.loadKeys_draws (s : State) : s.loadKeys.draws = s.draws := rfl

/-! ### `State.setSlot` -/

@[simp] theorem State.setSlot_done (s : State) (k : Slot) (v : KeySlot) : (s.setSlot k v).done = s.done := by
  cases k <;> rfl
@[simp] theorem State.setSlot_werr (s : State) (k : Slot) (v : KeySlot) : (s.setSlot k v).werr = s.werr := by
  cases k <;> rfl
@[simp] theorem State.setSlot_errCode (s : State) (k : Slot) (v : KeySlot) : (s.setSlot k v).errCode = s.errCode := by
  cases k <;> rfl
@[simp] theorem State.setSlot_doneIe (s : State) (k : Slot) (v : KeySlot) : (s.setSlot k v).doneIe = s.doneIe := by
  cases k <;> rfl
@[simp] theorem State.setSlot_werrIe (s : State) (k : Slot) (v : KeySlot) : (s.setSlot k v).werrIe = s.werrIe := by
  cases k <;> rfl
@[simp] theorem State.setSlot_length (s : State) (k : Slot) (v : KeySlot) : (s.setSlot k v).length = s.length := by
  cases k <;> rfl
@[simp] theorem State.setSlot_skRound (s : State) (k : Slot) (v : KeySlot) : (s.setSlot k v).skRound = s.skRound := by
  cases k <;> rfl
@[simp] theorem State.setSlot_skSlot (s : State) (k : Slot) (v : KeySlot) : (s.setSlot k v).skSlot = s.skSlot := by
  cases k <;> rfl
@[simp] theorem State.setSlot_din (s : State) (k : Slot) (v : KeySlot) : (s.setSlot k v).din = s.din := by
  cases k <;> rfl
@[simp] theorem State.setSlot_dout (s : State) (k : Slot) (v : KeySlot) : (s.setSlot k v).dout = s.dout := by
  cases k <;> rfl
@[simp] theorem State.setSlot_buf (s : State) (k : Slot) (v : KeySlot) : (s.setSlot k v).buf = s.buf := by
  cases k <;> rfl
@[simp] theorem State.setSlot_eng (s : State) (k : Slot) (v : KeySlot) : (s.setSlot k v).eng = s.eng := by
  cases k <;> rfl
@[simp] theorem State.setSlot_resp (s : State) (k : Slot) (v : KeySlot) : (s.setSlot k v).resp = s.resp := by
  cases k <;> rfl
@[simp] theorem State.setSlot_inputs (s : State) (k : Slot) (v : KeySlot) : (s.setSlot k v).inputs = s.inputs := by
  cases k <;> rfl
@[simp] theorem State.setSlot_resets (s : State) (k : Slot) (v : KeySlot) : (s.setSlot k v).resets = s.resets := by
  cases k <;> rfl
@[simp] theorem State.setSlot_draws (s : State) (k : Slot) (v : KeySlot) : (s.setSlot k v).draws = s.draws := by
  cases k <;> rfl

@[simp] theorem State.slot_setSlot_same (s : State) (k : Slot) (v : KeySlot) : (s.setSlot k v).slot k = v := by
  cases k <;> rfl

theorem State.slot_setSlot_ne (s : State) {k j : Slot} (h : k ≠ j) (v : KeySlot) :
    (s.setSlot k v).slot j = s.slot j := by
  cases k <;> cases j <;> first | rfl | exact absurd rfl h

/-! ### The slots read as fields -/

@[simp] theorem State.slot_a (s : State) : s.slot .a = s.slotA := rfl
@[simp] theorem State.slot_b (s : State) : s.slot .b = s.slotB := rfl
@[simp] theorem State.slot_c (s : State) : s.slot .c = s.slotC := rfl

/-! ### `State.takeReset` -/

@[simp] theorem State.takeReset_inputs (s : State) : s.takeReset.inputs = s.inputs := rfl
@[simp] theorem State.takeReset_draws (s : State) : s.takeReset.draws = s.draws := rfl
@[simp] theorem State.takeReset_resets (s : State) : s.takeReset.resets = s.resets + 1 := rfl
@[simp] theorem State.takeReset_buf (s : State) : s.takeReset.buf = [] := rfl
@[simp] theorem State.takeReset_eng (s : State) : s.takeReset.eng = .idle := rfl

end Sys2Proof.Machine
end

