-- ==== Sys2Proof/Laws/Memory.lean ====
section
/-! SUPPORT. The laws of BUF as a list of cells: read after write, every operation keeps the canonical form, and two lists in
canonical form that say the same of every byte are the same list. -/

namespace Sys2Proof.Machine

@[simp] theorem Memory.lookup_nil (i : Nat) : Memory.lookup [] i = none := rfl

theorem Memory.lookup_store_same (m : Memory) (i : Nat) (v : Byte) : (m.store i v).lookup i = some v := by
  induction m with
  | nil => simp [Memory.store, Memory.lookup]
  | cons c m ih =>
    obtain ⟨j, w⟩ := c
    simp only [Memory.store]
    split
    · simp [Memory.lookup]
    · split
      · simp [Memory.lookup]
      · rename_i h
        simp [Memory.lookup, Ne.symm h, ih]

theorem Memory.lookup_store_ne (m : Memory) {i k : Nat} (h : k ≠ i) (v : Byte) :
    (m.store i v).lookup k = m.lookup k := by
  induction m with
  | nil => simp [Memory.store, Memory.lookup, h.symm]
  | cons c m ih =>
    obtain ⟨j, w⟩ := c
    simp only [Memory.store]
    split
    · simp [Memory.lookup, h.symm]
    · split
      · rename_i hij
        subst hij
        simp [Memory.lookup, h.symm]
      · simp only [Memory.lookup, ih]

theorem Memory.mem_store {m : Memory} {i : Nat} {v : Byte} {c : Host.Cell} (h : c ∈ m.store i v) :
    c = (i, v) ∨ c ∈ m := by
  induction m with
  | nil => simpa [Memory.store] using h
  | cons d m ih =>
    obtain ⟨j, w⟩ := d
    simp only [Memory.store] at h
    split at h
    · simpa using h
    · split at h
      · rcases List.mem_cons.1 h with h | h
        · exact .inl h
        · exact .inr (List.mem_cons_of_mem _ h)
      · rcases List.mem_cons.1 h with h | h
        · exact .inr (h ▸ List.mem_cons_self)
        · exact (ih h).imp_right (List.mem_cons_of_mem _)

/-- Every write inside BUF keeps the canonical form. -/
theorem Memory.store_wf {m : Memory} (h : m.wf) {i : Nat} (hi : i < bufBytes) (v : Byte) : (m.store i v).wf := by
  refine ⟨?_, fun c hc => ?_⟩
  · have hp := h.1
    clear h
    induction m with
    | nil => simp [Memory.store]
    | cons d m ih =>
      obtain ⟨j, w⟩ := d
      have hd := List.pairwise_cons.1 hp
      simp only [Memory.store]
      split
      · rename_i hij
        refine List.pairwise_cons.2 ⟨fun c hc => ?_, hp⟩
        rcases List.mem_cons.1 hc with rfl | hc
        · exact hij
        · exact Nat.lt_trans hij (hd.1 c hc)
      · split
        · rename_i hij
          subst hij
          exact List.pairwise_cons.2 ⟨fun c hc => hd.1 c hc, hd.2⟩
        · refine List.pairwise_cons.2 ⟨fun c hc => ?_, ih hd.2⟩
          rcases Memory.mem_store hc with rfl | hc
          · simp only; omega
          · exact hd.1 c hc
  · rcases Memory.mem_store hc with rfl | hc
    · exact hi
    · exact h.2 c hc

theorem Memory.wf_nil : Memory.wf [] := ⟨List.Pairwise.nil, by simp⟩

theorem Memory.lookup_of_below {m : Memory} {i : Nat} (h : ∀ c ∈ m, i < c.1) : m.lookup i = none := by
  induction m with
  | nil => rfl
  | cons c m ih =>
    obtain ⟨j, w⟩ := c
    have hj : i < j := h _ List.mem_cons_self
    simp [Memory.lookup, Nat.ne_of_gt hj, ih fun c hc => h c (List.mem_cons_of_mem _ hc)]

/-- Equal memories are equal data: two canonical lists that agree on every byte are equal. -/
theorem Memory.ext_of_lookup {m n : Memory} (hm : m.wf) (hn : n.wf) (h : ∀ i, m.lookup i = n.lookup i) : m = n := by
  have key : ∀ {m n : Memory}, m.Pairwise (fun x y => x.1 < y.1) → n.Pairwise (fun x y => x.1 < y.1) →
      (∀ i, m.lookup i = n.lookup i) → m = n := by
    intro m
    induction m with
    | nil =>
      intro n _ _ h
      cases n with
      | nil => rfl
      | cons c n => simpa [Memory.lookup] using h c.1
    | cons c m ih =>
      intro n hm hn h
      cases n with
      | nil => simpa [Memory.lookup] using h c.1
      | cons d n =>
        obtain ⟨i, v⟩ := c
        obtain ⟨j, w⟩ := d
        have hm' := List.pairwise_cons.1 hm
        have hn' := List.pairwise_cons.1 hn
        have hij : i = j := by
          rcases Nat.lt_trichotomy i j with hlt | heq | hgt
          · have := h i
            simp [Memory.lookup, Nat.ne_of_gt hlt,
              Memory.lookup_of_below (m := n) (i := i) fun c hc => Nat.lt_trans hlt (hn'.1 c hc)] at this
          · exact heq
          · have := h j
            simp [Memory.lookup, Nat.ne_of_gt hgt,
              Memory.lookup_of_below (m := m) (i := j) fun c hc => Nat.lt_trans hgt (hm'.1 c hc)] at this
        subst hij
        have hv : v = w := by simpa [Memory.lookup] using h i
        subst hv
        refine congrArg _ (ih hm'.2 hn'.2 fun k => ?_)
        rcases Nat.lt_or_ge i k with hk | hk
        · simpa [Memory.lookup, Nat.ne_of_lt hk] using h k
        · rw [Memory.lookup_of_below fun c hc => Nat.lt_of_le_of_lt hk (hm'.1 c hc),
            Memory.lookup_of_below fun c hc => Nat.lt_of_le_of_lt hk (hn'.1 c hc)]
  exact key hm.1 hn.1 h

/-- BUF_BYTES is one of the sizes that 00 R9 admits. -/
theorem bufBytes_admitted : bufBytes % 8 = 0 ∧ 24 ≤ bufBytes ∧ bufBytes ≤ 61440 := by
  unfold bufBytes
  have := Nat.mod_lt Config.bufBlocksRaw (show 0 < 7678 by decide)
  omega

/-! ### One byte of BUF -/

@[simp] theorem State.readByte_writeByte_same (s : State) (i : Nat) (v : Byte) :
    (s.writeByte i v).readByte i = v := by
  simp [State.readByte, Memory.lookup_store_same]

theorem State.readByte_writeByte_ne (s : State) {i k : Nat} (h : k ≠ i) (v : Byte) :
    (s.writeByte i v).readByte k = s.readByte k := by
  simp [State.readByte, Memory.lookup_store_ne _ h]

theorem State.readByte_congr {s t : State} (hb : s.buf = t.buf) (hr : s.resets = t.resets) (i : Nat) :
    s.readByte i = t.readByte i := by
  simp [State.readByte, hb, hr]

end Sys2Proof.Machine
end

