-- ==== Sys2Proof/Laws/Bytes.lean ====
section
/-! SUPPORT. What the buffer operations do: MemWrite, fill, one block of a pass and the passes change BUF alone, and each has
one lemma that says what every byte reads as afterwards. -/

namespace Sys2Proof.Machine

/-! ### They change BUF alone -/

@[simp] theorem State.setBuf_setBuf (s : State) (m n : Memory) : (s.setBuf m).setBuf n = s.setBuf n := rfl
@[simp] theorem State.setBuf_self (s : State) : s.setBuf s.buf = s := rfl
@[simp] theorem State.slot_setBuf (s : State) (m : Memory) (k : Slot) : (s.setBuf m).slot k = s.slot k := by
  cases k <;> rfl

theorem State.foldl_writeByte_eq {α : Type} (f : α → Nat) (g : α → Byte) (l : List α) (s : State) :
    l.foldl (fun t a => t.writeByte (f a) (g a)) s =
      s.setBuf (l.foldl (fun t a => t.writeByte (f a) (g a)) s).buf := by
  induction l generalizing s with
  | nil => rfl
  | cons a l ih =>
    simp only [List.foldl_cons]
    rw [ih]
    rfl

theorem State.memWrite_eq (s : State) (i n : Nat) (v : BitVec (8 * n)) :
    s.memWrite i n v = s.setBuf (s.memWrite i n v).buf :=
  State.foldl_writeByte_eq _ _ _ s

theorem State.fill_eq (s : State) (i n : Nat) (v : Byte) : s.fill i n v = s.setBuf (s.fill i n v).buf :=
  State.foldl_writeByte_eq _ _ _ s

theorem State.writeBlock_eq (s : State) (j : Nat) (v : Block) :
    s.writeBlock j v = s.setBuf (s.writeBlock j v).buf :=
  s.memWrite_eq _ _ _

theorem State.passBlock_eq (s : State) (p : Dir × Slot) (j : Nat) :
    s.passBlock p j = s.setBuf (s.passBlock p j).buf :=
  s.writeBlock_eq _ _

@[simp] theorem State.runPass_nil (s : State) (p : Dir × Slot) : s.runPass p [] = s := rfl

theorem State.runPass_cons (s : State) (p : Dir × Slot) (j : Nat) (js : List Nat) :
    s.runPass p (j :: js) = (s.passBlock p j).runPass p js := by
  simp only [State.runPass, List.foldl_cons]

theorem State.runPass_append (s : State) (p : Dir × Slot) (js ks : List Nat) :
    s.runPass p (js ++ ks) = (s.runPass p js).runPass p ks := by
  simp only [State.runPass, List.foldl_append]

theorem State.runPass_eq (s : State) (p : Dir × Slot) (js : List Nat) :
    s.runPass p js = s.setBuf (s.runPass p js).buf := by
  induction js generalizing s with
  | nil => rfl
  | cons j js ih =>
    rw [State.runPass_cons, ih, State.passBlock_eq s p j, State.setBuf_setBuf, ← State.passBlock_eq,
      State.setBuf_buf]

theorem State.threePasses_eq (s : State) (plan : PassNo → Dir × Slot) :
    s.threePasses plan = s.setBuf (s.threePasses plan).buf := by
  unfold State.threePasses
  rw [State.runPass_eq, State.runPass_eq (s.runPass _ _) (plan .second), State.runPass_eq s (plan .first)]
  simp only [State.setBuf_setBuf, State.setBuf_buf]

@[simp] theorem State.memWrite_resets (s : State) (i n : Nat) (v : BitVec (8 * n)) :
    (s.memWrite i n v).resets = s.resets := by rw [State.memWrite_eq]; simp
@[simp] theorem State.fill_resets (s : State) (i n : Nat) (v : Byte) : (s.fill i n v).resets = s.resets := by
  rw [State.fill_eq]; simp
@[simp] theorem State.passBlock_slot (s : State) (p : Dir × Slot) (j : Nat) (k : Slot) :
    (s.passBlock p j).slot k = s.slot k := by rw [State.passBlock_eq]; simp
@[simp] theorem State.passBlock_sched (s : State) (p : Dir × Slot) (j : Nat) (k : Slot) :
    (s.passBlock p j).sched k = s.sched k := by simp [State.sched, State.key]
@[simp] theorem State.passBlock_length (s : State) (p : Dir × Slot) (j : Nat) :
    (s.passBlock p j).length = s.length := by rw [State.passBlock_eq]; simp
@[simp] theorem State.runPass_slot (s : State) (p : Dir × Slot) (js : List Nat) (k : Slot) :
    (s.runPass p js).slot k = s.slot k := by rw [State.runPass_eq]; simp
@[simp] theorem State.runPass_sched (s : State) (p : Dir × Slot) (js : List Nat) (k : Slot) :
    (s.runPass p js).sched k = s.sched k := by simp [State.sched, State.key]
@[simp] theorem State.runPass_length (s : State) (p : Dir × Slot) (js : List Nat) :
    (s.runPass p js).length = s.length := by rw [State.runPass_eq]; simp
@[simp] theorem State.threePasses_slot (s : State) (plan : PassNo → Dir × Slot) (k : Slot) :
    (s.threePasses plan).slot k = s.slot k := by rw [State.threePasses_eq]; simp
@[simp] theorem State.threePasses_length (s : State) (plan : PassNo → Dir × Slot) :
    (s.threePasses plan).length = s.length := by rw [State.threePasses_eq]; simp

/-! ### What every byte reads as afterwards -/

theorem State.readByte_foldl_range (g : Nat → Byte) (s : State) (i n k : Nat) :
    ((List.range n).foldl (fun t a => t.writeByte (i + a) (g a)) s).readByte k =
      if i ≤ k ∧ k < i + n then g (k - i) else s.readByte k := by
  induction n with
  | zero => simp
  | succ n ih =>
    rw [List.range_succ, List.foldl_append, List.foldl_cons, List.foldl_nil]
    by_cases hk : k = i + n
    · subst hk
      simp
    · rw [State.readByte_writeByte_ne _ hk, ih]
      by_cases h : i ≤ k ∧ k < i + n
      · rw [if_pos h, if_pos (by omega)]
      · rw [if_neg h, if_neg (by omega)]

/-- MemWrite(i, n, v): byte i+m of BUF is v[8(n-m)-1 : 8(n-m)-8], every other byte is as before (20 R53). -/
theorem State.readByte_memWrite (s : State) (i n : Nat) (v : BitVec (8 * n)) (k : Nat) :
    (s.memWrite i n v).readByte k =
      if i ≤ k ∧ k < i + n then v.extractLsb' (8 * (n - (k - i)) - 8) 8 else s.readByte k :=
  State.readByte_foldl_range (fun a => v.extractLsb' (8 * (n - a) - 8) 8) s i n k

/-- fill: bytes i to i+n-1 are v, every other byte is as before. -/
theorem State.readByte_fill (s : State) (i n : Nat) (v : Byte) (k : Nat) :
    (s.fill i n v).readByte k = if i ≤ k ∧ k < i + n then v else s.readByte k :=
  State.readByte_foldl_range (fun _ => v) s i n k

/-- MemRead depends on the bytes it names alone. -/
theorem State.memRead_congr {s t : State} {i n : Nat} (h : ∀ k, i ≤ k → k < i + n → s.readByte k = t.readByte k) :
    s.memRead i n = t.memRead i n := by
  induction n with
  | zero => rfl
  | succ n ih =>
    simp only [State.memRead]
    rw [ih fun k h1 h2 => h k h1 (by omega), h (i + n) (by omega) (by omega)]

/-- MemRead(i, n), bit by bit: bit b belongs to byte i+n-1-b/8 (20 R53). -/
theorem State.getLsbD_memRead (s : State) (i n b : Nat) (hb : b < 8 * n) :
    (s.memRead i n).getLsbD b = (s.readByte (i + (n - 1 - b / 8))).getLsbD (b % 8) := by
  induction n generalizing b with
  | zero => omega
  | succ n ih =>
    simp only [State.memRead]
    rw [BitVec.getLsbD_append]
    by_cases h : b < 8
    · rw [if_pos h, Nat.div_eq_of_lt h, Nat.mod_eq_of_lt h]
      rfl
    · rw [if_neg h, ih (b - 8) (by omega)]
      have h1 : i + (n - 1 - (b - 8) / 8) = i + (n + 1 - 1 - b / 8) := by omega
      have h2 : (b - 8) % 8 = b % 8 := by omega
      rw [h1, h2]

/-- MemRead after a MemWrite of the same bytes gives the value written. -/
theorem State.memRead_memWrite_same (s : State) (i n : Nat) (v : BitVec (8 * n)) :
    (s.memWrite i n v).memRead i n = v := by
  apply BitVec.eq_of_getLsbD_eq
  intro b hb
  rw [State.getLsbD_memRead _ _ _ _ hb, State.readByte_memWrite, if_pos (by omega)]
  rw [BitVec.getLsbD_extractLsb']
  have h8 : b % 8 < 8 := Nat.mod_lt _ (by decide)
  have h : 8 * (n - (i + (n - 1 - b / 8) - i)) - 8 + b % 8 = b := by omega
  rw [h]
  simp [h8]

theorem State.memRead_memWrite_disjoint (s : State) {i n : Nat} (v : BitVec (8 * n)) {j m : Nat}
    (h : j + m ≤ i ∨ i + n ≤ j) : (s.memWrite i n v).memRead j m = s.memRead j m := by
  apply State.memRead_congr
  intro k h1 h2
  rw [State.readByte_memWrite, if_neg (by omega)]

@[simp] theorem State.readBlock_writeBlock_same (s : State) (j : Nat) (v : Block) :
    (s.writeBlock j v).readBlock j = v :=
  s.memRead_memWrite_same (8 * j) 8 v

theorem State.readBlock_writeBlock_ne (s : State) {j k : Nat} (h : k ≠ j) (v : Block) :
    (s.writeBlock j v).readBlock k = s.readBlock k :=
  State.memRead_memWrite_disjoint (i := 8 * j) (n := 8) s v (j := 8 * k) (m := 8) (by omega)

theorem State.readByte_writeBlock_outside (s : State) (j : Nat) (v : Block) (k : Nat) (h : k / 8 ≠ j) :
    (s.writeBlock j v).readByte k = s.readByte k := by
  unfold State.writeBlock
  rw [State.readByte_memWrite, if_neg (by omega)]

/-- One block of a pass: block j is transformed, every other block is as before (44 R184). -/
theorem State.readBlock_passBlock (s : State) (p : Dir × Slot) (j k : Nat) :
    (s.passBlock p j).readBlock k =
      if k = j then des (s.readBlock j) (s.sched p.2) p.1 else s.readBlock k := by
  unfold State.passBlock
  split
  · next h => rw [h, State.readBlock_writeBlock_same]
  · next h => rw [State.readBlock_writeBlock_ne _ h]

/-- One pass over a list of blocks without repeats: each of them is transformed once, the others are as before,
whatever the order (44 R186). -/
theorem State.readBlock_runPass (s : State) (p : Dir × Slot) (js : List Nat) (hj : js.Nodup) (k : Nat) :
    (s.runPass p js).readBlock k =
      if k ∈ js then des (s.readBlock k) (s.sched p.2) p.1 else s.readBlock k := by
  induction js generalizing s with
  | nil => simp [State.runPass]
  | cons j js ih =>
    have hn := List.nodup_cons.1 hj
    rw [State.runPass_cons, ih _ hn.2, State.readBlock_passBlock, State.passBlock_sched]
    by_cases hkj : k = j
    · subst hkj
      simp [hn.1]
    · simp [hkj]

/-- Bytes outside the blocks of a pass are as before. -/
theorem State.readByte_runPass (s : State) (p : Dir × Slot) (js : List Nat) (k : Nat) (h : k / 8 ∉ js) :
    (s.runPass p js).readByte k = s.readByte k := by
  induction js generalizing s with
  | nil => rfl
  | cons j js ih =>
    rw [State.runPass_cons, ih _ fun hk => h (List.mem_cons_of_mem _ hk)]
    have hj : k / 8 ≠ j := fun hk => h (hk ▸ List.mem_cons_self)
    exact s.readByte_writeBlock_outside j _ k hj

/-! ### They keep the canonical form -/

theorem State.foldl_range_wf (g : Nat → Byte) (s : State) (i n : Nat) (h : s.buf.wf) (hi : i + n ≤ bufBytes) :
    ((List.range n).foldl (fun t a => t.writeByte (i + a) (g a)) s).buf.wf := by
  induction n with
  | zero => simpa using h
  | succ n ih =>
    rw [List.range_succ, List.foldl_append, List.foldl_cons, List.foldl_nil, State.writeByte_buf]
    exact Memory.store_wf (ih (by omega)) (by omega) _

theorem State.memWrite_wf (s : State) (i n : Nat) (v : BitVec (8 * n)) (h : s.buf.wf) (hi : i + n ≤ bufBytes) :
    (s.memWrite i n v).buf.wf :=
  State.foldl_range_wf _ s i n h hi

theorem State.fill_wf (s : State) (i n : Nat) (v : Byte) (h : s.buf.wf) (hi : i + n ≤ bufBytes) :
    (s.fill i n v).buf.wf :=
  State.foldl_range_wf _ s i n h hi

theorem State.passBlock_wf (s : State) (p : Dir × Slot) (j : Nat) (h : s.buf.wf) (hj : 8 * j + 8 ≤ bufBytes) :
    (s.passBlock p j).buf.wf := by
  unfold State.passBlock State.writeBlock
  exact State.memWrite_wf s (8 * j) 8 _ h hj

theorem State.runPass_wf (s : State) (p : Dir × Slot) (js : List Nat) (h : s.buf.wf)
    (hj : ∀ j ∈ js, 8 * j + 8 ≤ bufBytes) : (s.runPass p js).buf.wf := by
  induction js generalizing s with
  | nil => exact h
  | cons j js ih =>
    rw [State.runPass_cons]
    exact ih (s.passBlock p j) (s.passBlock_wf p j h (hj j List.mem_cons_self))
      fun k hk => hj k (List.mem_cons_of_mem _ hk)

/-! ### The cells after a write, and writes that commute -/

theorem State.lookup_foldl_range (g : Nat → Byte) (s : State) (i n k : Nat) :
    ((List.range n).foldl (fun t a => t.writeByte (i + a) (g a)) s).buf.lookup k =
      if i ≤ k ∧ k < i + n then some (g (k - i)) else s.buf.lookup k := by
  induction n with
  | zero =>
    rw [if_neg (by omega)]
    rfl
  | succ n ih =>
    rw [List.range_succ, List.foldl_append, List.foldl_cons, List.foldl_nil, State.writeByte_buf]
    by_cases hk : k = i + n
    · subst hk
      rw [Memory.lookup_store_same, if_pos (by omega)]
      simp
    · rw [Memory.lookup_store_ne _ hk, ih]
      by_cases h : i ≤ k ∧ k < i + n
      · rw [if_pos h, if_pos (by omega)]
      · rw [if_neg h, if_neg (by omega)]

/-- What the cells say after a MemWrite. -/
theorem State.lookup_memWrite (s : State) (i n : Nat) (v : BitVec (8 * n)) (k : Nat) :
    (s.memWrite i n v).buf.lookup k =
      if i ≤ k ∧ k < i + n then some (v.extractLsb' (8 * (n - (k - i)) - 8) 8) else s.buf.lookup k :=
  State.lookup_foldl_range (fun a => v.extractLsb' (8 * (n - a) - 8) 8) s i n k

/-- Two MemWrites to places that do not overlap can be done in either order. -/
theorem State.memWrite_comm (s : State) {i j n m : Nat} (v : BitVec (8 * n)) (w : BitVec (8 * m)) (h : s.buf.wf)
    (hi : i + n ≤ bufBytes) (hj : j + m ≤ bufBytes) (hd : i + n ≤ j ∨ j + m ≤ i) :
    (s.memWrite i n v).memWrite j m w = (s.memWrite j m w).memWrite i n v := by
  have hb : ((s.memWrite i n v).memWrite j m w).buf = ((s.memWrite j m w).memWrite i n v).buf := by
    refine Memory.ext_of_lookup (State.memWrite_wf _ _ _ _ (s.memWrite_wf _ _ _ h hi) hj)
      (State.memWrite_wf _ _ _ _ (s.memWrite_wf _ _ _ h hj) hi) fun k => ?_
    simp only [State.lookup_memWrite]
    by_cases h1 : j ≤ k ∧ k < j + m
    · rw [if_pos h1, if_neg (by omega), if_pos h1]
    · rw [if_neg h1, if_neg h1]
  rw [State.memWrite_eq (s.memWrite i n v), State.memWrite_eq (s.memWrite j m w), hb, State.memWrite_eq s i n v,
    State.memWrite_eq s j m w, State.setBuf_setBuf, State.setBuf_setBuf]

/-! ### They leave ENG alone -/

theorem State.foldl_writeByte_setEng {α : Type} (f : α → Nat) (g : α → Byte) (l : List α) (s : State) (e : Engine) :
    l.foldl (fun t a => t.writeByte (f a) (g a)) (s.setEng e) =
      (l.foldl (fun t a => t.writeByte (f a) (g a)) s).setEng e := by
  induction l generalizing s with
  | nil => rfl
  | cons a l ih => exact ih (s.writeByte (f a) (g a))

theorem State.passBlock_setEng (s : State) (p : Dir × Slot) (j : Nat) (e : Engine) :
    (s.setEng e).passBlock p j = (s.passBlock p j).setEng e := by
  have hr : (s.setEng e).readBlock j = s.readBlock j := State.memRead_congr fun _ _ _ => rfl
  have hs : (s.setEng e).sched p.2 = s.sched p.2 := by cases p with | mk d k => cases k <;> rfl
  unfold State.passBlock
  rw [hr, hs]
  exact State.foldl_writeByte_setEng _ _ _ s e

theorem State.runPass_setEng (s : State) (p : Dir × Slot) (js : List Nat) (e : Engine) :
    (s.setEng e).runPass p js = (s.runPass p js).setEng e := by
  induction js generalizing s with
  | nil => rfl
  | cons j js ih => rw [State.runPass_cons, State.runPass_cons, State.passBlock_setEng, ih]

theorem State.threePasses_setEng (s : State) (plan : PassNo → Dir × Slot) (e : Engine) :
    (s.setEng e).threePasses plan = (s.threePasses plan).setEng e := by
  unfold State.threePasses
  have : (s.setEng e).blocks = s.blocks := rfl
  rw [this, State.runPass_setEng, State.runPass_setEng, State.runPass_setEng]

end Sys2Proof.Machine
end

