-- ==== Sys2Proof/Laws/Commands.lean ====
section
/-! SUPPORT. What the shared operations of the commands do: the check list, the padding, the three passes; and that every
command answers a next state. -/

namespace Sys2Proof.Machine

/-! ### The check list (60 R302, R303) -/

theorem firstError_eq_none {checks : List (Bool × ErrCode)} :
    firstError checks = none ↔ ∀ c ∈ checks, c.1 = false := by
  induction checks with
  | nil => simp [firstError]
  | cons c cs ih =>
    obtain ⟨b, e⟩ := c
    cases b <;> simp [firstError, ih]

theorem guarded_of_pass {checks : List (Bool × ErrCode)} {body : State → State} {s : State}
    (h : firstError checks = none) : guarded checks body s = .next (body s) := by
  simp [guarded, h]

theorem guarded_of_fail {checks : List (Bool × ErrCode)} {body : State → State} {s : State} {c : ErrCode}
    (h : firstError checks = some c) : guarded checks body s = .next (s.complete c) := by
  simp [guarded, h]

/-- What a guarded command can answer: its first failing check's completion, or its body. -/
theorem guarded_cases {checks : List (Bool × ErrCode)} {body : State → State} {s t : State}
    (h : guarded checks body s = .next t) :
    (∃ c, firstError checks = some c ∧ t = s.complete c) ∨ (firstError checks = none ∧ t = body s) := by
  unfold guarded at h
  cases hc : firstError checks with
  | none => simp [hc] at h; exact .inr ⟨rfl, h.symm⟩
  | some c => simp [hc] at h; exact .inl ⟨c, rfl, h.symm⟩

/-- What a command does once its checks hold (30 R71: the rule of each). -/
def State.body (s : State) : Instr → State
  | .nop => s.complete .ok
  | .desEnc ksel => (s.putResult (s.desResult ksel .enc)).complete .ok
  | .desDec ksel => (s.putResult (s.desResult ksel .dec)).complete .ok
  | .ede3Enc => (s.setDout (s.ede3Enc s.din)).complete .ok
  | .ede3Dec => (s.setDout (s.ede3Dec s.din)).complete .ok
  | .bufEde3Enc => (s.threePasses encPass).complete .ok
  | .bufEde3Dec => (s.threePasses decPass).complete .ok
  | .pad => s.addPadding.complete .ok
  | .unpad => s.unpadEnd
  | .streamEnc => (s.addPadding.threePasses encPass).complete .ok
  | .streamDec => (s.threePasses decPass).unpadEnd
  | .ldkeys => s.loadKeys.complete .ok

/-- Every command is its check list and its body (60 R302, R303). -/
theorem exec_eq (i : Instr) (s : State) : exec i s = guarded (s.checks i) (fun t => t.body i) s := by
  cases i <;> rfl

/-- What a command can answer, and when. -/
theorem exec_cases {i : Instr} {s t : State} (h : exec i s = .next t) :
    (∃ c, firstError (s.checks i) = some c ∧ t = s.complete c) ∨
      (firstError (s.checks i) = none ∧ t = s.body i) := by
  rw [exec_eq] at h
  exact guarded_cases h

/-- A command whose checks all hold runs its body. -/
theorem exec_of_pass {i : Instr} {s : State} (h : firstError (s.checks i) = none) : exec i s = .next (s.body i) := by
  rw [exec_eq]
  exact guarded_of_pass h

/-- A command whose first failing check gives `c` completes with `c` and does nothing else. -/
theorem exec_of_fail {i : Instr} {s : State} {c : ErrCode} (h : firstError (s.checks i) = some c) :
    exec i s = .next (s.complete c) := by
  rw [exec_eq]
  exact guarded_of_fail h

/-- No command stops the machine: every one answers a next state (93 part 1). -/
theorem exec_answers_next (i : Instr) (s : State) : ∃ t, exec i s = .next t := by
  cases i <;> exact ⟨_, rfl⟩

/-! ### LENGTH as a number -/

@[simp] theorem State.len_setBuf (s : State) (m : Memory) : (s.setBuf m).len = s.len := rfl
@[simp] theorem State.len_complete (s : State) (c : ErrCode) : (s.complete c).len = s.len := rfl
@[simp] theorem State.len_accept (s : State) (w : Word) : (s.accept w).len = s.len := rfl
@[simp] theorem State.len_goTo (s : State) (i : Instr) (p : Phase) : (s.goTo i p).len = s.len := rfl

theorem State.len_setLen (s : State) {n : Nat} (h : n ≤ bufBytes) : (s.setLen n).len = n := by
  have := bufBytes_admitted
  simp only [State.len, State.setLen_length, BitVec.toNat_ofNat]
  exact Nat.mod_eq_of_lt (by omega)

@[simp] theorem State.len_passBlock (s : State) (p : Dir × Slot) (j : Nat) : (s.passBlock p j).len = s.len := by
  simp [State.len]
@[simp] theorem State.len_runPass (s : State) (p : Dir × Slot) (js : List Nat) : (s.runPass p js).len = s.len := by
  simp [State.len]
@[simp] theorem State.len_threePasses (s : State) (plan : PassNo → Dir × Slot) :
    (s.threePasses plan).len = s.len := by simp [State.len]
@[simp] theorem State.blocks_runPass (s : State) (p : Dir × Slot) (js : List Nat) :
    (s.runPass p js).blocks = s.blocks := by simp [State.blocks]

/-! ### The pad count and the padding (45 R200, R201) -/

theorem padCount_range (n : Nat) : 1 ≤ padCount n ∧ padCount n ≤ 8 ∧ (n + padCount n) % 8 = 0 := by
  unfold padCount
  omega

/-- The padding: LENGTH grows by n, bytes LENGTH to LENGTH+n-1 hold n, every other byte is as before (45 R201). -/
theorem State.readByte_addPadding (s : State) (k : Nat) :
    s.addPadding.readByte k =
      if s.len ≤ k ∧ k < s.len + padCount s.len then BitVec.ofNat 8 (padCount s.len) else s.readByte k := by
  rw [← State.readByte_fill]
  rfl

theorem State.len_addPadding (s : State) (h : s.noRoom = false) : s.addPadding.len = s.len + padCount s.len := by
  simp only [State.noRoom, decide_eq_false_iff_not, not_lt] at h
  exact State.len_setLen _ h

theorem State.addPadding_eq (s : State) :
    s.addPadding = (s.setBuf s.addPadding.buf).setLen (s.len + padCount s.len) := by
  unfold State.addPadding
  rw [State.fill_eq]
  rfl

@[simp] theorem State.slot_addPadding (s : State) (k : Slot) : s.addPadding.slot k = s.slot k := by
  rw [State.addPadding_eq]
  cases k <;> rfl

theorem State.addPadding_wf (s : State) (h : s.buf.wf) (hr : s.noRoom = false) : s.addPadding.buf.wf := by
  simp only [State.noRoom, decide_eq_false_iff_not, not_lt] at hr
  exact s.fill_wf _ _ _ h hr

/-! ### The three passes (44 R184 to R186) -/

theorem State.threePasses_wf (s : State) (plan : PassNo → Dir × Slot) (h : s.buf.wf) (hl : s.len ≤ bufBytes) :
    (s.threePasses plan).buf.wf := by
  have hj : ∀ j ∈ List.range s.blocks, 8 * j + 8 ≤ bufBytes := by
    intro j hj
    have := List.mem_range.1 hj
    unfold State.blocks at this
    omega
  exact State.runPass_wf _ _ _ (State.runPass_wf _ _ _ (State.runPass_wf _ _ _ h hj) hj) hj

/-- Each block of the buffer goes through the three passes on its own; blocks at or past LENGTH/8 are as before. -/
theorem State.readBlock_threePasses (s : State) (plan : PassNo → Dir × Slot) (j : Nat) :
    (s.threePasses plan).readBlock j =
      if j < s.blocks then
        des (des (des (s.readBlock j) (s.sched (plan .first).2) (plan .first).1)
          (s.sched (plan .second).2) (plan .second).1) (s.sched (plan .third).2) (plan .third).1
      else s.readBlock j := by
  unfold State.threePasses
  rw [State.readBlock_runPass _ _ _ List.nodup_range, State.readBlock_runPass _ _ _ List.nodup_range,
    State.readBlock_runPass _ _ _ List.nodup_range]
  simp only [List.mem_range, State.runPass_sched]
  split <;> rfl

/-- Bytes past the last whole block are as before. -/
theorem State.readByte_threePasses (s : State) (plan : PassNo → Dir × Slot) (k : Nat) (h : s.blocks ≤ k / 8) :
    (s.threePasses plan).readByte k = s.readByte k := by
  unfold State.threePasses
  have hk : k / 8 ∉ List.range s.blocks := by simpa using h
  rw [State.readByte_runPass _ _ _ _ hk, State.readByte_runPass _ _ _ _ hk, State.readByte_runPass _ _ _ _ hk]

/-! ### What a body changes -/

/-- What a command's body can change: DOUT, BUF, LENGTH, the key slots and the completion record, nothing else. -/
theorem State.body_frame (i : Instr) (s : State) :
    s.body i =
      { s with
        dout := (s.body i).dout, buf := (s.body i).buf, length := (s.body i).length, slotA := (s.body i).slotA,
        slotB := (s.body i).slotB, slotC := (s.body i).slotC, done := true, errCode := (s.body i).errCode,
        eng := .idle } := by
  have h3 : ∀ plan (u : State), u.threePasses plan = u.setBuf (u.threePasses plan).buf :=
    fun plan u => u.threePasses_eq plan
  cases i with
  | nop => rfl
  | desEnc k => simp only [State.body, State.putResult]; cases s.desResult k .enc <;> rfl
  | desDec k => simp only [State.body, State.putResult]; cases s.desResult k .dec <;> rfl
  | ede3Enc => rfl
  | ede3Dec => rfl
  | bufEde3Enc => simp only [State.body]; rw [h3]; rfl
  | bufEde3Dec => simp only [State.body]; rw [h3]; rfl
  | pad => simp only [State.body]; rw [State.addPadding_eq]; rfl
  | unpad => simp only [State.body, State.unpadEnd]; split <;> rfl
  | streamEnc => simp only [State.body]; rw [h3, State.addPadding_eq]; rfl
  | streamDec => simp only [State.body, State.unpadEnd]; rw [h3]; split <;> rfl
  | ldkeys => rfl

/-- Only LDKEYS changes a key slot. -/
theorem State.body_slot (i : Instr) (s : State) (hi : i ≠ .ldkeys) (k : Slot) : (s.body i).slot k = s.slot k := by
  have h3 : ∀ plan (u : State), u.threePasses plan = u.setBuf (u.threePasses plan).buf :=
    fun plan u => u.threePasses_eq plan
  cases i with
  | nop => cases k <;> rfl
  | desEnc q => simp only [State.body, State.putResult]; cases s.desResult q .enc <;> cases k <;> rfl
  | desDec q => simp only [State.body, State.putResult]; cases s.desResult q .dec <;> cases k <;> rfl
  | ede3Enc => cases k <;> rfl
  | ede3Dec => cases k <;> rfl
  | bufEde3Enc => simp only [State.body]; rw [h3]; cases k <;> rfl
  | bufEde3Dec => simp only [State.body]; rw [h3]; cases k <;> rfl
  | pad => simp only [State.body]; rw [State.addPadding_eq]; cases k <;> rfl
  | unpad => simp only [State.body, State.unpadEnd]; split <;> cases k <;> rfl
  | streamEnc => simp only [State.body]; rw [h3, State.addPadding_eq]; cases k <;> rfl
  | streamDec => simp only [State.body, State.unpadEnd]; rw [h3]; split <;> cases k <;> rfl
  | ldkeys => exact absurd rfl hi

/-- A body ends with OK, but for the failed last-byte check of UNPAD and STREAM_DEC (45 R202, R204). -/
theorem State.body_errCode (i : Instr) (s : State) :
    (s.body i).errCode = .ok ∨ (i = .unpad ∧ s.body i = s.complete .invalidPadding) ∨
      (i = .streamDec ∧ s.body i = (s.threePasses decPass).complete .invalidPadding) := by
  cases i with
  | unpad =>
    simp only [State.body, State.unpadEnd]; split
    · right; left; simp
    · left; rfl
  | streamDec =>
    simp only [State.body, State.unpadEnd]; split
    · right; right; simp
    · left; rfl
  | _ => left; rfl

end Sys2Proof.Machine
end

