-- ==== Sys2Proof/Laws/Bus.lean ====
section
/-! SUPPORT. The register map as equations: what stands at each class of offsets (spec 10 R20). -/

namespace Sys2Proof.Machine

/-- A window word lies inside BUF (20 R52). -/
theorem regAt_window_inside {addr : Addr} {i : Nat} (h : regAt addr = .window i) : 4 * i + 4 ≤ bufBytes := by
  have hb := bufBytes_admitted
  unfold regAt at h
  split at h <;> try (exact absurd h (by simp))
  split at h
  · simp only [Reg.window.injEq] at h
    omega
  · exact absurd h (by simp)

/-- Offset 0x1000 + 4i is window word i (20 R52). -/
theorem regAt_window {i : Nat} (h : i < bufBytes / 4) : regAt (BitVec.ofNat 16 (0x1000 + 4 * i)) = .window i := by
  have hb := bufBytes_admitted
  have ha : (BitVec.ofNat 16 (0x1000 + 4 * i)).toNat = 0x1000 + 4 * i := by
    rw [BitVec.toNat_ofNat]
    exact Nat.mod_eq_of_lt (by omega)
  unfold regAt
  rw [ha]
  split
  all_goals first
    | (exfalso; omega)
    | skip
  rw [if_pos (by omega)]
  congr 1
  omega

/-- What stands at an offset past the registers (10 R20). -/
theorem regAt_high {addr : Addr} (h : 0x1000 ≤ addr.toNat) :
    regAt addr = if addr.toNat < 0x1000 + bufBytes then .window ((addr.toNat - 0x1000) / 4) else .reserved := by
  unfold regAt
  split
  all_goals first
    | (exfalso; omega)
    | skip
  simp only [h, true_and]

/-- An aligned address has addr[1:0] = 0 (20 R51). -/
theorem misaligned_iff (addr : Addr) : misaligned addr = true ↔ addr.toNat % 4 ≠ 0 := by
  have h : (addr.extractLsb' 0 2).toNat = addr.toNat % 4 := by
    simp [BitVec.extractLsb'_toNat]
  unfold misaligned
  rw [decide_eq_true_iff, ← h]
  constructor
  · intro hne h0
    exact hne (BitVec.eq_of_toNat_eq h0)
  · intro hne h0
    exact hne (by rw [h0]; rfl)

/-! ### Classes of offsets -/

theorem misaligned_of_aligned {addr : Addr} (h : addr.toNat % 4 = 0) : misaligned addr = false := by
  by_contra hc
  have := (misaligned_iff addr).1 (by simpa using hc); omega

/-- A reserved offset (10 R20). -/
theorem regAt_reserved {addr : Addr} (hr : reservedOffset addr.toNat) :
    regAt addr = .reserved := by
  unfold reservedOffset at hr
  unfold regAt
  split
  case h_20 =>
    clear * - hr
    rw [if_neg (by omega)]
  all_goals (exfalso; omega)

/-- An offset of the window (20 R52). -/
theorem regAt_inWindow {addr : Addr} (h : inWindow addr.toNat) :
    regAt addr = .window ((addr.toNat - 0x1000) / 4) := by
  obtain ⟨h1, h2⟩ := h
  rw [regAt_high h1, if_pos h2]

/-! ### Effects of an access, by class -/

theorem State.access_rd_misaligned (s : State) {addr : Addr} (h : misaligned addr = true) :
    s.access (.rd addr) = s.respond (.read 0#32 true) := by
  simp [State.access, State.hostRead, h]

theorem State.access_wr_misaligned (s : State) {addr : Addr} (h : misaligned addr = true) (w : Word) :
    s.access (.wr addr w) = s.respond (.write true) := by
  simp [State.access, State.hostWrite, h]

/-- A read of a register whose value is defined in this state (20 R57). -/
theorem State.access_rd_defined (s : State) {addr : Addr} (h : misaligned addr = false)
    (hd : s.busy = false ∨ (regAt addr).openWhileBusy = false) :
    s.access (.rd addr) = s.respond (.read (s.regValue (regAt addr)) false) := by
  rcases hd with hd | hd <;> simp [State.access, State.hostRead, h, hd]

/-- An unspecified read (20 R57). -/
theorem State.access_rd_open (s : State) {addr : Addr} (h : misaligned addr = false) (hb : s.busy = true)
    (ho : (regAt addr).openWhileBusy = true) :
    s.access (.rd addr) = (s.respond (.read (Config.busyRead s.draws) false)).countDraw := by
  simp [State.access, State.hostRead, h, hb, ho]

/-- A dropped write (20 R56). -/
theorem State.access_wr_dropped (s : State) {addr : Addr} (h : misaligned addr = false) (hb : s.busy = true)
    (hi : (regAt addr).interlocked = true) (w : Word) :
    s.access (.wr addr w) = s.setWerr.respond (.write false) := by
  simp [State.access, State.hostWrite, h, hb, hi]

/-- A performed write (20 R56). -/
theorem State.access_wr_performed (s : State) {addr : Addr} (h : misaligned addr = false)
    (hp : s.busy = false ∨ (regAt addr).interlocked = false) (w : Word) :
    s.access (.wr addr w) = (s.writeReg (regAt addr) w).respond (.write false) := by
  rcases hp with hp | hp <;> simp [State.access, State.hostWrite, h, hp]

end Sys2Proof.Machine
end

