-- ==== Sys2Proof/Laws/Cipher.lean ====
section
/-! SUPPORT. The laws of the bit-permutation engine and of the Feistel rounds: one lemma that says which bit each output bit
of a permutation is, so that no later proof unfolds the fold over the table. -/

namespace Sys2Proof.Machine

theorem foldl_bits_acc (f : Nat → Bool) (ps : List Nat) (acc : Nat) :
    ps.foldl (fun a p => 2 * a + (f p).toNat) acc =
      2 ^ ps.length * acc + ps.foldl (fun a p => 2 * a + (f p).toNat) 0 := by
  induction ps generalizing acc with
  | nil => simp
  | cons p ps ih =>
    simp only [List.foldl_cons, List.length_cons]
    rw [ih, ih (2 * 0 + (f p).toNat)]
    ring

theorem foldl_bits_lt (f : Nat → Bool) (ps : List Nat) :
    ps.foldl (fun a p => 2 * a + (f p).toNat) 0 < 2 ^ ps.length := by
  induction ps with
  | nil => simp
  | cons p ps ih =>
    simp only [List.foldl_cons, List.length_cons]
    rw [foldl_bits_acc, pow_succ]
    have : (f p).toNat ≤ 1 := Bool.toNat_le (f p)
    have : 2 ^ ps.length * (2 * 0 + (f p).toNat) ≤ 2 ^ ps.length * 1 := Nat.mul_le_mul_left _ (by omega)
    omega

theorem testBit_foldl_bits (f : Nat → Bool) (ps : List Nat) (i : Nat) (h : i < ps.length) :
    (ps.foldl (fun a p => 2 * a + (f p).toNat) 0).testBit (ps.length - 1 - i) = f ps[i] := by
  induction ps generalizing i with
  | nil => simp at h
  | cons p ps ih =>
    simp only [List.foldl_cons, List.length_cons]
    rw [foldl_bits_acc]
    have hlt := foldl_bits_lt f ps
    rw [Nat.testBit_two_pow_mul_add _ hlt]
    cases i with
    | zero => cases hp : f p <;> simp [hp]
    | succ i =>
      have hi : i < ps.length := by simpa using h
      rw [if_pos (by omega)]
      have : ps.length + 1 - 1 - (i + 1) = ps.length - 1 - i := by omega
      rw [this, ih i hi]
      rfl

/-- The bits of a permutation (40 R100): output position i+1 is input position T[i]. -/
theorem getMsbD_permute {w n : Nat} (table : List Nat) (x : BitVec w) (hn : table.length = n) (i : Nat)
    (hi : i < table.length) : (permute n table x).getMsbD i = x.getLsbD (w - table[i]) := by
  subst hn
  rw [BitVec.getMsbD_eq_getLsbD, permute, BitVec.getLsbD_ofNat, testBit_foldl_bits _ _ _ hi]
  simp [hi]
  omega

/-- One round changes the halves as 43 R160 says, and a round with the halves swapped undoes it. -/
theorem feistelRound_swap (lr : Half × Half) (k : Subkey) :
    feistelRound (feistelRound lr k).swap k = lr.swap := by
  obtain ⟨l, r⟩ := lr
  simp [feistelRound]

theorem feistel_append (lr : Half × Half) (ks js : List Subkey) :
    feistel lr (ks ++ js) = feistel (feistel lr ks) js := by
  simp [feistel, List.foldl_append]

theorem halves_append (l r : Half) : halves (l ++ r : BitVec (32 + 32)) = (l, r) := by
  refine Prod.ext (BitVec.eq_of_getLsbD_eq fun i hi => ?_) (BitVec.eq_of_getLsbD_eq fun i hi => ?_)
  · show ((l ++ r : BitVec (32 + 32)).extractLsb' 32 32).getLsbD i = l.getLsbD i
    rw [BitVec.getLsbD_extractLsb', BitVec.getLsbD_append]
    simp [hi]
  · show ((l ++ r : BitVec (32 + 32)).extractLsb' 0 32).getLsbD i = r.getLsbD i
    rw [BitVec.getLsbD_extractLsb', BitVec.getLsbD_append]
    simp [hi]

/-- The bits of a rotated half (00 R12). -/
theorem getLsbD_rotl (c : BitVec 28) (n i : Nat) (hn : n < 28) (hi : i < 28) :
    (rotl c n).getLsbD i = c.getLsbD ((i + (28 - n)) % 28) := by
  unfold rotl
  split
  · next h => subst h; congr 1; simp; omega
  · next h =>
    simp only [BitVec.getLsbD_or, BitVec.getLsbD_shiftLeft, BitVec.getLsbD_ushiftRight, hi, decide_true, Bool.true_and]
    by_cases h2 : i < n
    · have : (i + (28 - n)) % 28 = 28 - n + i := by omega
      simp [h2, this]
    · have e : (i + (28 - n)) % 28 = i - n := by omega
      have : c.getLsbD (28 - n + i) = false := BitVec.getLsbD_of_ge _ _ (by omega)
      simp [h2, e, this]

theorem scheduleFrom_length (rs : List Nat) (c d : BitVec 28) : (scheduleFrom rs c d).length = rs.length := by
  induction rs generalizing c d with
  | nil => rfl
  | cons r rs ih => simp [scheduleFrom, ih]

/-- A schedule has 16 subkeys (41 R122). -/
theorem keySchedule_length (k : Key) : (keySchedule k).length = 16 := by
  simp [keySchedule, scheduleFrom_length, rotTable]

end Sys2Proof.Machine
end

