-- ==== Sys2Proof/Laws/Phases.lean ====
section
/-! SUPPORT. The engine's single steps (45 R210): the set S of a pass, what one Pass step can do, and runs of single steps. -/

namespace Sys2Proof.Machine

/-! ### The set S of a pass -/

theorem mem_addBlock {j k : Nat} {l : List Nat} : k ∈ addBlock j l ↔ k = j ∨ k ∈ l := by
  induction l with
  | nil => simp [addBlock]
  | cons a l ih =>
    simp only [addBlock]
    split
    · simp
    · split
      · rename_i h; subst h; simp
      · simp [ih]; tauto

theorem addBlock_pairwise {j : Nat} {l : List Nat} (h : l.Pairwise (· < ·)) : (addBlock j l).Pairwise (· < ·) := by
  induction l with
  | nil => simp [addBlock]
  | cons a l ih =>
    have h' := List.pairwise_cons.1 h
    simp only [addBlock]
    split
    · rename_i hja
      refine List.pairwise_cons.2 ⟨?_, h⟩
      intro b hb
      rcases List.mem_cons.1 hb with rfl | hb
      · exact hja
      · exact hja.trans (h'.1 b hb)
    · split
      · exact h
      · refine List.pairwise_cons.2 ⟨?_, ih h'.2⟩
        intro b hb
        rcases mem_addBlock.1 hb with rfl | hb
        · omega
        · exact h'.1 b hb

theorem mem_blocksLeft {n j : Nat} {l : List Nat} : j ∈ blocksLeft n l ↔ j < n ∧ j ∉ l := by
  simp [blocksLeft]

/-! ### Single steps -/

/-- What one Pass step does: with no block left the pass is over, else some block that is left is transformed. -/
theorem passStep_cases {i : Instr} {plan : PassNo → Dir × Slot} (hpl : passesOf i = some plan) (p : PassNo) (done : List Nat)
    (pick : Nat) {s : State} (ht : s.tooLong = false) :
    (blocksLeft s.blocks done = [] ∧ passStep i p done pick s =
        .next (s.goTo i (if s.blocks = 0 then afterPasses i else afterPass i p))) ∨
      ∃ j, j ∈ blocksLeft s.blocks done ∧ passStep i p done pick s =
        .next ((s.passBlock (plan p) j).goTo i
          (if blocksLeft s.blocks (addBlock j done) = [] then afterPass i p else .pass p (addBlock j done))) := by
  cases hj : (blocksLeft s.blocks done)[pick % (blocksLeft s.blocks done).length]? with
  | none =>
    left
    constructor
    · rw [List.getElem?_eq_none_iff] at hj
      by_contra hne
      have := Nat.mod_lt pick (List.length_pos_iff.2 hne)
      omega
    · simp only [passStep, hpl, ht, hj, Bool.false_eq_true, if_false]
  | some j =>
    right
    refine ⟨j, List.mem_of_getElem? hj, ?_⟩
    simp only [passStep, hpl, ht, hj, Bool.false_eq_true, if_false, List.isEmpty_iff]

theorem State.runPass_goTo (s : State) (p : Dir × Slot) (js : List Nat) (i : Instr) (q : Phase) :
    (s.goTo i q).runPass p js = (s.runPass p js).goTo i q := s.runPass_setEng p js _

theorem State.threePasses_goTo (s : State) (plan : PassNo → Dir × Slot) (i : Instr) (q : Phase) :
    (s.goTo i q).threePasses plan = (s.threePasses plan).goTo i q := s.threePasses_setEng plan _

theorem State.goTo_goTo (s : State) (i j : Instr) (p q : Phase) :
    (s.goTo i p).goTo j q = s.goTo j q := rfl

/-! ### Runs of single steps -/

theorem phaseRun_idle (picks : List Nat) (s : State) (h : s.eng = .idle) : phaseRun picks s = .next s := by
  induction picks with
  | nil => rfl
  | cons a l ih => simp only [phaseRun, phaseStep, h]; exact ih

theorem phaseRun_cons {s t : State} {a : Nat} (l : List Nat) (h : phaseStep a s = .next t) :
    phaseRun (a :: l) s = phaseRun l t := by
  simp only [phaseRun, h]

end Sys2Proof.Machine
end

