-- ==== Sys2Proof/Laws/Progress.lean ====
section
/-! SUPPORT. Progress (70 R361): what an issued event does, and a number of engine steps that are left, which every step of a
running engine makes smaller and no host transaction changes while BUSY = 1. -/

namespace Sys2Proof.Machine

theorem State.busy_of_idle {s : State} (h : s.eng = .idle) : s.busy = false := by
  unfold State.busy
  rw [h]

theorem State.busy_of_run {s : State} {c : Command} {p : Phase} (h : s.eng = .run c p) : s.busy = true := by
  unfold State.busy
  rw [h]

/-! ### What an issued event does (log entry 4) -/

theorem State.issue_access (s : State) (req : BusReq) : s.issue (.access req) = .next (s.access req) := rfl

theorem State.issue_reset (s : State) : s.issue .reset = .next s.takeReset := rfl

theorem State.issue_phase (s : State) (pick : Nat) : s.issue (.phase pick) = phaseStep pick s := rfl

theorem State.issue_run (s : State) : s.issue .run = engineTurn s := rfl

/-! ### The steps that are left (45 R210) -/

/-- A bound on the engine steps that are left in a phase, with `len` as LENGTH. -/
def phaseStepsLeft (len : Nat) : Phase → Nat
  | .check => 3 * (len / 8 + 2) + 4
  | .single => 2
  | .pad => 3 * (len / 8 + 2) + 3
  | .pass .first done => (blocksLeft (len / 8) done).length + 1 + 2 * (len / 8 + 1) + 2
  | .pass .second done => (blocksLeft (len / 8) done).length + 1 + (len / 8 + 1) + 2
  | .pass .third done => (blocksLeft (len / 8) done).length + 1 + 2
  | .unpad => 2
  | .loadKeys => 1
  | .complete _ => 1

/-- A bound on the engine steps that are left before the engine is Idle. -/
def State.stepsLeft (s : State) : Nat :=
  match s.eng with
  | .idle => 0
  | .run .illegal _ => 1
  | .run (.op _) p => phaseStepsLeft s.len p

theorem State.stepsLeft_run {s : State} {i : Instr} {p : Phase} (h : s.eng = .run (.op i) p) :
    s.stepsLeft = phaseStepsLeft s.len p := by
  unfold State.stepsLeft
  rw [h]

theorem State.stepsLeft_goTo (s : State) (i : Instr) (p : Phase) : (s.goTo i p).stepsLeft = phaseStepsLeft s.len p := rfl

theorem State.stepsLeft_idle {s : State} (h : s.eng = .idle) : s.stepsLeft = 0 := by
  unfold State.stepsLeft
  rw [h]

/-- One more block in S leaves fewer blocks. -/
theorem length_blocksLeft_addBlock {n j : Nat} {done : List Nat} (h : j ∈ blocksLeft n done) :
    (blocksLeft n (addBlock j done)).length < (blocksLeft n done).length := by
  have hsub : blocksLeft n (addBlock j done) = (blocksLeft n done).filter fun k => decide (k ≠ j) := by
    unfold blocksLeft
    rw [List.filter_filter]
    apply List.filter_congr
    intro k _
    have : k ∈ addBlock j done ↔ k = j ∨ k ∈ done := mem_addBlock
    rw [Bool.eq_iff_iff]
    simp only [List.contains_iff_mem, this, Bool.not_eq_true', Bool.and_eq_true, decide_eq_true_eq, ← Bool.not_eq_true]
    tauto
  rw [hsub, List.length_filter_lt_length_iff_exists]
  exact ⟨j, h, by simp⟩

theorem blocksLeft_nil_length (n : Nat) : (blocksLeft n []).length = n := by
  simp [blocksLeft]

/-- The phase after a pass has fewer steps left than the pass, even with every block done. -/
theorem phaseStepsLeft_afterPass (len : Nat) (i : Instr) (p : PassNo) (done : List Nat) :
    phaseStepsLeft len (afterPass i p) < phaseStepsLeft len (.pass p done) := by
  cases p with
  | first =>
    simp only [afterPass, phaseStepsLeft, blocksLeft_nil_length]
    omega
  | second =>
    simp only [afterPass, phaseStepsLeft, blocksLeft_nil_length]
    omega
  | third => cases i <;> simp [afterPass, afterPasses, phaseStepsLeft]

theorem phaseStepsLeft_afterPasses (len : Nat) (i : Instr) (p : PassNo) (done : List Nat) :
    phaseStepsLeft len (afterPasses i) < phaseStepsLeft len (.pass p done) := by
  cases p <;> cases i <;> simp only [afterPasses, phaseStepsLeft] <;> omega

/-- The first work phase and a failing check have fewer steps left than Check. -/
theorem phaseStepsLeft_firstWork (len : Nat) (i : Instr) : phaseStepsLeft len (firstWork i) < phaseStepsLeft len .check := by
  cases i <;> simp only [firstWork, phaseStepsLeft, blocksLeft_nil_length] <;> omega

/-- Every single step of a running engine leaves fewer steps (45 R210, 70 R361). -/
theorem phaseStep_stepsLeft {pick : Nat} {s t : State} (hb : s.busy = true) (h : phaseStep pick s = .next t) :
    t.stepsLeft < s.stepsLeft := by
  have hpos : ∀ c, (s.complete c).stepsLeft = 0 := fun _ => rfl
  unfold phaseStep at h
  split at h
  · next he => rw [State.busy_of_idle he] at hb; cases hb
  · next he =>
    cases h
    rw [hpos]
    unfold State.stepsLeft
    rw [he]
    exact Nat.one_pos
  · next i he =>
    rw [State.stepsLeft_run he]
    cases h
    cases firstError (s.checks i) with
    | none => exact phaseStepsLeft_firstWork _ _
    | some c =>
      show phaseStepsLeft s.len (.complete c) < _
      simp only [phaseStepsLeft]
      omega
  · next i he =>
    rw [State.stepsLeft_run he]
    unfold singleStep at h
    split at h
    · cases h
      exact Nat.lt_succ_self 1
    · cases h
  · next i he =>
    rw [State.stepsLeft_run he]
    unfold padStep at h
    split at h
    · next p hp =>
      split at h
      · cases h
      · next hr =>
        cases h
        rw [State.stepsLeft_goTo, State.len_addPadding s (by simpa using hr)]
        have hpc := padCount_range s.len
        cases i <;> cases hp <;> simp only [phaseStepsLeft, blocksLeft_nil_length] <;> omega
    · cases h
  · next i p done he =>
    rw [State.stepsLeft_run he]
    cases hpl : passesOf i with
    | none => simp [passStep, hpl] at h
    | some plan =>
      cases ht : s.tooLong with
      | true => simp [passStep, hpl, ht] at h
      | false =>
        rcases passStep_cases hpl p done pick ht with ⟨_, hst⟩ | ⟨j, hj, hst⟩
        · rw [hst] at h
          cases h
          rw [State.stepsLeft_goTo]
          split
          · exact phaseStepsLeft_afterPasses _ _ _ _
          · exact phaseStepsLeft_afterPass _ _ _ _
        · rw [hst] at h
          cases h
          rw [State.stepsLeft_goTo, State.len_passBlock]
          split
          · exact phaseStepsLeft_afterPass _ _ _ _
          · have hlt := length_blocksLeft_addBlock hj
            unfold State.blocks at hlt
            cases p <;> simp only [phaseStepsLeft] <;> omega
  · next i he =>
    rw [State.stepsLeft_run he]
    unfold unpadStep at h
    split at h
    · cases h
    · split at h
      · cases h
      · split at h <;> cases h <;> exact Nat.lt_succ_self 1
  · next i he =>
    rw [State.stepsLeft_run he]
    unfold loadKeysStep at h
    split at h
    · cases h
      exact Nat.one_pos
    · cases h
  · next c he =>
    rw [State.stepsLeft_run he]
    cases h
    exact Nat.one_pos

/-- A command that ran as a whole leaves the engine Idle (45 R211). -/
theorem exec_idle {i : Instr} {s t : State} (h : exec i s = .next t) : t.eng = .idle := by
  rcases exec_cases h with ⟨c, _, rfl⟩ | ⟨_, rfl⟩
  · rfl
  · rw [State.body_frame]

/-- Every turn of a running engine leaves fewer steps (45 R210, R211, 70 R361). -/
theorem engineTurn_stepsLeft {s t : State} (hb : s.busy = true) (h : engineTurn s = .next t) : t.stepsLeft < s.stepsLeft := by
  unfold engineTurn at h
  split at h
  · next i he =>
    rw [State.stepsLeft_run he, State.stepsLeft_idle (exec_idle h)]
    simp only [phaseStepsLeft]
    omega
  all_goals exact phaseStep_stepsLeft hb h

/-- Every engine event of a running engine leaves fewer steps. -/
theorem issue_ofEngine_stepsLeft {e : Input} {s t : State} (he : e.ofEngine = true) (hb : s.busy = true)
    (h : s.issue e = .next t) : t.stepsLeft < s.stepsLeft := by
  cases e with
  | access _ => cases he
  | reset => cases he
  | phase pick => exact phaseStep_stepsLeft hb h
  | run => exact engineTurn_stepsLeft hb h

/-- While BUSY = 1 no transaction of the host changes ENG or LENGTH (20 R56). -/
theorem State.access_busy {s : State} (hb : s.busy = true) (req : BusReq) :
    (s.access req).eng = s.eng ∧ (s.access req).length = s.length := by
  cases req with
  | rd addr =>
    simp only [State.access, State.hostRead]
    split
    · exact ⟨rfl, rfl⟩
    · split <;> exact ⟨rfl, rfl⟩
  | wr addr w =>
    simp only [State.access, State.hostWrite, hb]
    split
    · exact ⟨rfl, rfl⟩
    · cases regAt addr <;> exact ⟨rfl, rfl⟩

/-- While BUSY = 1 no transaction of the host changes what is left. -/
theorem State.stepsLeft_access {s : State} (hb : s.busy = true) (req : BusReq) :
    (s.access req).stepsLeft = s.stepsLeft ∧ (s.access req).busy = true := by
  obtain ⟨h1, h2⟩ := State.access_busy hb req
  have hl : (s.access req).len = s.len := by rw [State.len, State.len, h2]
  refine ⟨?_, ?_⟩
  · unfold State.stepsLeft
    rw [h1, hl]
  · unfold State.busy
    rw [h1]
    exact hb

/-- While BUSY = 1 no event leaves more engine steps than before. -/
theorem issue_stepsLeft_le {e : Input} {s t : State} (hb : s.busy = true) (h : s.issue e = .next t) :
    t.stepsLeft ≤ s.stepsLeft := by
  cases e with
  | access req =>
    cases h
    exact Nat.le_of_eq (State.stepsLeft_access hb req).1
  | reset =>
    cases h
    exact Nat.zero_le _
  | phase pick => exact Nat.le_of_lt (phaseStep_stepsLeft hb h)
  | run => exact Nat.le_of_lt (engineTurn_stepsLeft hb h)

/-! ### The step that ends a command (60 R304) -/

/-- The single step that makes a running engine Idle sets DONE. -/
theorem phaseStep_done {pick : Nat} {s t : State} (hb : s.busy = true) (h : phaseStep pick s = .next t)
    (ht : t.busy = false) : t.done = true := by
  have hgo : ∀ {u : State} {i : Instr} {q : Phase}, (.next (u.goTo i q) : Result) = .next t → t.done = true := by
    intro u i q hu
    injection hu with hu
    rw [← hu] at ht
    cases ht
  unfold phaseStep at h
  split at h
  · next he => rw [State.busy_of_idle he] at hb; cases hb
  · cases h
    rfl
  · next i _ =>
    unfold checkStep at h
    cases hc : firstError (s.checks i) <;> rw [hc] at h <;> exact hgo h
  · unfold singleStep at h
    split at h
    · exact hgo h
    · cases h
  · unfold padStep at h
    split at h
    · split at h
      · cases h
      · exact hgo h
    · cases h
  · unfold passStep at h
    split at h
    · cases h
    · split at h
      · cases h
      · split at h <;> exact hgo h
  · unfold unpadStep at h
    split at h
    · cases h
    · split at h
      · cases h
      · split at h <;> exact hgo h
  · unfold loadKeysStep at h
    split at h
    · cases h
      rfl
    · cases h
  · cases h
    rfl

/-- The event that makes a running engine Idle sets DONE, unless it is a reset. -/
theorem issue_done {e : Input} {s t : State} (hb : s.busy = true) (h : s.issue e = .next t) (ht : t.busy = false)
    (he : e ≠ .reset) : t.done = true := by
  cases e with
  | access req =>
    have h1 := (State.stepsLeft_access hb req).2
    rw [State.issue_access] at h
    injection h with h
    rw [h, ht] at h1
    cases h1
  | reset => exact absurd rfl he
  | phase pick => exact phaseStep_done hb h ht
  | run =>
    rw [State.issue_run] at h
    unfold engineTurn at h
    split at h
    · rcases exec_cases h with ⟨c, _, rfl⟩ | ⟨_, rfl⟩
      · rfl
      · rw [State.body_frame]
    all_goals exact phaseStep_done hb h ht

end Sys2Proof.Machine
end

