-- ==== Sys2Proof/Laws/HostSide.lean ====
section
/-! SUPPORT. What the parts of a host program do: one line, LOADBUF, a command with its WAIT and check, the read-back, and
the steps 2 to 7 of 48 R242 as a whole. -/

namespace Sys2Proof.Machine

/-- STATUS bit 0 is BUSY (10 R24). -/
theorem State.statusWord_busy (s : State) : s.statusWord.getLsbD 0 = s.busy := by
  unfold State.statusWord
  rw [BitVec.getLsbD_append]
  cases s.busy <;> rfl

/-- STATUS bits 7:4 are ERRCODE (10 R24). -/
theorem State.statusWord_errCode (s : State) : s.statusWord.extractLsb' 4 4 = s.errCode.code := by
  unfold State.statusWord
  generalize s.kv .a = a
  generalize s.kv .b = b
  generalize s.kv .c = c
  cases a <;> cases b <;> cases c <;> cases s.errCode <;> cases s.werr <;> cases s.done <;> cases s.busy <;> rfl

theorem ErrCode.code_eq_zero (c : ErrCode) : c.code = 0#4 ↔ c = .ok := by
  cases c <;> decide

/-! ### One line (20 R50) -/

/-- A transaction of the host is one step. -/
theorem hostStep_access (req : BusReq) (s : State) : hostStep (.access req) s = .ok (s.access req) := rfl

theorem hostPlay_cons_access (req : BusReq) (es : List Input) (s : State) :
    hostPlay (.access req :: es) s = hostPlay es (s.access req) := rfl

theorem hostPlay_append (es fs : List Input) (s : State) :
    hostPlay (es ++ fs) s = (hostPlay es s).bind (hostPlay fs) := by
  induction es generalizing s with
  | nil => rfl
  | cons e es ih =>
    simp only [List.cons_append, hostPlay]
    cases hostStep e s with
    | error _ => rfl
    | ok t => exact ih t

/-- A completion step of the engine runs the accepted command (45 R211). -/
theorem hostStep_run {s t : State} {i : Instr} (he : s.eng = .run (.op i) .check) (h : exec i s = .next t) :
    hostStep .run s = .ok t := by
  have h2 : engineTurn s = exec i s := by
    unfold engineTurn
    rw [he]
  unfold hostStep
  rw [State.issue_run, h2, h]

/-- A read whose value is defined binds that value and changes the port's response alone. -/
theorem hostRd_defined {s : State} {addr : Addr} (h : misaligned addr = false)
    (hd : s.busy = false ∨ (regAt addr).openWhileBusy = false) :
    hostRd addr s =
      .ok (s.regValue (regAt addr), s.respond (.read (s.regValue (regAt addr)) false)) := by
  unfold hostRd asmRd
  rw [hostStep_access, State.access_rd_defined s h hd]
  rfl

/-- A poll of STATUS (30 R77). -/
theorem hostRd_status (s : State) :
    hostRd 0x000C#16 s = .ok (s.statusWord, s.respond (.read s.statusWord false)) :=
  hostRd_defined rfl (.inr rfl)

/-! ### LOADBUF and SETLEN -/

theorem windowAddr_aligned (i : Nat) : misaligned (windowAddr i) = false := by
  apply misaligned_of_aligned
  unfold windowAddr
  rw [BitVec.toNat_ofNat]
  omega

/-- A byte of a concatenation of four. -/
theorem extract_four (a b c d : Byte) :
    (a ++ b ++ c ++ d : BitVec 32).extractLsb' 24 8 = a ∧ (a ++ b ++ c ++ d : BitVec 32).extractLsb' 16 8 = b ∧
      (a ++ b ++ c ++ d : BitVec 32).extractLsb' 8 8 = c ∧ (a ++ b ++ c ++ d : BitVec 32).extractLsb' 0 8 = d := by
  refine ⟨?_, ?_, ?_, ?_⟩ <;>
  · apply BitVec.eq_of_getLsbD_eq
    intro i hi
    simp only [BitVec.getLsbD_extractLsb', BitVec.getLsbD_append, hi, decide_true, Bool.true_and]
    repeat' split
    all_goals first
      | (exfalso; omega)
      | (congr 1; omega)

theorem fileWord_byte (bytes : List Byte) (i k : Nat) (h : k < 4) :
    (fileWord bytes i).extractLsb' (8 * (4 - k) - 8) 8 = bytes.getD (4 * i + k) 0#8 := by
  unfold fileWord
  have hx := extract_four (bytes.getD (4 * i) 0#8) (bytes.getD (4 * i + 1) 0#8) (bytes.getD (4 * i + 2) 0#8)
    (bytes.getD (4 * i + 3) 0#8)
  have h4 : k = 0 ∨ k = 1 ∨ k = 2 ∨ k = 3 := by omega
  rcases h4 with rfl | rfl | rfl | rfl
  · exact hx.1
  · exact hx.2.1
  · exact hx.2.2.1
  · exact hx.2.2.2

/-- A window write while Idle changes the four bytes of its word and the port's response alone (20 R52). -/
theorem State.access_wr_window {s : State} (he : s.eng = .idle) {i : Nat} (hi : i < bufBytes / 4) (w : Word) :
    s.access (.wr (windowAddr i) w) = (s.memWrite (4 * i) 4 w).respond (.write false) := by
  rw [State.access_wr_performed s (windowAddr_aligned i) (.inl (State.busy_of_idle he)), windowAddr, regAt_window hi]
  rfl

/-- The first `m` lines of LOADBUF while Idle: BUF's first 4m bytes are the string's, 0x00 past its end; every other byte and
everything but BUF and the port's response is as before (30 R77). -/
theorem hostPlay_windowWrites (bytes : List Byte) {s : State} (he : s.eng = .idle) {m : Nat} (hm : 4 * m ≤ bufBytes) :
    ∃ u, hostPlay ((List.range m).map fun i => asmWr (windowAddr i) (fileWord bytes i)) s = .ok u ∧
      u = { s with buf := u.buf, resp := u.resp } ∧
      ∀ k, u.readByte k = if k < 4 * m then bytes.getD k 0#8 else s.readByte k := by
  induction m with
  | zero => exact ⟨s, rfl, rfl, fun k => by rw [if_neg (by omega)]⟩
  | succ m ih =>
    obtain ⟨u, hp, hu, hr⟩ := ih (by omega)
    have heu : u.eng = .idle := by rw [hu]; exact he
    have hw := State.access_wr_window heu (show m < bufBytes / 4 by omega) (fileWord bytes m)
    refine ⟨u.access (.wr (windowAddr m) (fileWord bytes m)), ?_, ?_, fun k => ?_⟩
    · rw [List.range_succ, List.map_append, hostPlay_append, hp]
      rfl
    · rw [hw, State.memWrite_eq]
      generalize (u.memWrite (4 * m) 4 (fileWord bytes m)).buf = b
      rw [hu]
      rfl
    · rw [hw]
      show (u.memWrite (4 * m) 4 (fileWord bytes m)).readByte k = _
      rw [State.readByte_memWrite, hr]
      by_cases hk : 4 * m ≤ k ∧ k < 4 * m + 4
      · rw [if_pos hk, if_pos (by omega), fileWord_byte bytes m (k - 4 * m) (by omega)]
        congr 1
        omega
      · rw [if_neg hk]
        by_cases hk2 : k < 4 * m
        · rw [if_pos hk2, if_pos (by omega)]
        · rw [if_neg hk2, if_neg (by omega)]

/-- LOADBUF and SETLEN while Idle: BUF starts with the bytes, LENGTH is their number, and nothing else changes but the rest
of BUF and the port's response (30 R77). -/
theorem hostPlay_asmLoadFile (bytes : List Byte) {s : State} (he : s.eng = .idle) (hn : bytes.length ≤ bufBytes) :
    ∃ b r, hostPlay (asmLoadFile bytes) s =
        .ok { s with buf := b, length := BitVec.ofNat 32 bytes.length, resp := r } ∧
      ∀ t : State, t.buf = b → t.resets = s.resets → ∀ k, k < bytes.length → t.readByte k = bytes.getD k 0#8 := by
  have hb := bufBytes_admitted
  obtain ⟨u, hp, hu, hr⟩ := hostPlay_windowWrites bytes he (m := (bytes.length + 3) / 4) (by omega)
  have heu : u.eng = .idle := by rw [hu]; exact he
  refine ⟨u.buf, some (.write false), ?_, fun t ht ht2 k hk => ?_⟩
  · unfold asmLoadFile asmLoadBuf
    rw [hostPlay_append, hp]
    show Except.ok (u.access (.wr 0x0014#16 (BitVec.ofNat 32 bytes.length))) = _
    rw [State.access_wr_performed u (addr := 0x0014#16) rfl (.inl (State.busy_of_idle heu))]
    generalize hb : u.buf = b at *
    generalize u.resp = r at hu
    rw [hu]
    rfl
  · rw [State.readByte_congr (t := u) ht (by rw [hu]; exact ht2), hr, if_pos (by omega)]

/-! ### A command with its WAIT and its check -/

/-- The state in which the engine runs a command that the host has submitted and polled once (60 R301, 30 R77). -/
def State.submitted (s : State) (i : Instr) : State :=
  { s with
    eng := .run (.op i) .check, done := false, errCode := .ok,
    resp := some (.read ({ s with eng := .run (.op i) .check, done := false, errCode := .ok } : State).statusWord false) }

/-- CMD, WAIT with the engine's completion step between two polls, and the check of ERRCODE: the effect of the command and
two more reads of STATUS, or the error code (48 R242, steps 4 to 6). -/
theorem hostCommand_whole {s t : State} {i : Instr} (hi : decodeCommand (encode i) = .op i) (he : s.eng = .idle)
    (hx : exec i (s.submitted i) = .next t) (ht : t.eng = .idle) :
    hostCommand [.whole] i s =
      if t.errCode = .ok then .ok (t.respond (.read t.statusWord false)) else .error (.errCode t.errCode.code) := by
  have h1 : hostPlay (asmCmd i) s =
      .ok { s with eng := .run (.op i) .check, done := false, errCode := .ok, resp := some (.write false) } := by
    unfold asmCmd asmWr
    rw [hostPlay_cons_access, State.access_wr_performed s rfl (.inl (State.busy_of_idle he))]
    show Except.ok (((s.accept (encode i))).respond (.write false)) = _
    unfold State.accept
    rw [hi]
    rfl
  have h2 : hostWait [.whole]
      { s with eng := .run (.op i) .check, done := false, errCode := .ok, resp := some (.write false) } = .ok (t.respond (.read t.statusWord false)) := by
    unfold hostWait
    rw [hostRd_status]
    simp only [Except.bind, State.statusWord_busy]
    rw [State.busy_of_run (c := .op i) (p := .check) rfl, if_pos rfl]
    show (hostStep .run (s.submitted i)).bind (hostWait []) = _
    rw [hostStep_run rfl hx]
    show hostWait [] t = _
    unfold hostWait
    rw [hostRd_status]
    simp only [Except.bind, State.statusWord_busy, State.busy_of_idle ht]
    rfl
  unfold hostCommand
  rw [h1]
  simp only [Except.bind]
  rw [h2]
  show hostCheck (t.respond _) = _
  unfold hostCheck
  rw [hostRd_status]
  simp only [Except.bind, State.statusWord_errCode]
  have hc : (t.respond (.read t.statusWord false)).errCode = t.errCode := rfl
  simp only [hc, ErrCode.code_eq_zero]
  rfl

/-! ### The read-back (48 R242, step 7) -/

theorem memRead_four (s : State) (i : Nat) :
    s.memRead i 4 = s.readByte i ++ s.readByte (i + 1) ++ s.readByte (i + 2) ++ s.readByte (i + 3) := by
  have h0 : ∀ a : Byte, (0#0 ++ a : BitVec (0 + 8)) = a := by
    intro a
    apply BitVec.eq_of_getLsbD_eq
    intro b hb
    rw [BitVec.getLsbD_append, if_pos hb]
  exact congrArg (fun x : BitVec 8 => x ++ s.readByte (i + 1) ++ s.readByte (i + 2) ++ s.readByte (i + 3))
    (h0 (s.readByte i))

/-- The first `k` window words, read while Idle, are BUF's first 4k bytes. -/
theorem hostReadWords_idle {s : State} (he : s.eng = .idle) {k : Nat} (hk : 4 * k ≤ bufBytes) :
    ∃ r, hostReadWords k s = .ok ((List.range (4 * k)).map s.readByte, { s with resp := r }) := by
  induction k with
  | zero => exact ⟨s.resp, rfl⟩
  | succ k ih =>
    obtain ⟨r, hr⟩ := ih (by omega)
    refine ⟨some (.read (s.memRead (4 * k) 4) false), ?_⟩
    unfold hostReadWords
    rw [hr]
    simp only [Except.bind]
    have hreg : regAt (windowAddr k) = .window k := regAt_window (by omega)
    rw [hostRd_defined (s := { s with resp := r }) (windowAddr_aligned k)
      (.inl (State.busy_of_idle (s := { s with resp := r }) he)), hreg]
    have hv : State.regValue { s with resp := r } (.window k) = s.memRead (4 * k) 4 :=
      State.memRead_congr fun _ _ _ => rfl
    rw [hv]
    have hw := extract_four (s.readByte (4 * k)) (s.readByte (4 * k + 1)) (s.readByte (4 * k + 2)) (s.readByte (4 * k + 3))
    have hl : 4 * (k + 1) = 4 * k + 4 := by omega
    simp only [wordBytes, memRead_four]
    rw [hw.1, hw.2.1, hw.2.2.1, hw.2.2.2, hl, List.range_add, List.map_append]
    rfl

/-- The read-back while Idle: BUF's first LENGTH bytes. -/
theorem hostResult_idle {s : State} (he : s.eng = .idle) (hl : s.len ≤ bufBytes) :
    ∃ r, hostResult s = .ok ((List.range s.len).map s.readByte, { s with resp := r }) := by
  have hb := bufBytes_admitted
  obtain ⟨r, hr⟩ := hostReadWords_idle (s := s.respond (.read s.length false)) he (k := (s.len + 3) / 4) (by omega)
  refine ⟨r, ?_⟩
  unfold hostResult
  rw [hostRd_defined (addr := 0x0014#16) rfl (.inl (State.busy_of_idle he))]
  simp only [Except.bind]
  have hv : s.regValue (regAt 0x0014#16) = s.length := rfl
  rw [hv]
  have hn : s.length.toNat = s.len := rfl
  rw [hn, hr]
  simp only
  congr 2
  rw [← List.map_take, List.take_range, Nat.min_eq_left (by omega)]
  rfl

/-! ### Steps 2 to 7 (48 R242) -/

/-- One command over a byte string that fits, from an Idle core: the command runs on a state whose BUF starts with the bytes
and whose LENGTH is their number, every other register as it was; where it ends with OK the flow gives the first LENGTH bytes
that it leaves, else the flow ends with the command's error code. -/
theorem hostOverBuffer_whole {s : State} {i : Instr} {bytes : List Byte} (hi : decodeCommand (encode i) = .op i)
    (he : s.eng = .idle) (hn : roomFor i bytes.length ≤ bufBytes) :
    ∃ u : State,
      u = { s with buf := u.buf, length := u.length, resp := u.resp, eng := .run (.op i) .check, done := false,
                   errCode := .ok } ∧
        u.len = bytes.length ∧ (∀ k, k < bytes.length → u.readByte k = bytes.getD k 0#8) ∧
        ∀ t, exec i u = .next t → t.eng = .idle → t.len ≤ bufBytes →
          (t.errCode = .ok → ∃ r, hostOverBuffer [.whole] i bytes s =
            .ok ((List.range t.len).map t.readByte, { t with resp := r })) ∧
          (t.errCode ≠ .ok → hostOverBuffer [.whole] i bytes s = .error (.errCode t.errCode.code)) := by
  have hb := bufBytes_admitted
  have hle : bytes.length ≤ bufBytes := by
    refine Nat.le_trans ?_ hn
    unfold roomFor
    split <;> omega
  obtain ⟨b, r, hp, hr⟩ := hostPlay_asmLoadFile bytes he hle
  refine ⟨State.submitted { s with buf := b, length := BitVec.ofNat 32 bytes.length, resp := r } i, rfl, ?_, ?_,
    fun t hx ht hl => ?_⟩
  · show (BitVec.ofNat 32 bytes.length).toNat = _
    rw [BitVec.toNat_ofNat]
    exact Nat.mod_eq_of_lt (by omega)
  · exact hr (State.submitted { s with buf := b, length := BitVec.ofNat 32 bytes.length, resp := r } i) rfl rfl
  · have hc := hostCommand_whole hi (s := { s with buf := b, length := BitVec.ofNat 32 bytes.length, resp := r }) he hx ht
    have hf : hostOverBuffer [.whole] i bytes s =
        (hostCommand [.whole] i { s with buf := b, length := BitVec.ofNat 32 bytes.length, resp := r }).bind hostResult := by
      unfold hostOverBuffer
      rw [if_pos hn, hp]
      rfl
    rw [hf, hc]
    constructor
    · intro ho
      obtain ⟨q, hq⟩ := hostResult_idle (s := t.respond (.read t.statusWord false)) ht hl
      refine ⟨q, ?_⟩
      rw [if_pos ho]
      exact hq
    · intro ho
      rw [if_neg ho]
      rfl

/-! ### A byte string block by block (20 R54) -/

/-- The bytes of a block that is put together from eight bytes. -/
theorem blockBytes_append (b0 b1 b2 b3 b4 b5 b6 b7 : Byte) :
    blockBytes (b0 ++ b1 ++ b2 ++ b3 ++ b4 ++ b5 ++ b6 ++ b7) = [b0, b1, b2, b3, b4, b5, b6, b7] := by
  unfold blockBytes
  congr 1
  rotate_left
  congr 1
  rotate_left
  congr 1
  rotate_left
  congr 1
  rotate_left
  congr 1
  rotate_left
  congr 1
  rotate_left
  congr 1
  rotate_left
  congr 1
  all_goals
    apply BitVec.eq_of_getLsbD_eq
    intro i hi
    simp only [BitVec.getLsbD_extractLsb', BitVec.getLsbD_append, hi, decide_true, Bool.true_and]
    repeat' split
    all_goals first
      | (exfalso; omega)
      | (congr 1; omega)

/-- Eight bytes put together are the block whose bytes they are. -/
theorem append_blockBytes (b : Block) :
    b.extractLsb' 56 8 ++ b.extractLsb' 48 8 ++ b.extractLsb' 40 8 ++ b.extractLsb' 32 8 ++ b.extractLsb' 24 8 ++
      b.extractLsb' 16 8 ++ b.extractLsb' 8 8 ++ b.extractLsb' 0 8 = b := by
  apply BitVec.eq_of_getLsbD_eq
  intro i hi
  simp only [BitVec.getLsbD_extractLsb', BitVec.getLsbD_append]
  repeat' split
  all_goals
    rw [decide_eq_true (by omega), Bool.true_and]
    congr 1
    omega

/-- A block's bytes go through `f` as that block. -/
theorem mapBlocks_blockBytes (f : Block → Block) (b : Block) (r : List Byte) :
    mapBlocks f (blockBytes b ++ r) = blockBytes (f b) ++ mapBlocks f r := by
  simp only [blockBytes, List.cons_append, List.nil_append, mapBlocks]
  rw [append_blockBytes]

/-- A list of a multiple of eight elements is empty, or eight elements and a shorter such list. -/
theorem eight_cases {l : List Byte} (h : l.length % 8 = 0) :
    l = [] ∨ ∃ b0 b1 b2 b3 b4 b5 b6 b7 r, l = b0 :: b1 :: b2 :: b3 :: b4 :: b5 :: b6 :: b7 :: r ∧ r.length % 8 = 0 := by
  match l, h with
  | [], _ => exact .inl rfl
  | b0 :: b1 :: b2 :: b3 :: b4 :: b5 :: b6 :: b7 :: r, h =>
    refine .inr ⟨b0, b1, b2, b3, b4, b5, b6, b7, r, rfl, ?_⟩
    simp only [List.length_cons] at h
    omega
  | [_], h | [_, _], h | [_, _, _], h | [_, _, _, _], h | [_, _, _, _, _], h | [_, _, _, _, _, _], h
  | [_, _, _, _, _, _, _], h => simp at h

/-- Blocks on the two sides of a block boundary are independent (48 R243). -/
theorem mapBlocks_append (f : Block → Block) {l : List Byte} (h : l.length % 8 = 0) (m : List Byte) :
    mapBlocks f (l ++ m) = mapBlocks f l ++ mapBlocks f m := by
  generalize hn : l.length = n
  induction n using Nat.strong_induction_on generalizing l with
  | _ n ih =>
    rcases eight_cases h with rfl | ⟨b0, b1, b2, b3, b4, b5, b6, b7, r, rfl, hr⟩
    · rfl
    · simp only [List.cons_append, mapBlocks, List.append_assoc]
      simp only [List.length_cons] at hn
      rw [ih r.length (by omega) hr rfl]

/-- Blocks in, blocks out. -/
theorem length_mapBlocks (f : Block → Block) {l : List Byte} (h : l.length % 8 = 0) : (mapBlocks f l).length = l.length := by
  generalize hn : l.length = n
  induction n using Nat.strong_induction_on generalizing l with
  | _ n ih =>
    rcases eight_cases h with rfl | ⟨b0, b1, b2, b3, b4, b5, b6, b7, r, rfl, hr⟩
    · exact hn
    · simp only [List.length_cons] at hn
      simp only [mapBlocks, List.length_append, blockBytes, List.length_cons, List.length_nil]
      rw [ih r.length (by omega) hr rfl]
      omega

/-- What `g` undoes block by block it undoes over the string. -/
theorem mapBlocks_inverse {f g : Block → Block} (hfg : ∀ b, g (f b) = b) {l : List Byte} (h : l.length % 8 = 0) :
    mapBlocks g (mapBlocks f l) = l := by
  generalize hn : l.length = n
  induction n using Nat.strong_induction_on generalizing l with
  | _ n ih =>
    rcases eight_cases h with rfl | ⟨b0, b1, b2, b3, b4, b5, b6, b7, r, rfl, hr⟩
    · rfl
    · simp only [List.length_cons] at hn
      simp only [mapBlocks]
      rw [mapBlocks_blockBytes, hfg, blockBytes_append, ih r.length (by omega) hr rfl]
      rfl

/-- Block j of BUF is its eight bytes, the first in the top bits (20 R54). -/
theorem State.readBlock_eq (s : State) (j : Nat) :
    s.readBlock j = s.readByte (8 * j) ++ s.readByte (8 * j + 1) ++ s.readByte (8 * j + 2) ++ s.readByte (8 * j + 3) ++
      s.readByte (8 * j + 4) ++ s.readByte (8 * j + 5) ++ s.readByte (8 * j + 6) ++ s.readByte (8 * j + 7) := by
  apply BitVec.eq_of_getLsbD_eq
  intro i hi
  have h := State.getLsbD_memRead s (8 * j) 8 i hi
  refine h.trans ?_
  simp only [BitVec.getLsbD_append]
  repeat' split
  all_goals
    congr 1
    · congr 1
      omega
    · omega

/-- Where each of the first `n` blocks that `t` holds is `f` of the block that `u` holds, so is the string of the bytes. -/
theorem mapBlocks_range {f : Block → Block} {t u : State} {n : Nat} (h : ∀ j, j < n → t.readBlock j = f (u.readBlock j)) :
    mapBlocks f ((List.range (8 * n)).map u.readByte) = (List.range (8 * n)).map t.readByte := by
  induction n with
  | zero => rfl
  | succ n ih =>
    have hl : 8 * (n + 1) = 8 * n + 8 := by omega
    rw [hl, List.range_add, List.map_append, List.map_append, mapBlocks_append f (by simp), ih fun j hj => h j (by omega)]
    congr 1
    have hn := h n (by omega)
    have ht := congrArg blockBytes (State.readBlock_eq t n)
    rw [blockBytes_append] at ht
    have h8 : ∀ v : State, ((List.range 8).map (8 * n + ·)).map v.readByte =
        [v.readByte (8 * n), v.readByte (8 * n + 1), v.readByte (8 * n + 2), v.readByte (8 * n + 3),
          v.readByte (8 * n + 4), v.readByte (8 * n + 5), v.readByte (8 * n + 6), v.readByte (8 * n + 7)] := fun _ => rfl
    rw [h8, h8, ← ht, hn, State.readBlock_eq u n]
    simp only [mapBlocks, List.append_nil]

/-! ### What the buffer commands make of a byte string (48 R242, R243) -/

/-- A byte string is what BUF holds where it was loaded. -/
theorem eq_map_readByte {u : State} {bytes : List Byte} (h : ∀ k, k < bytes.length → u.readByte k = bytes.getD k 0#8) :
    (List.range bytes.length).map u.readByte = bytes := by
  apply List.ext_getElem
  · simp
  · intro k h1 h2
    simp [h k h2, h2]

/-- The three passes over a whole number of blocks are `f`, block by block, where the three passes over one block are. -/
theorem map_readByte_threePasses {f : Block → Block} {u : State} {plan : PassNo → Dir × Slot} {bytes : List Byte}
    (hl : u.len = bytes.length) (h8 : bytes.length % 8 = 0)
    (hr : ∀ k, k < bytes.length → u.readByte k = bytes.getD k 0#8)
    (hf : ∀ b, des (des (des b (u.sched (plan .first).2) (plan .first).1) (u.sched (plan .second).2) (plan .second).1)
      (u.sched (plan .third).2) (plan .third).1 = f b) :
    (List.range bytes.length).map (u.threePasses plan).readByte = mapBlocks f bytes := by
  have hn : bytes.length = 8 * (bytes.length / 8) := by omega
  have hm := mapBlocks_range (f := f) (t := u.threePasses plan) (u := u) (n := bytes.length / 8) fun j hj => by
    rw [State.readBlock_threePasses, if_pos (by unfold State.blocks; omega), hf]
  rw [← hn, eq_map_readByte hr] at hm
  exact hm.symm

/-- The passes of an encryption over one block (44 R184). -/
theorem State.encPasses (u : State) (b : Block) :
    des (des (des b (u.sched (encPass .first).2) (encPass .first).1) (u.sched (encPass .second).2) (encPass .second).1)
      (u.sched (encPass .third).2) (encPass .third).1 = ede3Encrypt (u.key .a) (u.key .b) (u.key .c) b := rfl

/-- The passes of a decryption over one block (44 R185). -/
theorem State.decPasses (u : State) (b : Block) :
    des (des (des b (u.sched (decPass .first).2) (decPass .first).1) (u.sched (decPass .second).2) (decPass .second).1)
      (u.sched (decPass .third).2) (decPass .third).1 = ede3Decrypt (u.key .a) (u.key .b) (u.key .c) b := rfl

theorem State.allKv_iff (s : State) : s.allKv = true ↔ ∀ k, s.kv k = true := by
  unfold State.allKv
  simp only [Bool.and_eq_true]
  constructor
  · rintro ⟨⟨ha, hb⟩, hc⟩ k
    cases k <;> assumption
  · exact fun h => ⟨⟨h .a, h .b⟩, h .c⟩

theorem State.tooLong_eq_false {s : State} (h : s.len ≤ bufBytes) : s.tooLong = false := by
  unfold State.tooLong
  exact decide_eq_false (by omega)

theorem State.noRoom_eq_false {s : State} (h : s.len + padCount s.len ≤ bufBytes) : s.noRoom = false := by
  unfold State.noRoom
  exact decide_eq_false (by omega)

theorem State.unaligned_eq_false {s : State} (h : s.len % 8 = 0) : s.unaligned = false := by
  unfold State.unaligned
  exact decide_eq_false (by omega)

/-- The flow of a command that checks LENGTH, alignment and keys and then runs three passes, over whole blocks that fit, from
an Idle core with three valid slots: the result is the passes over each block. -/
theorem hostOverBuffer_passes {s : State} {i : Instr} {plan : PassNo → Dir × Slot} {bytes : List Byte}
    (hi : decodeCommand (encode i) = .op i) (hne : i ≠ .ldkeys) (hck : ∀ u : State, u.checks i = u.bufChecks)
    (hbody : ∀ u : State, u.body i = (u.threePasses plan).complete .ok) (he : s.eng = .idle) (hk : ∀ k, s.kv k = true)
    (h8 : bytes.length % 8 = 0) (hn : roomFor i bytes.length ≤ bufBytes) (hle : bytes.length ≤ bufBytes) :
    ∃ t, hostOverBuffer [.whole] i bytes s =
        .ok (mapBlocks (fun b => des (des (des b (s.sched (plan .first).2) (plan .first).1) (s.sched (plan .second).2)
          (plan .second).1) (s.sched (plan .third).2) (plan .third).1) bytes, t) ∧
      t.eng = .idle ∧ ∀ k, t.slot k = s.slot k := by
  obtain ⟨u, hu, hl, hr, hflow⟩ := hostOverBuffer_whole hi he hn
  have hs : ∀ k, u.slot k = s.slot k := by rw [hu]; intro k; cases k <;> rfl
  have hx : exec i u = .next (u.body i) := by
    apply exec_of_pass
    have hkv : u.allKv = true := u.allKv_iff.2 fun k => by simpa [State.kv, hs] using hk k
    simp [hck, State.bufChecks, firstError, State.tooLong_eq_false (s := u) (by omega),
      State.unaligned_eq_false (s := u) (by omega), hkv]
  have ht : (u.body i).len = bytes.length := by simp [hbody, hl]
  have hidle : (u.body i).eng = .idle := by rw [hbody]; rfl
  obtain ⟨r, hf⟩ := (hflow _ hx hidle (by omega)).1 (by rw [hbody]; rfl)
  refine ⟨{ u.body i with resp := r }, ?_, hidle, fun k => ?_⟩
  · have hsched : ∀ k, u.sched k = s.sched k := fun k => by simp [State.sched, State.key, hs]
    rw [hf, ht, ← map_readByte_threePasses (plan := plan) hl h8 hr fun b => by simp only [hsched], hbody]
    rfl
  · have h1 := State.body_slot i u hne k
    rw [hs] at h1
    cases k <;> exact h1

/-- The flow of BUF_EDE3_ENC over whole blocks that fit (48 R243). -/
theorem hostOverBuffer_bufEde3Enc {s : State} {bytes : List Byte} (he : s.eng = .idle) (hk : ∀ k, s.kv k = true)
    (h8 : bytes.length % 8 = 0) (hn : bytes.length ≤ bufBytes) :
    ∃ t, hostOverBuffer [.whole] .bufEde3Enc bytes s =
        .ok (mapBlocks (ede3Encrypt (s.key .a) (s.key .b) (s.key .c)) bytes, t) ∧
      t.eng = .idle ∧ ∀ k, t.slot k = s.slot k :=
  hostOverBuffer_passes (plan := encPass) rfl (by decide) (fun _ => rfl) (fun _ => rfl) he hk h8 hn hn

/-- The flow of BUF_EDE3_DEC over whole blocks that fit (48 R243). -/
theorem hostOverBuffer_bufEde3Dec {s : State} {bytes : List Byte} (he : s.eng = .idle) (hk : ∀ k, s.kv k = true)
    (h8 : bytes.length % 8 = 0) (hn : bytes.length ≤ bufBytes) :
    ∃ t, hostOverBuffer [.whole] .bufEde3Dec bytes s =
        .ok (mapBlocks (ede3Decrypt (s.key .a) (s.key .b) (s.key .c)) bytes, t) ∧
      t.eng = .idle ∧ ∀ k, t.slot k = s.slot k :=
  hostOverBuffer_passes (plan := decPass) rfl (by decide) (fun _ => rfl) (fun _ => rfl) he hk h8 hn hn

/-- The flow of STREAM_ENC over bytes that fit with their padding, from an Idle core with three valid slots (48 R242). -/
theorem hostOverBuffer_streamEnc {s : State} {bytes : List Byte} (he : s.eng = .idle) (hk : ∀ k, s.kv k = true)
    (hn : bytes.length + padCount bytes.length ≤ bufBytes) :
    ∃ t, hostOverBuffer [.whole] .streamEnc bytes s =
        .ok (streamCipher (s.key .a) (s.key .b) (s.key .c) bytes, t) ∧
      t.eng = .idle ∧ ∀ k, t.slot k = s.slot k := by
  have hpc := padCount_range bytes.length
  obtain ⟨u, hu, hl, hr, hflow⟩ := hostOverBuffer_whole (i := .streamEnc) rfl he hn
  have hs : ∀ k, u.slot k = s.slot k := by rw [hu]; intro k; cases k <;> rfl
  have hroom : u.noRoom = false := State.noRoom_eq_false (by rw [hl]; omega)
  have hx : exec .streamEnc u = .next (u.body .streamEnc) := by
    apply exec_of_pass
    have hkv : u.allKv = true := u.allKv_iff.2 fun k => by simpa [State.kv, hs] using hk k
    simp [State.checks, State.streamEncChecks, firstError, State.tooLong_eq_false (s := u) (by omega), hroom, hkv]
  have hpl : (paddedBytes bytes).length = bytes.length + padCount bytes.length := by simp [paddedBytes]
  have hpad : u.addPadding.len = (paddedBytes bytes).length := by rw [State.len_addPadding _ hroom, hl, hpl]
  have ht : (u.body .streamEnc).len = (paddedBytes bytes).length := by simpa [State.body] using hpad
  have hrp : ∀ k, k < (paddedBytes bytes).length → u.addPadding.readByte k = (paddedBytes bytes).getD k 0#8 := by
    intro k hkl
    rw [State.readByte_addPadding, hl]
    unfold paddedBytes
    by_cases h : k < bytes.length
    · rw [if_neg (by omega), hr k h]
      simp [List.getElem?_append_left h, h]
    · rw [if_pos (by omega), List.getD_eq_getElem?_getD, List.getElem?_append_right (by omega),
        List.getElem?_replicate, if_pos (by omega)]
      rfl
  obtain ⟨r, hf⟩ := (hflow _ hx rfl (by omega)).1 rfl
  refine ⟨{ u.body .streamEnc with resp := r }, ?_, rfl, fun k => ?_⟩
  · rw [hf, ht]
    have hm := map_readByte_threePasses (plan := encPass) hpad (by rw [hpl]; exact hpc.2.2) hrp u.addPadding.encPasses
    have hkey : ∀ k, u.addPadding.key k = s.key k := fun k => by simp [State.key, hs]
    rw [hkey, hkey, hkey] at hm
    unfold streamCipher
    rw [← hm]
    rfl
  · have h1 := State.body_slot .streamEnc u (by decide) k
    rw [hs] at h1
    cases k <;> exact h1

/-- The flow of STREAM_DEC over whole blocks that fit, from an Idle core with three valid slots, where what they decrypt to
is a string with its padding: the flow gives the string (48 R242). -/
theorem hostOverBuffer_streamDec {s : State} {bytes plain : List Byte} (he : s.eng = .idle) (hk : ∀ k, s.kv k = true)
    (hn : bytes.length ≤ bufBytes) (h8 : bytes.length % 8 = 0)
    (hd : mapBlocks (ede3Decrypt (s.key .a) (s.key .b) (s.key .c)) bytes = paddedBytes plain) :
    ∃ t, hostOverBuffer [.whole] .streamDec bytes s = .ok (plain, t) ∧ t.eng = .idle ∧ ∀ k, t.slot k = s.slot k := by
  have hpc := padCount_range plain.length
  have hlen := congrArg List.length hd
  rw [length_mapBlocks _ h8] at hlen
  have hpl : (paddedBytes plain).length = plain.length + padCount plain.length := by simp [paddedBytes]
  obtain ⟨u, hu, hl, hr, hflow⟩ := hostOverBuffer_whole (i := .streamDec) rfl he hn
  have hs : ∀ k, u.slot k = s.slot k := by rw [hu]; intro k; cases k <;> rfl
  have hx : exec .streamDec u = .next (u.body .streamDec) := by
    apply exec_of_pass
    have hkv : u.allKv = true := u.allKv_iff.2 fun k => by simpa [State.kv, hs] using hk k
    have hz : ¬ u.len = 0 := by omega
    simp [State.checks, State.streamDecChecks, firstError, State.tooLong_eq_false (s := u) (by omega),
      State.emptyOrUnaligned, hz, State.unaligned_eq_false (s := u) (by omega), hkv]
  have hm := map_readByte_threePasses (plan := decPass) hl h8 hr u.decPasses
  have hkey : ∀ k, u.key k = s.key k := fun k => by simp [State.key, hs]
  rw [hkey, hkey, hkey, hd] at hm
  have hb : ∀ k, k < bytes.length → (u.threePasses decPass).readByte k = (paddedBytes plain).getD k 0#8 := by
    intro k hkl
    rw [← hm]
    simp [hkl]
  have hlast : (u.threePasses decPass).lastByte = BitVec.ofNat 8 (padCount plain.length) := by
    unfold State.lastByte
    rw [State.len_threePasses, hl, hb _ (by omega)]
    unfold paddedBytes
    rw [List.getD_eq_getElem?_getD, List.getElem?_append_right (by omega), List.getElem?_replicate, if_pos (by omega)]
    rfl
  have hval : (BitVec.ofNat 8 (padCount plain.length)).toNat = padCount plain.length := by
    rw [BitVec.toNat_ofNat]
    exact Nat.mod_eq_of_lt (by omega)
  have hgood : badPadding (u.threePasses decPass).lastByte = false := by
    rw [hlast]
    unfold badPadding
    simp only [BitVec.lt_def, hval, Bool.or_eq_false_iff, decide_eq_false_iff_not]
    exact ⟨by simp; omega, by simp; omega⟩
  have hbody : u.body .streamDec = (u.threePasses decPass).dropPadding.complete .ok := by
    simp only [State.body, State.unpadEnd, hgood]
    rfl
  have ht : (u.body .streamDec).len = plain.length := by
    rw [hbody, State.len_complete]
    unfold State.dropPadding
    rw [hlast, hval, State.len_threePasses, State.len_setLen _ (by omega)]
    omega
  have hok : (u.body .streamDec).errCode = .ok := by rw [hbody]; rfl
  have hidle : (u.body .streamDec).eng = .idle := by rw [hbody]; rfl
  obtain ⟨r, hf⟩ := (hflow _ hx hidle (by omega)).1 hok
  refine ⟨{ u.body .streamDec with resp := r }, ?_, hidle, fun k => ?_⟩
  · rw [hf, ht]
    refine congrArg (fun l => Except.ok (l, _)) (eq_map_readByte fun k hkl => ?_)
    have h1 : (u.body .streamDec).readByte k = (u.threePasses decPass).readByte k := by rw [hbody]; rfl
    rw [h1, hb k (by omega)]
    unfold paddedBytes
    simp [List.getElem?_append_left hkl, hkl]
  · have h1 := State.body_slot .streamDec u (by decide) k
    rw [hs] at h1
    cases k <;> exact h1

/-! ### Loading the keys (48 R241) -/

/-- SETKEY while Idle: the slot holds the key and is valid, and nothing else changes but the port's response (30 R77). -/
theorem hostPlay_asmSetKey {s : State} (he : s.eng = .idle) (k : Slot) (v : Key) :
    hostPlay (asmSetKey k v) s = .ok ((s.setSlot k { key := v, hw := true, lw := true }).respond (.write false)) := by
  have hi : regAt (keyHiAddr k) = .keyHi k ∧ misaligned (keyHiAddr k) = false := by cases k <;> exact ⟨rfl, rfl⟩
  have lo : regAt (keyLoAddr k) = .keyLo k ∧ misaligned (keyLoAddr k) = false := by cases k <;> exact ⟨rfl, rfl⟩
  unfold asmSetKey asmWr
  rw [hostPlay_cons_access, hostPlay_cons_access,
    State.access_wr_performed s hi.2 (.inl (State.busy_of_idle he)), hi.1]
  have he2 : (State.respond (s.writeReg (.keyHi k) (0#8 ++ v.extractLsb' 32 24)) (.write false)).eng = .idle := by
    cases k <;> exact he
  rw [State.access_wr_performed _ lo.2 (.inl (State.busy_of_idle he2)), lo.1]
  have hv : ∀ old : Key, (((0#8 ++ v.extractLsb' 32 24 : BitVec 32).extractLsb' 0 24 ++ old.extractLsb' 0 32 :
      BitVec 56)).extractLsb' 32 24 ++ v.extractLsb' 0 32 = (v : BitVec (24 + 32)) := by
    intro old
    apply BitVec.eq_of_getLsbD_eq
    intro i hi
    simp only [BitVec.getLsbD_append, BitVec.getLsbD_extractLsb']
    by_cases h : i < 32
    · simp [h]
    · have h1 : i - 32 < 24 := by omega
      have h2 : ¬ (32 + (i - 32) < 32) := by omega
      have h4 : 32 + (i - 32) = i := by omega
      simp [h, h1, h4]
  have hw : ∀ old : KeySlot, KeySlot.mk (((0#8 ++ v.extractLsb' 32 24 : BitVec 32).extractLsb' 0 24 ++
      old.key.extractLsb' 0 32 : BitVec 56).extractLsb' 32 24 ++ v.extractLsb' 0 32) true true = KeySlot.mk v true true :=
    fun old => congrArg (fun x : Key => KeySlot.mk x true true) (hv old.key)
  cases k
  · exact congrArg (fun x => Except.ok ({ s with slotA := x, resp := some (.write false) } : State)) (hw s.slotA)
  · exact congrArg (fun x => Except.ok ({ s with slotB := x, resp := some (.write false) } : State)) (hw s.slotB)
  · exact congrArg (fun x => Except.ok ({ s with slotC := x, resp := some (.write false) } : State)) (hw s.slotC)

/-- A list of seven bytes that BUF holds from byte `i` on is the fragment that LDKEYS reads there (20 R55). -/
theorem keyOfFragment_eq_memRead {u : State} {i : Nat} {f : List Byte} (hf : f.length = 7)
    (h : ∀ k, k < 7 → u.readByte (i + k) = f.getD k 0#8) : keyOfFragment f = some (u.memRead i 7) := by
  match f, hf with
  | [f0, f1, f2, f3, f4, f5, f6], _ =>
    have h0 : ∀ a : Byte, (0#0 ++ a : BitVec (0 + 8)) = a := by
      intro a
      apply BitVec.eq_of_getLsbD_eq
      intro b hb
      rw [BitVec.getLsbD_append, if_pos hb]
    have e0 : u.readByte i = f0 := h 0 (by decide)
    have e1 : u.readByte (i + 1) = f1 := h 1 (by decide)
    have e2 : u.readByte (i + 2) = f2 := h 2 (by decide)
    have e3 : u.readByte (i + 3) = f3 := h 3 (by decide)
    have e4 : u.readByte (i + 4) = f4 := h 4 (by decide)
    have e5 : u.readByte (i + 5) = f5 := h 5 (by decide)
    have e6 : u.readByte (i + 6) = f6 := h 6 (by decide)
    rw [← e0, ← e1, ← e2, ← e3, ← e4, ← e5, ← e6]
    exact congrArg (fun x : BitVec 8 => some (x ++ u.readByte (i + 1) ++ u.readByte (i + 2) ++ u.readByte (i + 3) ++
      u.readByte (i + 4) ++ u.readByte (i + 5) ++ u.readByte (i + 6))) (h0 (u.readByte i)).symm

/-- Loading a key file of at least 21 bytes into an Idle core, either way: its three fragments are the keys, all slots are
valid, and the core is Idle (48 R241, 20 R55). -/
theorem hostLoadKeys_whole {s : State} {file : List Byte} {ka kb kc : Key} (way : KeyLoading) (he : s.eng = .idle)
    (h21 : 21 ≤ file.length) (hn : file.length ≤ bufBytes) (ha : keyOfFragment (file.take 7) = some ka)
    (hb : keyOfFragment ((file.drop 7).take 7) = some kb) (hc : keyOfFragment ((file.drop 14).take 7) = some kc) :
    ∃ t, hostLoadKeys [.whole] way file s = .ok t ∧ t.eng = .idle ∧
      t.slotA = { key := ka, hw := true, lw := true } ∧ t.slotB = { key := kb, hw := true, lw := true } ∧
      t.slotC = { key := kc, hw := true, lw := true } := by
  have hbb := bufBytes_admitted
  cases way with
  | setkey =>
    have hl : hostLoadKeys [.whole] .setkey file s = hostPlay (asmSetKey .a ka ++ asmSetKey .b kb ++ asmSetKey .c kc) s := by
      simp only [hostLoadKeys, asmSetKeys, ha, hb, hc]
    have p1 := hostPlay_asmSetKey he .a ka
    generalize hs1 : (s.setSlot .a { key := ka, hw := true, lw := true }).respond (.write false) = s1 at p1
    have he1 : s1.eng = .idle := by rw [← hs1]; exact he
    have p2 := hostPlay_asmSetKey he1 .b kb
    generalize hs2 : (s1.setSlot .b { key := kb, hw := true, lw := true }).respond (.write false) = s2 at p2
    have he2 : s2.eng = .idle := by rw [← hs2]; exact he1
    refine ⟨(s2.setSlot .c { key := kc, hw := true, lw := true }).respond (.write false), ?_, ?_, ?_, ?_, ?_⟩
    · rw [hl, hostPlay_append, hostPlay_append, p1]
      simp only [Except.bind]
      rw [p2]
      exact hostPlay_asmSetKey he2 .c kc
    · exact he2
    · show s2.slotA = _
      rw [← hs2]
      show s1.slotA = _
      rw [← hs1]
      rfl
    · show s2.slotB = _
      rw [← hs2]
      rfl
    · rfl
  | ldkeys =>
    obtain ⟨b, r, hp, hr⟩ := hostPlay_asmLoadFile file he hn
    have hlen : (BitVec.ofNat 32 file.length).toNat = file.length := by
      rw [BitVec.toNat_ofNat]
      exact Nat.mod_eq_of_lt (by omega)
    generalize hu : State.submitted { s with buf := b, length := BitVec.ofNat 32 file.length, resp := r } .ldkeys = u
    have hul : u.len = file.length := by rw [← hu]; exact hlen
    have hur : ∀ k, k < file.length → u.readByte k = file.getD k 0#8 := by
      rw [← hu]
      exact hr _ rfl rfl
    have hx : exec .ldkeys u = .next (u.body .ldkeys) := by
      apply exec_of_pass
      have h2 : u.shortKeyFile = false := decide_eq_false (by omega)
      simp [State.checks, State.ldkeysChecks, firstError, State.tooLong_eq_false (s := u) (by omega), h2]
    have hcmd := hostCommand_whole (i := .ldkeys) (t := u.body .ldkeys) rfl
      (s := { s with buf := b, length := BitVec.ofNat 32 file.length, resp := r }) he (by rw [hu]; exact hx) rfl
    have hfrag : ∀ i f, f = (file.drop i).take 7 → i + 7 ≤ file.length → keyOfFragment f = some (u.memRead i 7) := by
      intro i f hf hi
      refine keyOfFragment_eq_memRead (by rw [hf]; simp; omega) fun k hk => ?_
      rw [hur _ (by omega), hf]
      simp [hk]
    have e1 : ka = u.memRead 0 7 := by
      have := hfrag 0 (file.take 7) rfl (by omega)
      rw [ha] at this
      exact Option.some.inj this
    have e2 : kb = u.memRead 7 7 := by
      have := hfrag 7 _ rfl (by omega)
      rw [hb] at this
      exact Option.some.inj this
    have e3 : kc = u.memRead 14 7 := by
      have := hfrag 14 _ rfl (by omega)
      rw [hc] at this
      exact Option.some.inj this
    refine ⟨(u.body .ldkeys).respond (.read (u.body .ldkeys).statusWord false), ?_, rfl, ?_, ?_, ?_⟩
    · unfold hostLoadKeys
      simp only
      rw [if_pos hn, hp]
      exact hcmd
    · rw [e1]; rfl
    · rw [e2]; rfl
    · rw [e3]; rfl

/-! ### Cutting a file into chunks (48 R243) -/

/-- With enough fuel the chunks are a split that 48 R243 allows: all but the last are BUF_BYTES long, the last fits the last
command, and, but for STREAM_ENC, it is not empty where the file is not. -/
theorem cutFile_split (i : Instr) (fuel : Nat) (bytes : List Byte) (h : bytes.length ≤ fuel) :
    ∃ cs last, cutFile i fuel bytes = cs ++ [last] ∧ cs.flatten ++ last = bytes ∧ (∀ c ∈ cs, c.length = bufBytes) ∧
      roomFor i last.length ≤ bufBytes ∧ (i ≠ .streamEnc → bytes ≠ [] → last ≠ []) := by
  have hb := bufBytes_admitted
  induction fuel generalizing bytes with
  | zero =>
    refine ⟨[], bytes, rfl, rfl, by simp, ?_, fun _ hne => hne⟩
    unfold roomFor padCount
    split <;> omega
  | succ fuel ih =>
    unfold cutFile
    by_cases hr : roomFor i bytes.length ≤ bufBytes
    · rw [if_pos hr]
      exact ⟨[], bytes, rfl, rfl, by simp, hr, fun _ hne => hne⟩
    · rw [if_neg hr]
      have hge : bufBytes ≤ bytes.length ∧ (i ≠ .streamEnc → bufBytes < bytes.length) := by
        unfold roomFor padCount at hr
        split at hr
        · next he => exact ⟨by omega, fun hne => absurd he hne⟩
        · exact ⟨by omega, fun _ => by omega⟩
      obtain ⟨cs, last, h1, h2, h3, h4, h5⟩ := ih (bytes.drop bufBytes) (by simp; omega)
      refine ⟨bytes.take bufBytes :: cs, last, by rw [h1]; rfl, ?_, ?_, h4, fun hi _ => h5 hi ?_⟩
      · rw [List.flatten_cons, List.append_assoc, h2, List.take_append_drop]
      · intro c hc
        rcases List.mem_cons.1 hc with rfl | hc
        · simp [hge.1]
        · exact h3 c hc
      · intro hnil
        have := congrArg List.length hnil
        have := hge.2 hi
        simp at *
        omega

end Sys2Proof.Machine
end

