-- ==== Sys2Proof/Laws/PerInstr.lean ====
section
/-! SUPPORT. One lemma per constructor: the fields of an instruction's command word (spec 30 R70 to R72), and that no word it
encodes to is one of the illegal ones (30 R73). -/

namespace Sys2Proof.Laws.EncodeFields

/-- For a well-formed instruction the word carries its OP and KSEL, RSV is 0, KSEL is 0 unless the operation takes a slot,
and OP is none of the reserved values. -/
def Statement (i : Instr) : Prop :=
  i.WellFormed →
    opField (encode i) = opOf i ∧ kselField (encode i) = kselOf i ∧ rsvField (encode i) = 0#26 ∧
      (encode i).toNat = 16 * (kselOf i).toNat + (opOf i).toNat ∧ kselOf i ≠ 3#2 ∧ opOf i < 0xC#4

theorem nop : Statement .nop := by unfold Statement; decide
theorem desEnc (ksel : BitVec 2) : Statement (.desEnc ksel) := by
  unfold Statement
  revert ksel
  decide
theorem desDec (ksel : BitVec 2) : Statement (.desDec ksel) := by
  unfold Statement
  revert ksel
  decide
theorem ede3Enc : Statement .ede3Enc := by unfold Statement; decide
theorem ede3Dec : Statement .ede3Dec := by unfold Statement; decide
theorem bufEde3Enc : Statement .bufEde3Enc := by unfold Statement; decide
theorem bufEde3Dec : Statement .bufEde3Dec := by unfold Statement; decide
theorem pad : Statement .pad := by unfold Statement; decide
theorem unpad : Statement .unpad := by unfold Statement; decide
theorem streamEnc : Statement .streamEnc := by unfold Statement; decide
theorem streamDec : Statement .streamDec := by unfold Statement; decide
theorem ldkeys : Statement .ldkeys := by unfold Statement; decide

end Sys2Proof.Laws.EncodeFields
end

