-- ==== Sys2Proof/Tests/Slice0.lean ====
section
/-! SUPPORT. Tests. Every expected value is the spec's: V1, V13, V14 and T1 to T65 are the rows of 95_test_vectors.md. Then,
for every statement with hypotheses, a witness that meets them all, at the boundary values of each clause. -/

namespace Sys2Proof.Tests

open Sys2Proof Sys2Proof.Machine

/-! ### Small states -/

/-- The three slots of V13, all valid. -/
def keyed : State :=
  { State.reset with
    slotA := { key := 0xF0CCAA0AACCF00#56, hw := true, lw := true }
    slotB := { key := 0x78665505566780#56, hw := true, lw := true }
    slotC := { key := 0x3C33AA0AA333C0#56, hw := true, lw := true } }

/-- `keyed` with LENGTH = n. -/
def keyedLen (n : Nat) : State := { keyed with length := BitVec.ofNat 32 n }

/-- LENGTH = n and no slot valid. -/
def bareLen (n : Nat) : State := { State.reset with length := BitVec.ofNat 32 n }

/-- The cells that hold these bytes from byte `i` on. -/
def cellsFrom : Nat → List Byte → Memory
  | _, [] => []
  | i, b :: bs => (i, b) :: cellsFrom (i + 1) bs

/-- `keyed` with these bytes in BUF and LENGTH = n. -/
def loaded (bytes : List Byte) (n : Nat) : State := { keyedLen n with buf := cellsFrom 0 bytes }

/-- `keyed` while the command `i` is in the phase `p`. -/
def running (i : Instr) (p : Phase) : State := { keyed with eng := .run (.op i) p }

/-- DOUT and the result code of an outcome. -/
def doutOf : Result → Option (Block × ErrCode)
  | .next t => some (t.dout, t.errCode)
  | .fault _ | .refused _ => none

/-- LENGTH, the first `n` bytes of BUF and the result code of a state. -/
def bufferOf (n : Nat) (t : State) : Nat × List Byte × ErrCode := (t.len, (List.range n).map t.readByte, t.errCode)

theorem len_keyedLen {n : Nat} (h : n < 2 ^ 32) : (keyedLen n).len = n := by
  simpa [State.len, keyedLen] using h

theorem len_bareLen {n : Nat} (h : n < 2 ^ 32) : (bareLen n).len = n := by
  simpa [State.len, bareLen] using h

theorem keyed_slots (k : Slot) : keyed.kv k = true := by cases k <;> decide

theorem keyedLen_slots (n : Nat) (k : Slot) : (keyedLen n).kv k = true := by cases k <;> rfl

theorem bareLen_slots (n : Nat) (k : Slot) : (bareLen n).kv k = false := by cases k <;> rfl

theorem keyed_inv : Inv keyed := ⟨Memory.wf_nil, trivial, fun h => absurd h (by decide)⟩

/-! ### WellFormed: the one check, on both constructors that carry a KSEL (30 R73 (c)) -/

theorem test_wf_refuses_desEnc_slot3 : ¬ (Instr.desEnc 3#2).WellFormed := by decide
theorem test_wf_refuses_desDec_slot3 : ¬ (Instr.desDec 3#2).WellFormed := by decide
theorem test_wf_takes_every_other_term :
    (Instr.desEnc 2#2).WellFormed ∧ (Instr.desDec 0#2).WellFormed ∧ Instr.nop.WellFormed ∧ Instr.ldkeys.WellFormed := by
  decide

/-! ### Decoding: every constructor from a word written out from 30 R71 -/

theorem test_decode_nop : decode 0b00000000000000000000000000000000#32 = .ok .nop := by rfl
theorem test_decode_desEnc : decode 0b00000000000000000000000000010001#32 = .ok (.desEnc 1#2) := by rfl
theorem test_decode_desDec : decode 0b00000000000000000000000000100010#32 = .ok (.desDec 2#2) := by rfl
theorem test_decode_ede3Enc : decode 0b00000000000000000000000000000011#32 = .ok .ede3Enc := by rfl
theorem test_decode_ede3Dec : decode 0b00000000000000000000000000000100#32 = .ok .ede3Dec := by rfl
theorem test_decode_bufEde3Enc : decode 0b00000000000000000000000000000101#32 = .ok .bufEde3Enc := by rfl
theorem test_decode_bufEde3Dec : decode 0b00000000000000000000000000000110#32 = .ok .bufEde3Dec := by rfl
theorem test_decode_pad : decode 0b00000000000000000000000000000111#32 = .ok .pad := by rfl
theorem test_decode_unpad : decode 0b00000000000000000000000000001000#32 = .ok .unpad := by rfl
theorem test_decode_streamEnc : decode 0b00000000000000000000000000001001#32 = .ok .streamEnc := by rfl
theorem test_decode_streamDec : decode 0b00000000000000000000000000001010#32 = .ok .streamDec := by rfl
theorem test_decode_ldkeys : decode 0b00000000000000000000000000001011#32 = .ok .ldkeys := by rfl

/-- T57, T58, T59, T33 and 30 R73 (c) for DES_DEC: each refusal has its own name. -/
theorem test_decode_refusals :
    decode 0x00000013#32 = .error .kselNotZero ∧ decode 0x00000040#32 = .error .reservedBits ∧
      decode 0x0000000F#32 = .error .reservedOp ∧ decode 0x0000000C#32 = .error .reservedOp ∧
      decode 0x00000031#32 = .error .noSuchSlot ∧ decode 0x00000032#32 = .error .noSuchSlot := by
  exact ⟨rfl, rfl, rfl, rfl, rfl, rfl⟩

/-- The excluded word of the opcode table's row DES_ENC, and the row's first word. -/
theorem test_decodeTableWord : decodeTableWord 32 0x31 = none ∧ decodeTableWord 32 0x01 = some (.desEnc 0#2) := by
  exact ⟨rfl, rfl⟩

/-! ### The units under the commands (40 to 43) -/

/-- T1, T3, T5, T9. -/
theorem test_permutations :
    initialPerm 0x0123456789ABCDEF#64 = 0xCC00CCFFF0AAF0AA#64 ∧
      finalPerm 0x8000000000000000#64 = 0x0000000000000040#64 ∧
      expand 0xF0AAF0AA#32 = 0x7A15557A1555#48 ∧ roundPerm 0x5C82B597#32 = 0x234AA9BB#32 := by
  decide +kernel

/-- V10, subkeys 0, 8 and 15. -/
theorem test_keySchedule :
    (keySchedule 0xF0CCAAF556678F#56)[0]? = some 0x1B02EFFC7072#48 ∧
      (keySchedule 0xF0CCAAF556678F#56)[8]? = some 0xE0DBEBEDE781#48 ∧
      (keySchedule 0xF0CCAAF556678F#56)[15]? = some 0xCB3D8B0E17F5#48 := by
  decide +kernel

/-- T12. -/
theorem test_keySchedule_zero : keySchedule 0#56 = List.replicate 16 0#48 := by decide +kernel

theorem zero_key_subkeys : ∀ x ∈ keySchedule 0#56, x = 0#48 := by
  rw [test_keySchedule_zero]
  exact fun x h => List.eq_of_mem_replicate h

/-- T20, T21, T22: row and column of the S-boxes. -/
theorem test_substitute :
    substitute 0x820820820820#48 = 0x40DA4917#32 ∧ substitute 0x041041041041#48 = 0x03DDEAD1#32 ∧
      substitute 0x79E79E79E79E#48 = 0x7A8F9B17#32 := by
  decide +kernel

/-- T27. -/
theorem test_roundFn : roundFn 0xF0AAF0AA#32 0x1B02EFFC7072#48 = 0x234AA9BB#32 := by decide +kernel

/-- V5 and V9: tables that differ from the standard's in one S-box entry fail one of these or V1. -/
theorem test_des_known_answers :
    desEncrypt 0x02D943AF0C9715#56 0x01A1D6D039776742#64 = 0x690F5B0D9A26939B#64 ∧
      desEncrypt 0xEA30EAEB8E52AE#56 0x42FD443059577FA2#64 = 0xAF37FB421F8C4095#64 := by
  decide +kernel

/-! ### Each command, one step -/

/-- T54. -/
theorem test_nop_clears_a_stale_code : doutOf (exec .nop { keyed with errCode := .keyErr }) = some (0#64, .ok) := by
  decide +kernel

/-- V1. -/
theorem test_desEnc_v1 :
    doutOf (exec (.desEnc 0#2) { keyed with slotA := { key := 0xF0CCAAF556678F#56, hw := true, lw := true },
                                            din := 0x0123456789ABCDEF#64 }) =
      some (0x85E813540F0AB405#64, .ok) := by
  decide +kernel

/-- T32: one half of the slot written is not enough, and DOUT keeps the older result. -/
theorem test_desEnc_key_error :
    doutOf (exec (.desEnc 0#2) { State.reset with slotA := { key := 1#56, hw := true, lw := false }, dout := 7#64 }) =
      some (7#64, .keyErr) := by
  decide +kernel

/-- V1 reversed, in slot B. -/
theorem test_desDec_v1 :
    doutOf (exec (.desDec 1#2) { keyed with slotB := { key := 0xF0CCAAF556678F#56, hw := true, lw := true },
                                            din := 0x85E813540F0AB405#64 }) =
      some (0x0123456789ABCDEF#64, .ok) := by
  decide +kernel

/-- V13. -/
theorem test_ede3Enc_v13 :
    doutOf (exec .ede3Enc { keyed with din := 0x5468652071756663#64 }) = some (0xA826FD8CE53B855F#64, .ok) := by
  decide +kernel

/-- V13 reversed. -/
theorem test_ede3Dec_v13 :
    doutOf (exec .ede3Dec { keyed with din := 0xA826FD8CE53B855F#64 }) = some (0x5468652071756663#64, .ok) := by
  decide +kernel

/-- V13's last block, as window bytes; the ninth byte is past LENGTH and stays. -/
theorem test_bufEde3Enc_v13 :
    bufferOf 9 ((loaded [0x66#8, 0x6F#8, 0x78#8, 0x20#8, 0x6A#8, 0x75#8, 0x6D#8, 0x70#8, 0x99#8] 8).body .bufEde3Enc) =
      (8, [0x68#8, 0xD5#8, 0xC0#8, 0x5D#8, 0xD9#8, 0xB6#8, 0xB9#8, 0x00#8, 0x99#8], .ok) := by
  decide +kernel

/-- T35. -/
theorem test_bufEde3Enc_unaligned : exec .bufEde3Enc (keyedLen 12) = .next ((keyedLen 12).complete .invalidInput) := by
  have hb := bufBytes_admitted
  have hl : (keyedLen 12).len = 12 := len_keyedLen (by decide)
  exact exec_of_fail (by simp [State.checks, State.bufChecks, firstError, State.tooLong, State.unaligned, hl]; omega)

/-- V13's last block reversed. -/
theorem test_bufEde3Dec_v13 :
    bufferOf 8 ((loaded [0x68#8, 0xD5#8, 0xC0#8, 0x5D#8, 0xD9#8, 0xB6#8, 0xB9#8, 0x00#8] 8).body .bufEde3Dec) =
      (8, [0x66#8, 0x6F#8, 0x78#8, 0x20#8, 0x6A#8, 0x75#8, 0x6D#8, 0x70#8], .ok) := by
  decide +kernel

/-- T36. -/
theorem test_bufEde3Dec_too_long :
    exec .bufEde3Dec (keyedLen (bufBytes + 8)) = .next ((keyedLen (bufBytes + 8)).complete .lengthErr) := by
  have hb := bufBytes_admitted
  have hl : (keyedLen (bufBytes + 8)).len = bufBytes + 8 := len_keyedLen (by omega)
  exact exec_of_fail (by simp [State.checks, State.bufChecks, firstError, State.tooLong, hl])

/-- T39. -/
theorem test_pad_hello :
    bufferOf 8 ((loaded [0x68#8, 0x65#8, 0x6C#8, 0x6C#8, 0x6F#8] 5).body .pad) =
      (8, [0x68#8, 0x65#8, 0x6C#8, 0x6C#8, 0x6F#8, 0x03#8, 0x03#8, 0x03#8], .ok) := by
  decide +kernel

/-- T47. -/
theorem test_pad_full : exec .pad (keyedLen bufBytes) = .next ((keyedLen bufBytes).complete .lengthErr) := by
  have hb := bufBytes_admitted
  have hl : (keyedLen bufBytes).len = bufBytes := len_keyedLen (by omega)
  exact exec_of_fail (by simp [State.checks, State.padChecks, firstError, State.tooLong, State.noRoom, padCount, hl]; omega)

/-- T41: only the last byte is checked. -/
theorem test_unpad_checks_the_last_byte_only :
    bufferOf 8 ((loaded [0x68#8, 0x65#8, 0x6C#8, 0x6C#8, 0x6F#8, 0x05#8, 0x03#8, 0x03#8] 8).body .unpad) =
      (5, [0x68#8, 0x65#8, 0x6C#8, 0x6C#8, 0x6F#8, 0x05#8, 0x03#8, 0x03#8], .ok) := by
  decide +kernel

/-- T42. -/
theorem test_unpad_rejects_nine :
    bufferOf 1 ((loaded [0x01#8, 0x02#8, 0x03#8, 0x04#8, 0x05#8, 0x06#8, 0x07#8, 0x09#8] 8).body .unpad) =
      (8, [0x01#8], .invalidPadding) := by
  decide +kernel

/-- V14, "hello". -/
theorem test_streamEnc_v14 :
    bufferOf 8 ((loaded [0x68#8, 0x65#8, 0x6C#8, 0x6C#8, 0x6F#8] 5).body .streamEnc) =
      (8, [0xEE#8, 0x11#8, 0xCB#8, 0x6D#8, 0x30#8, 0x71#8, 0x94#8, 0xE4#8], .ok) := by
  decide +kernel

/-- T50. -/
theorem test_streamEnc_key_error : exec .streamEnc (bareLen 5) = .next ((bareLen 5).complete .keyErr) := by
  have hb := bufBytes_admitted
  have hl : (bareLen 5).len = 5 := len_bareLen (by decide)
  have hk : (bareLen 5).allKv = false := rfl
  have ht : (bareLen 5).tooLong = false := by
    simp only [State.tooLong, hl, decide_eq_false_iff_not]
    omega
  have hr : (bareLen 5).noRoom = false := by
    simp only [State.noRoom, padCount, hl, decide_eq_false_iff_not]
    omega
  exact exec_of_fail (by simp [State.checks, State.streamEncChecks, firstError, ht, hr, hk])

/-- T49: INVALID_PADDING leaves BUF decrypted. -/
theorem test_streamDec_invalid_padding :
    bufferOf 8 ((loaded [0x9E#8, 0xF8#8, 0x14#8, 0xA3#8, 0x5F#8, 0x46#8, 0xD0#8, 0x3E#8] 8).body .streamDec) =
      (8, [0x01#8, 0x02#8, 0x03#8, 0x04#8, 0x05#8, 0x06#8, 0x07#8, 0x09#8], .invalidPadding) := by
  decide +kernel

/-- T51. -/
theorem test_streamDec_ranking : exec .streamDec (bareLen 12) = .next ((bareLen 12).complete .invalidInput) := by
  have hb := bufBytes_admitted
  have hl : (bareLen 12).len = 12 := len_bareLen (by decide)
  have ht : (bareLen 12).tooLong = false := by
    simp only [State.tooLong, hl, decide_eq_false_iff_not]
    omega
  exact exec_of_fail (by
    simp [State.checks, State.streamDecChecks, firstError, ht, State.emptyOrUnaligned, State.unaligned, hl])

/-- The key file of T52. -/
def keyFile : List Byte :=
  [0xF0#8, 0xCC#8, 0xAA#8, 0x0A#8, 0xAC#8, 0xCF#8, 0x00#8, 0x78#8, 0x66#8, 0x55#8, 0x05#8, 0x56#8, 0x67#8, 0x80#8,
   0x3C#8, 0x33#8, 0xAA#8, 0x0A#8, 0xA3#8, 0x33#8, 0xC0#8]

/-- T52: KEYA_HI, KEYB_LO, KEYC_LO and STATUS. -/
theorem test_ldkeys_t52 :
    (let t := (loaded keyFile 21).body .ldkeys
     (t.regValue (.keyHi .a), t.regValue (.keyLo .b), t.regValue (.keyLo .c), t.statusWord)) =
      (0x00F0CCAA#32, 0x05566780#32, 0x0AA333C0#32, 0x00000702#32) := by
  decide +kernel

/-- T53. -/
theorem test_ldkeys_short : exec .ldkeys (bareLen 20) = .next ((bareLen 20).complete .keyErr) := by
  have hb := bufBytes_admitted
  have hl : (bareLen 20).len = 20 := len_bareLen (by decide)
  exact exec_of_fail (by
    simp [State.checks, State.ldkeysChecks, firstError, State.tooLong, State.shortKeyFile, hl]
    omega)

/-! ### The bus and the step -/

/-- T61, T62, T63. -/
theorem test_bus_reads :
    (keyed.access (.rd 0x0002#16)).resp = some (.read 0#32 true) ∧
      (keyed.access (.rd 0x0000#16)).resp = some (.read 0x44455333#32 false) ∧
      (keyed.access (.rd 0x0024#16)).resp = some (.read 0#32 false) := by
  decide +kernel

/-- T64 and T65. -/
theorem test_bus_writes :
    (let t := (running .nop .check).access (.wr 0x0050#16 5#32); (t.din, t.werr)) = (0#64, true) ∧
      (let t := { keyed with done := true, werr := true }.access (.wr 0x000C#16 6#32); (t.done, t.werr)) =
        (false, false) := by
  decide +kernel

/-- The first step after a host has submitted a command runs it (60 R301, 45 R211). -/
theorem test_step_runs_the_placed_command : doutOf (step (State.reset.withFetchWord 32 0x00000001)) = some (0#64, .keyErr) := by
  decide +kernel

/-- 93 U5, program P4: the order of `inputs` decides whether the second command is dropped. -/
theorem test_both_orders :
    (let s := { keyed with inputs := [.access (.wr 0x0008#16 0#32), .access (.wr 0x0008#16 0#32), .run] }
     match step s with
     | .next t => (match step t with | .next u => u.werr | _ => false)
     | _ => false) = true ∧
    (let s := { keyed with inputs := [.access (.wr 0x0008#16 0#32), .run, .access (.wr 0x0008#16 0#32)] }
     match step s with
     | .next t =>
       (match step t with
        | .next u => (match step u with | .next v => v.busy && !v.werr | _ => false)
        | _ => false)
     | _ => false) = true := by
  decide +kernel

/-! ### Host programs (30 R77, 48 R241 to R243) -/

/-- P2's first lines: the key file of T52 as window words, the last one filled with 0x00, and LENGTH = 21. -/
theorem test_load_lines :
    asmLoadFile keyFile =
      [asmWr 0x1000#16 0xF0CCAA0A#32, asmWr 0x1004#16 0xACCF0078#32, asmWr 0x1008#16 0x66550556#32,
       asmWr 0x100C#16 0x67803C33#32, asmWr 0x1010#16 0xAA0AA333#32, asmWr 0x1014#16 0xC0000000#32,
       asmWr 0x0014#16 0x00000015#32] := by
  decide +kernel

/-- The register values of T52, written with SETKEY; a file of 20 bytes gives no third fragment. -/
theorem test_setkey_lines :
    asmSetKeys keyFile =
      some [asmWr 0x0030#16 0x00F0CCAA#32, asmWr 0x0034#16 0x0AACCF00#32, asmWr 0x0038#16 0x00786655#32,
        asmWr 0x003C#16 0x05566780#32, asmWr 0x0040#16 0x003C33AA#32, asmWr 0x0044#16 0x0AA333C0#32] ∧
      asmSetKeys (keyFile.take 20) = none := by
  decide +kernel

/-- P1: DOUT_HI is read into the upper half. -/
theorem test_getdout :
    (match hostGetDout { keyed with dout := 0x85E813540F0AB405#64 } with
      | .ok (v, _) => some v
      | .error _ => none) = some 0x85E813540F0AB405#64 := by
  decide +kernel

/-- A WAIT ends at the first read with BUSY = 0, and not before. -/
theorem test_wait :
    hostWait [] (running .nop .check) = .error .waiting ∧
      (match hostWait [.single 0, .single 0] (running .nop .check) with
        | .ok t => t.done
        | .error _ => false) = true := by
  decide +kernel

/-- V14, "hello", by hand: one padded block. -/
theorem test_streamCipher_v14 :
    streamCipher 0xF0CCAA0AACCF00#56 0x78665505566780#56 0x3C33AA0AA333C0#56 [0x68#8, 0x65#8, 0x6C#8, 0x6C#8, 0x6F#8] =
      [0xEE#8, 0x11#8, 0xCB#8, 0x6D#8, 0x30#8, 0x71#8, 0x94#8, 0xE4#8] := by
  decide +kernel

/-- V14 as P2 runs it: load "hello", LENGTH, STREAM_ENC, WAIT, the check, and the read-back. -/
theorem test_encrypt_flow :
    ∃ t, hostOverBuffer [.whole] .streamEnc [0x68#8, 0x65#8, 0x6C#8, 0x6C#8, 0x6F#8] keyed =
      .ok ([0xEE#8, 0x11#8, 0xCB#8, 0x6D#8, 0x30#8, 0x71#8, 0x94#8, 0xE4#8], t) := by
  have hb := bufBytes_admitted
  obtain ⟨t, ht, _⟩ := hostOverBuffer_streamEnc (s := keyed) (bytes := [0x68#8, 0x65#8, 0x6C#8, 0x6C#8, 0x6F#8]) rfl
    keyed_slots (by simp [padCount]; omega)
  exact ⟨t, by rw [ht]; exact congrArg (fun c => Except.ok (c, t)) test_streamCipher_v14⟩

/-- P3: STREAM_DEC over 12 bytes ends the flow at its check, with code 3. -/
theorem test_decrypt_flow_checks_errcode :
    hostOverBuffer [.whole] .streamDec (List.replicate 12 0#8) keyed = .error (.errCode 3#4) := by
  have hb := bufBytes_admitted
  obtain ⟨u, hu, hl, _, hflow⟩ := hostOverBuffer_whole (s := keyed) (i := .streamDec) (bytes := List.replicate 12 0#8) rfl rfl
    (by simp [roomFor]; omega)
  have hl12 : u.len = 12 := by rw [hl]; rfl
  have hx : exec .streamDec u = .next (u.complete .invalidInput) :=
    exec_of_fail (by
      simp [State.checks, State.streamDecChecks, firstError, State.tooLong_eq_false (s := u) (by omega),
        State.emptyOrUnaligned, State.unaligned, hl12])
  exact (hflow _ hx rfl (by simp [hl12]; omega)).2 (fun h => nomatch h)

/-- 48 R243: a chunk that is not a multiple of 8 before the last, an empty last chunk of a decryption, and no chunk at all are
no split. -/
theorem test_bad_splits :
    hostEncryptChunks [.whole] [[1#8], [2#8]] keyed = .error .badSplit ∧
      hostDecryptChunks [.whole] [[]] keyed = .error .badSplit ∧ hostEncryptChunks [.whole] [] keyed = .error .badSplit :=
  ⟨rfl, rfl, rfl⟩

/-! ### Witnesses: concrete states and operands that meet the hypotheses of each statement -/

theorem witness_DecodeAndEncodeAgree :
    (Instr.desDec 2#2).WellFormed ∧ decode 0x00000022#32 = .ok (.desDec 2#2) := by exact ⟨rfl, rfl⟩

/-- One word for each of (a) to (d), and the largest. -/
theorem witness_IllegalWordCompletesWithIllegalCmd :
    (illegalWord 0x00000040#32 ∧ illegalWord 0x0000000C#32 ∧ illegalWord 0x00000031#32 ∧ illegalWord 0x00000010#32 ∧
      illegalWord 0xFFFFFFFF#32) ∧ ¬ illegalWord 0x00000021#32 ∧ keyed.eng = .idle := by
  refine ⟨?_, ?_, rfl⟩ <;> (unfold illegalWord; decide)

theorem witness_StepRunsTheDecodedInstruction :
    ((running .pad .check).eng = .run (.op .pad) .check ∧ (running .pad .check).inputs = []) ∧
      (let s : State := { running .pad .check with inputs := [.run, .reset] }
       s.eng = .run (.op .pad) .check ∧ s.inputs = .run :: [.reset]) ∧
      decode 0x0000000B#32 = .ok .ldkeys := by
  exact ⟨⟨rfl, rfl⟩, ⟨rfl, rfl⟩, rfl⟩

theorem witness_AcceptanceStartsTheCommand :
    (keyed.eng = .idle ∧ decodeCommand 0x00000031#32 = .illegal) ∧ (running .pad .pad).busy = true := by
  exact ⟨⟨rfl, rfl⟩, rfl⟩

theorem witness_CompleteRecordsTheCodeAndEndsTheCommand :
    (running .unpad (.complete .invalidPadding)).eng = .run (.op .unpad) (.complete .invalidPadding) := rfl

theorem witness_ResetAbortsTheRunningCommand :
    let s : State := { running .streamEnc (.pass .second [0, 2]) with inputs := [.reset, .run] }
    s.busy = true ∧ s.inputs = .reset :: [.run] := ⟨rfl, rfl⟩

/-- A later reset, out of the middle of a command, and an offset of the table. -/
theorem witness_AfterResetEveryRegisterReadsItsTableValue :
    (∃ (u : State) (rest : List Input) (s : State), u.busy = true ∧ u.inputs = .reset :: rest ∧ step u = .next s) ∧
      (0x005C#16, 0#32) ∈ resetReads := by
  exact ⟨⟨{ running .pad .check with inputs := [.reset] }, [], _, rfl, rfl, rfl⟩, by decide⟩

theorem inv_running_check (i : Instr) (h : i.WellFormed) : Inv (running i .check) :=
  ⟨Memory.wf_nil, ⟨h, trivial⟩, fun _ => ⟨rfl, rfl⟩⟩

theorem witness_SingleEngineStepsReachTheCommandsEffect :
    Inv (running .streamEnc .check) ∧ (running .streamEnc .check).eng = .run (.op .streamEnc) .check ∧
      3 * ((running .streamEnc .check).len / 8 + 1) + 3 ≤ [5, 0, 7, 1, 2, 9].length :=
  ⟨inv_running_check _ rfl, rfl, by decide⟩

theorem witness_EveryStepKeepsTheInvariant :
    Inv (running .pad .check) ∧ ∃ t, step (running .pad .check) = .next t :=
  ⟨inv_running_check _ rfl, _, rfl⟩

theorem witness_NoRunStops : Inv keyed ∧ Inv (running .ldkeys .check) := ⟨keyed_inv, inv_running_check _ rfl⟩

/-- A poll of STATUS and a turn of the engine, in turn, without end. -/
def pollAndRunEvent (n : Nat) : Input := if n % 2 = 0 then asmRd 0x000C#16 else .run

/-- NOP from its Check phase under `pollAndRunEvent`: BUSY is 1 in the first two states and 0 from then on. -/
def pollAndRunState : Nat → State
  | 0 => running .nop .check
  | 1 => (running .nop .check).access (.rd 0x000C#16)
  | 2 => ((running .nop .check).access (.rd 0x000C#16)).complete .ok
  | _ + 3 => (((running .nop .check).access (.rd 0x000C#16)).complete .ok).access (.rd 0x000C#16)

theorem pollAndRun_steps (n : Nat) : (pollAndRunState n).issue (pollAndRunEvent n) = .next (pollAndRunState (n + 1)) := by
  match n with
  | 0 => rfl
  | 1 => rfl
  | 2 => rfl
  | n + 3 =>
    unfold pollAndRunEvent
    split
    · show State.issue (pollAndRunState 3) (asmRd 0x000C#16) = .next (pollAndRunState 3)
      rfl
    · show State.issue (pollAndRunState 3) .run = .next (pollAndRunState 3)
      rfl

/-- A weakly fair execution with a running command and a host that polls for ever (70 R361). -/
theorem witness_NoRunStops_fair :
    ∃ x : Execution, x.WeaklyFair ∧ (x.state 0).busy = true ∧ x.WaitsFrom 0 := by
  have hrun : ∀ m, (pollAndRunEvent (2 * m + 1)).ofEngine = true := fun m => by
    unfold pollAndRunEvent
    rw [if_neg (by omega)]
    rfl
  have hpoll : ∀ m, pollAndRunEvent (2 * m) = asmRd 0x000C#16 := fun m => if_pos (by omega)
  refine ⟨⟨pollAndRunEvent, pollAndRunState, pollAndRun_steps⟩, fun n _ m _ => ⟨2 * m + 1, by omega, hrun m⟩, rfl,
    fun m _ => ?_, fun m _ => ⟨2 * m, by omega, hpoll m⟩⟩
  show (pollAndRunEvent m).ofEngine = true ∨ pollAndRunEvent m = _
  unfold pollAndRunEvent
  split
  · exact .inr rfl
  · exact .inl rfl

/-- The three forms of the engine's turn, on a command that is not LDKEYS and on an idle engine. -/
theorem witness_EngineLeavesTheHostsRegistersAlone :
    (enginesTurn (running .pad .check) ∧ ∃ t, step (running .pad .check) = .next t) ∧
      (∀ p, (running .pad .check).eng ≠ .run (.op .ldkeys) p) ∧
      enginesTurn { keyed with inputs := [.run] } ∧ enginesTurn { keyed with inputs := [.phase 3] } ∧
      keyed.eng = .idle ∧
      ∃ t, step { running .ldkeys .check with inputs := [.phase 0] } = .next t ∧ t.busy = true := by
  refine ⟨⟨.inl rfl, _, rfl⟩, fun p h => ?_, .inr (.inl ⟨[], rfl⟩), .inr (.inr ⟨3, [], rfl⟩), rfl, _, rfl, ?_⟩
  · simp [running] at h
  · split <;> rfl

theorem witness_OnlyResetClearsAWrittenFlag :
    (keyed.eng = .idle ∧ (Slot.c, 0x0040#16, 0x0044#16) ∈ [(Slot.a, 0x0030#16, 0x0034#16),
        (Slot.b, 0x0038#16, 0x003C#16), (Slot.c, 0x0040#16, 0x0044#16)]) ∧
      (∃ t, step keyed = .next t) ∧ (∀ rest, keyed.inputs ≠ .reset :: rest) ∧
      (keyed.slot .b).hw = true ∧ (keyed.slot .b).lw = true :=
  ⟨⟨rfl, by decide⟩, ⟨_, rfl⟩, fun _ h => by simp [keyed, State.reset] at h, rfl, rfl⟩

/-- The first and last interlocked register, the first and last window word, the first and last ignored offset below the
window. -/
theorem witness_BusyInterlockDropsWrites :
    (running .pad .check).busy = true ∧
      (interlockedOffset 0x0008 ∧ interlockedOffset 0x0054 ∧ interlockedOffset 0x1000 ∧
        interlockedOffset (0x1000 + bufBytes - 4)) ∧
      (0x0008 % 4 = 0 ∧ (0x1000 + bufBytes - 4) % 4 = 0 ∧ 0x1000 + bufBytes - 4 < 2 ^ 16) ∧
      ignoredOffset 0x0000 ∧ ignoredOffset 0x0020 ∧ ignoredOffset 0x0024 ∧ ignoredOffset 0x005C ∧ ignoredOffset 0x0FFC := by
  have hb := bufBytes_admitted
  refine ⟨rfl, ⟨.inl (by decide), .inl (by decide), .inr ⟨by omega, by omega⟩, .inr ⟨by omega, by omega⟩⟩,
    ⟨rfl, by omega, by omega⟩, .inl (by decide), .inl (by decide), .inr (.inl ⟨by decide, by decide⟩), .inl (by decide),
    .inr (.inr (.inr (.inl ⟨by decide, by decide⟩)))⟩

theorem witness_MisalignedAccessIsAnErrorWithoutEffect :
    (0x0001#16 : Addr).extractLsb' 0 2 ≠ 0#2 ∧ (0xFFFF#16 : Addr).extractLsb' 0 2 ≠ 0#2 ∧
      (0x0000#16 : Addr).extractLsb' 0 2 = 0#2 ∧ (0xFFFC#16 : Addr).extractLsb' 0 2 = 0#2 := by
  decide

/-- The first and last word of each reserved range of 10 R20; the last range is empty in the largest instance. -/
theorem witness_ReservedOffsetsReadZeroAndIgnoreWrites :
    reservedOffset 0x0024 ∧ reservedOffset 0x002C ∧ reservedOffset 0x0048 ∧ reservedOffset 0x004C ∧
      reservedOffset 0x0060 ∧ reservedOffset 0x0FFC ∧ reservedOffset (0x1000 + bufBytes) ∧
      ¬ reservedOffset 0x0020 ∧ ¬ reservedOffset 0x0030 ∧ ¬ reservedOffset 0x005C ∧ ¬ reservedOffset 0x1000 ∧
      (0x0FFC#16 : Addr).toNat % 4 = 0 := by
  have hb := bufBytes_admitted
  unfold reservedOffset
  refine ⟨?_, ?_, ?_, ?_, ?_, ?_, ?_, ?_, ?_, ?_, ?_, rfl⟩ <;> omega

theorem witness_WindowWordIsFourBytesBigEndian :
    0 < bufBytes / 4 ∧ bufBytes / 4 - 1 < bufBytes / 4 ∧ keyed.busy = false := by
  have hb := bufBytes_admitted
  exact ⟨by omega, by omega, rfl⟩

theorem witness_BlockIsTwoWindowWords :
    8 * 0 + 8 ≤ bufBytes ∧ 8 * (bufBytes / 8 - 1) + 8 ≤ bufBytes ∧ keyed.busy = false := by
  have hb := bufBytes_admitted
  exact ⟨by omega, by omega, rfl⟩

theorem witness_ReadsHaveNoSideEffect : keyed.busy = false := rfl

/-- One offset for each clause, at the window's ends too. -/
theorem witness_ReadsOfOtherRegistersAreDefinedWhileBusy :
    (running .pad .check).busy = true ∧ (0x0014#16 : Addr).toNat % 4 = 0 ∧
      (0x0014 ∈ [0x0014, 0x0058, 0x005C] ∧ inWindow 0x1000 ∧ inWindow (0x1000 + bufBytes - 4)) ∧
      (0x0050 ∉ [0x000C, 0x0014, 0x0058, 0x005C] ∧ ¬ inWindow 0x0050 ∧ ¬ inWindow 0x0FFC ∧
        ¬ inWindow (0x1000 + bufBytes)) := by
  have hb := bufBytes_admitted
  unfold inWindow
  exact ⟨rfl, rfl, ⟨by decide, by omega, by omega⟩, by decide, by omega, by omega, by omega⟩

theorem witness_RegistersReadBackWhatIsWritten :
    keyed.eng = .idle ∧ (0x0030#16, 0x00FFFFFF#32) ∈ readBackMasks ∧ (0x0034#16, 0xFFFFFFFF#32) ∈ readBackMasks ∧
      (0x0034#16 : Addr) ≠ 0x0030#16 :=
  ⟨rfl, by decide, by decide, by decide⟩

theorem witness_InterruptFollowsStatusAndEnable : keyed.eng = .idle ∧ keyed.werr = false := ⟨rfl, rfl⟩

theorem witness_SubkeyReadoutShowsTheSchedule :
    (let s : State := { keyed with skSlot := 2#2, skRound := 15#4 }
     (s.skSlot, Slot.c) ∈ [(0#2, Slot.a), (1#2, Slot.b), (2#2, Slot.c)]) ∧
      ({ keyed with skSlot := 3#2 } : State).skSlot = 3#2 := by
  decide

theorem witness_HalfAKeyWriteLeavesAMixedKeyInUse :
    keyed.eng = .idle ∧ keyed.kv .b = true ∧
      (Slot.b, 1#2, 0x0038#16, 0x003C#16) ∈ [(Slot.a, 0#2, 0x0030#16, 0x0034#16), (Slot.b, 1#2, 0x0038#16, 0x003C#16),
        (Slot.c, 2#2, 0x0040#16, 0x0044#16)] :=
  ⟨rfl, keyed_slots _, by decide⟩

theorem witness_PermutationsKeepAllZerosAndAllOnes : ipTable.length = 64 ∧ tableInRange 64 ipTable = true := by
  decide +kernel

theorem witness_FinalPermutationInvertsInitial : eTable.length = 48 := by decide

theorem witness_DesEncWritesTheCiphertext :
    (2#2, Slot.c) ∈ [(0#2, Slot.a), (1#2, Slot.b), (2#2, Slot.c)] ∧ keyed.kv .c = true ∧ State.reset.kv .c = false :=
  ⟨by decide, keyed_slots _, rfl⟩

/-- The zero key has sixteen equal subkeys (T12). -/
theorem witness_DesDecWritesThePlaintext :
    let s : State := { keyed with slotA := { key := 0#56, hw := true, lw := true } }
    (0#2, Slot.a) ∈ [(0#2, Slot.a), (1#2, Slot.b), (2#2, Slot.c)] ∧ s.kv .a = true ∧
      (∃ sk, ∀ x ∈ keySchedule (s.key .a), x = sk) ∧ State.reset.kv .a = false :=
  ⟨by decide, rfl, ⟨0#48, zero_key_subkeys⟩, rfl⟩

theorem witness_EqualSubkeysAndComplementation : ∀ x ∈ keySchedule 0#56, x = 0#48 := zero_key_subkeys

theorem witness_NopCompletesWithOk :
    keyed.eng = .idle ∧ ∃ t, engineTurn (keyed.access (.wr 0x0008#16 0x00000000#32)) = .next t := ⟨rfl, _, rfl⟩

theorem witness_Ede3EncWritesTheCiphertext :
    (keyed.kv .a = true ∧ keyed.kv .b = true ∧ keyed.kv .c = true) ∧ State.reset.kv .b = false :=
  ⟨⟨keyed_slots _, keyed_slots _, keyed_slots _⟩, rfl⟩

/-- The two commands of the last clause, one after the other. -/
theorem witness_Ede3DecWritesThePlaintext :
    (keyed.kv .a = true ∧ keyed.kv .b = true ∧ keyed.kv .c = true) ∧
      (∃ t u, exec .ede3Enc keyed = .next t ∧ exec .ede3Dec { t with din := t.dout } = .next u) ∧
      State.reset.kv .c = false :=
  ⟨⟨keyed_slots _, keyed_slots _, keyed_slots _⟩, ⟨_, _, rfl, rfl⟩, rfl⟩

/-- The clauses of the buffer commands: LENGTH 0, 24 and BUF_BYTES; BUF_BYTES + 1 and the largest; 12; no key. -/
theorem witness_BufEde3EncEncryptsEveryBlock :
    ((keyedLen 0).len ≤ bufBytes ∧ (keyedLen 0).len % 8 = 0 ∧ (keyedLen bufBytes).len ≤ bufBytes ∧
      (keyedLen bufBytes).len % 8 = 0 ∧ ∀ k, (keyedLen bufBytes).kv k = true) ∧
    (bufBytes < (keyedLen (bufBytes + 1)).len ∧ bufBytes < (keyedLen 0xFFFFFFFF).len) ∧
    ((keyedLen 12).len ≤ bufBytes ∧ (keyedLen 12).len % 8 ≠ 0) ∧
    ((bareLen 24).len ≤ bufBytes ∧ (bareLen 24).len % 8 = 0 ∧ (bareLen 24).kv .a = false) := by
  have hb := bufBytes_admitted
  rw [len_keyedLen (by decide), len_keyedLen (by omega), len_keyedLen (by omega), len_keyedLen (by decide),
    len_keyedLen (by decide), len_bareLen (by decide)]
  exact ⟨⟨by omega, rfl, by omega, by omega, keyedLen_slots _⟩, ⟨by omega, by omega⟩, ⟨by omega, by decide⟩, by omega, rfl,
    rfl⟩

theorem witness_BufEde3DecDecryptsEveryBlock :
    ((keyedLen 8).len ≤ bufBytes ∧ (keyedLen 8).len % 8 = 0 ∧ ∀ k, (keyedLen 8).kv k = true) ∧
    bufBytes < (keyedLen (bufBytes + 8)).len ∧ ((keyedLen 23).len ≤ bufBytes ∧ (keyedLen 23).len % 8 ≠ 0) ∧
    ((bareLen 0).len ≤ bufBytes ∧ (bareLen 0).len % 8 = 0 ∧ (bareLen 0).kv .c = false) := by
  have hb := bufBytes_admitted
  rw [len_keyedLen (by decide), len_keyedLen (by omega), len_keyedLen (by decide), len_bareLen (by decide)]
  exact ⟨⟨by omega, rfl, keyedLen_slots _⟩, by omega, ⟨by omega, by decide⟩, by omega, rfl, rfl⟩

theorem witness_BlockOrderWithinAPassIsFree :
    (keyedLen 16).buf.wf ∧ (keyedLen 16).len ≤ bufBytes ∧ [1, 0].Perm (List.range (keyedLen 16).blocks) ∧
      [0, 1].Perm (List.range (keyedLen 16).blocks) := by
  have hb := bufBytes_admitted
  have hl : (keyedLen 16).len = 16 := len_keyedLen (by decide)
  refine ⟨Memory.wf_nil, by omega, ?_, ?_⟩ <;> (simp only [State.blocks, hl]; decide)

/-- T38: two equal blocks. -/
theorem witness_EqualBlocksEncryptEqually :
    let s := loaded (List.replicate 16 0#8) 16
    (∃ t, exec .bufEde3Enc s = .next t ∧ t.errCode = .ok) ∧ 0 < s.len / 8 ∧ 1 < s.len / 8 ∧
      s.readBlock 0 = s.readBlock 1 := by
  have hb := bufBytes_admitted
  have hl : (loaded (List.replicate 16 0#8) 16).len = 16 := len_keyedLen (by decide)
  have hk : (loaded (List.replicate 16 0#8) 16).allKv = true := rfl
  have ht : (loaded (List.replicate 16 0#8) 16).tooLong = false := by
    simp only [State.tooLong, hl, decide_eq_false_iff_not]
    omega
  have hu : (loaded (List.replicate 16 0#8) 16).unaligned = false := by
    rw [State.unaligned, hl]
    rfl
  refine ⟨⟨_, exec_of_pass ?_, rfl⟩, by rw [hl]; decide, by rw [hl]; decide, by decide +kernel⟩
  simp only [State.checks, State.bufChecks, firstError, ht, hu, hk]
  rfl

/-- PAD: LENGTH 0 and BUF_BYTES - 8 (T48); BUF_BYTES (T47) and the largest LENGTH. -/
theorem witness_PadAppendsThePadding :
    (keyedLen 0).len + (8 - (keyedLen 0).len % 8) ≤ bufBytes ∧
      (keyedLen (bufBytes - 8)).len + (8 - (keyedLen (bufBytes - 8)).len % 8) ≤ bufBytes ∧
      bufBytes < (keyedLen bufBytes).len + (8 - (keyedLen bufBytes).len % 8) ∧
      bufBytes < (keyedLen 0xFFFFFFFF).len + (8 - (keyedLen 0xFFFFFFFF).len % 8) := by
  have hb := bufBytes_admitted
  rw [len_keyedLen (by decide), len_keyedLen (by omega), len_keyedLen (by omega), len_keyedLen (by decide)]
  omega

/-- UNPAD: last bytes 1 and 8 (T44), 0 (T43) and 9 (T42); LENGTH past BUF_BYTES, 0 (T45) and 7 (T46). -/
theorem witness_UnpadDropsWhatTheLastByteSays :
    ((loaded [1#8, 1#8, 1#8, 1#8, 1#8, 1#8, 1#8, 1#8] 8).readByte 7).toNat = 1 ∧
      ((loaded [0x41#8, 0x41#8, 0x41#8, 0x41#8, 0x41#8, 0x41#8, 0x41#8, 8#8] 8).readByte 7).toNat = 8 ∧
      ((loaded [0#8, 0#8, 0#8, 0#8, 0#8, 0#8, 0#8, 0#8] 8).readByte 7).toNat < 1 ∧
      8 < ((loaded [1#8, 2#8, 3#8, 4#8, 5#8, 6#8, 7#8, 9#8] 8).readByte 7).toNat ∧
      (keyedLen 8).len = 8 ∧ 8 ≤ bufBytes ∧ bufBytes < (keyedLen (bufBytes + 1)).len ∧ (keyedLen 0).len = 0 ∧
      (keyedLen 7).len % 8 ≠ 0 ∧ (keyedLen 7).len ≤ bufBytes := by
  have hb := bufBytes_admitted
  rw [len_keyedLen (by decide), len_keyedLen (by omega), len_keyedLen (by decide), len_keyedLen (by decide)]
  exact ⟨rfl, rfl, by decide, by decide, rfl, by omega, by omega, rfl, by decide, by omega⟩

theorem witness_StreamEncPadsAndEncrypts :
    ((keyedLen 0).len + padCount (keyedLen 0).len ≤ bufBytes ∧
        (keyedLen (bufBytes - 1)).len + padCount (keyedLen (bufBytes - 1)).len ≤ bufBytes ∧
        ∀ k, (keyedLen (bufBytes - 1)).kv k = true) ∧
      bufBytes < (keyedLen bufBytes).len + padCount (keyedLen bufBytes).len ∧
      ((bareLen 5).len + padCount (bareLen 5).len ≤ bufBytes ∧ (bareLen 5).kv .b = false) := by
  have hb := bufBytes_admitted
  rw [len_keyedLen (by decide), len_keyedLen (by omega), len_keyedLen (by omega), len_bareLen (by decide)]
  unfold padCount
  exact ⟨⟨by omega, by omega, keyedLen_slots _⟩, by omega, by omega, rfl⟩

/-- STREAM_DEC: V14's block, whose decrypted last byte is 3, and T49's, whose is 9; the error clauses as for UNPAD; no key. -/
theorem witness_StreamDecDecryptsAndUnpads :
    ((keyedLen 8).len ≤ bufBytes ∧ (keyedLen 8).len ≠ 0 ∧ (keyedLen 8).len % 8 = 0 ∧ ∀ k, (keyedLen 8).kv k = true) ∧
      (((loaded [0xEE#8, 0x11#8, 0xCB#8, 0x6D#8, 0x30#8, 0x71#8, 0x94#8, 0xE4#8] 8).body .streamDec).readByte 7 = 3#8 ∧
        ((loaded [0x9E#8, 0xF8#8, 0x14#8, 0xA3#8, 0x5F#8, 0x46#8, 0xD0#8, 0x3E#8] 8).body .streamDec).readByte 7 = 9#8) ∧
      bufBytes < (keyedLen (bufBytes + 1)).len ∧ ((keyedLen 0).len = 0 ∧ (keyedLen 12).len % 8 ≠ 0) ∧
      (bareLen 8).len % 8 = 0 ∧ (bareLen 8).len ≠ 0 ∧ (bareLen 8).len ≤ bufBytes ∧ (bareLen 8).kv .a = false := by
  have hb := bufBytes_admitted
  refine ⟨?_, by decide +kernel, ?_⟩ <;>
    simp only [len_keyedLen (show 8 < 2 ^ 32 by decide), len_keyedLen (show bufBytes + 1 < 2 ^ 32 by omega),
      len_keyedLen (show 0 < 2 ^ 32 by decide), len_keyedLen (show 12 < 2 ^ 32 by decide),
      len_bareLen (show 8 < 2 ^ 32 by decide)]
  · exact ⟨by omega, by decide, by decide, keyedLen_slots _⟩
  · exact ⟨by omega, ⟨trivial, by decide⟩, by decide, by decide, by omega, rfl⟩

/-- The checks of the two-command statements hold on V14's shortest input. -/
theorem pass_streamEnc_empty : firstError ((keyedLen 0).checks .streamEnc) = none := by
  have hb := bufBytes_admitted
  have hl : (keyedLen 0).len = 0 := len_keyedLen (by decide)
  have hk : (keyedLen 0).allKv = true := rfl
  simp [State.checks, State.streamEncChecks, firstError, State.tooLong, State.noRoom, padCount, hl, hk]
  omega

/-- PAD then BUF_EDE3_ENC from LENGTH = 0, and BUF_EDE3_DEC then UNPAD from one block whose plaintext ends in 3, all with
OK; and a missing key with room for the padding. -/
theorem witness_StreamCommandsAreTheirParts :
    (∃ t u, exec .pad (keyedLen 0) = .next t ∧ t.errCode = .ok ∧
      exec .bufEde3Enc (t.accept 0x00000005#32) = .next u ∧ u.errCode = .ok) ∧
    (∃ t u, exec .bufEde3Dec (loaded [0xEE#8, 0x11#8, 0xCB#8, 0x6D#8, 0x30#8, 0x71#8, 0x94#8, 0xE4#8] 8) = .next t ∧
      t.errCode = .ok ∧ exec .unpad (t.accept 0x00000008#32) = .next u ∧ u.errCode = .ok) ∧
    ((bareLen 5).kv .a = false ∧ (bareLen 5).len + padCount (bareLen 5).len ≤ bufBytes) := by
  have hb := bufBytes_admitted
  have ht : ∀ s : State, s.len = 8 → s.tooLong = false := by
    intro s hs
    simp only [State.tooLong, hs, decide_eq_false_iff_not]
    omega
  have hu : ∀ s : State, s.len = 8 → s.unaligned = false ∧ s.emptyOrUnaligned = false := by
    intro s hs
    simp [State.emptyOrUnaligned, State.unaligned, hs]
  refine ⟨⟨_, _, exec_of_pass ?_, rfl, exec_of_pass ?_, rfl⟩, ⟨_, _, exec_of_pass ?_, rfl, exec_of_pass ?_, ?_⟩, rfl, ?_⟩
  · have hl : (keyedLen 0).len = 0 := len_keyedLen (by decide)
    simp [State.checks, State.padChecks, firstError, State.tooLong, State.noRoom, padCount, hl]
    omega
  · have hl : (((keyedLen 0).body .pad).accept 0x00000005#32).len = 8 := by decide +kernel
    have hk : (((keyedLen 0).body .pad).accept 0x00000005#32).allKv = true := by decide +kernel
    simp only [State.checks, State.bufChecks, firstError, ht _ hl, (hu _ hl).1, hk]
    rfl
  · have hl : (loaded [0xEE#8, 0x11#8, 0xCB#8, 0x6D#8, 0x30#8, 0x71#8, 0x94#8, 0xE4#8] 8).len = 8 := by decide +kernel
    have hk : (loaded [0xEE#8, 0x11#8, 0xCB#8, 0x6D#8, 0x30#8, 0x71#8, 0x94#8, 0xE4#8] 8).allKv = true := rfl
    simp only [State.checks, State.bufChecks, firstError, ht _ hl, (hu _ hl).1, hk]
    rfl
  · have hl : (((loaded [0xEE#8, 0x11#8, 0xCB#8, 0x6D#8, 0x30#8, 0x71#8, 0x94#8, 0xE4#8] 8).body .bufEde3Dec).accept
        0x00000008#32).len = 8 := by decide +kernel
    simp only [State.checks, State.unpadChecks, firstError, ht _ hl, (hu _ hl).2]
    rfl
  · decide +kernel
  · rw [len_bareLen (by decide)]
    unfold padCount
    omega

/-- LENGTH 0 and BUF_BYTES - 1, three valid slots. -/
theorem witness_StreamDecUndoesStreamEnc :
    (keyedLen 0).len + padCount (keyedLen 0).len ≤ bufBytes ∧
      (keyedLen (bufBytes - 1)).len + padCount (keyedLen (bufBytes - 1)).len ≤ bufBytes ∧
      ∀ k, (keyedLen (bufBytes - 1)).kv k = true := by
  have hb := bufBytes_admitted
  rw [len_keyedLen (by decide), len_keyedLen (by omega)]
  unfold padCount
  exact ⟨by omega, by omega, keyedLen_slots _⟩

/-- "12345678" of V14 split into its one block and an empty rest. -/
theorem witness_StreamEncSplitsOnABlockBoundary :
    let text := [0x31#8, 0x32#8, 0x33#8, 0x34#8, 0x35#8, 0x36#8, 0x37#8, 0x38#8]
    let s := loaded text 8
    let s₁ := loaded text 8
    let s₂ := keyedLen 0
    (∀ k, s₁.slot k = s.slot k ∧ s₂.slot k = s.slot k) ∧ s₁.len = 8 * 1 ∧ s.len = 8 * 1 + s₂.len ∧
      (∀ a, a < 8 * 1 → s₁.readByte a = s.readByte a) ∧ (∀ a, a < s₂.len → s₂.readByte a = s.readByte (8 * 1 + a)) ∧
      (∃ t, exec .streamEnc s = .next t ∧ t.errCode = .ok) ∧ (∃ t, exec .bufEde3Enc s₁ = .next t) ∧
      ∃ t, exec .streamEnc s₂ = .next t := by
  have hb := bufBytes_admitted
  have h0 : (keyedLen 0).len = 0 := len_keyedLen (by decide)
  have h8 : (loaded [0x31#8, 0x32#8, 0x33#8, 0x34#8, 0x35#8, 0x36#8, 0x37#8, 0x38#8] 8).len = 8 := by decide +kernel
  have hk : (loaded [0x31#8, 0x32#8, 0x33#8, 0x34#8, 0x35#8, 0x36#8, 0x37#8, 0x38#8] 8).allKv = true := rfl
  refine ⟨fun k => by cases k <;> exact ⟨rfl, rfl⟩, h8, by rw [h8, h0], fun _ _ => rfl, fun a h => by omega,
    ⟨_, exec_of_pass ?_, rfl⟩, exec_answers_next _ _, exec_answers_next _ _⟩
  have ht : (loaded [0x31#8, 0x32#8, 0x33#8, 0x34#8, 0x35#8, 0x36#8, 0x37#8, 0x38#8] 8).tooLong = false := by
    simp only [State.tooLong, h8, decide_eq_false_iff_not]
    omega
  have hr : (loaded [0x31#8, 0x32#8, 0x33#8, 0x34#8, 0x35#8, 0x36#8, 0x37#8, 0x38#8] 8).noRoom = false := by
    simp only [State.noRoom, padCount, h8, decide_eq_false_iff_not]
    omega
  simp only [State.checks, State.streamEncChecks, firstError, ht, hr, hk]
  rfl

/-- A split of 8 + 5 bytes, and V14's one block, which is the ciphertext of "hello" with the three slots. -/
theorem witness_StreamEncSplitsOnABlockBoundary_flows :
    keyed.eng = .idle ∧ (∀ k, keyed.kv k = true) ∧
      (∀ c ∈ [List.replicate 8 0x31#8], c.length % 8 = 0 ∧ c.length ≤ bufBytes) ∧
      5 + padCount 5 ≤ bufBytes ∧
      (let cipher := [0xEE#8, 0x11#8, 0xCB#8, 0x6D#8, 0x30#8, 0x71#8, 0x94#8, 0xE4#8]
       cipher.length ≤ bufBytes ∧ cipher ≠ [] ∧
        [].flatten ++ cipher = streamCipher keyed.slotA.key keyed.slotB.key keyed.slotC.key
          [0x68#8, 0x65#8, 0x6C#8, 0x6C#8, 0x6F#8]) := by
  have hb := bufBytes_admitted
  refine ⟨rfl, keyed_slots, ?_, by simp [padCount]; omega, by simp; omega, by simp, test_streamCipher_v14.symm⟩
  intro c hc
  rw [List.mem_singleton.1 hc]
  exact ⟨rfl, by simp; omega⟩

/-- An Idle core; the password has two bytes, fewer than the digest. -/
theorem witness_KeyDerivationGivesATwentyOneByteFile :
    State.reset.eng = .idle ∧ 0 < hashSize ∧ 1 < [0x61#8, 0x62#8].length ∧ ¬ 2 < [0x61#8, 0x62#8].length ∧ 2 < hashSize := by
  unfold hashSize
  exact ⟨rfl, by omega, by decide, by decide, by omega⟩

/-- LDKEYS: LENGTH 21 (T52) and BUF_BYTES; past BUF_BYTES; 20 (T53) and 0. -/
theorem witness_LdkeysLoadsTheKeyFile :
    ((keyedLen 21).len ≤ bufBytes ∧ 21 ≤ (keyedLen 21).len ∧ (keyedLen bufBytes).len ≤ bufBytes ∧
        21 ≤ (keyedLen bufBytes).len) ∧
      bufBytes < (keyedLen (bufBytes + 1)).len ∧ ((keyedLen 20).len ≤ bufBytes ∧ (keyedLen 20).len < 21) ∧
      (keyedLen 0).len < 21 := by
  have hb := bufBytes_admitted
  rw [len_keyedLen (by decide), len_keyedLen (by omega), len_keyedLen (by omega), len_keyedLen (by decide),
    len_keyedLen (by decide)]
  omega

/-- KEY_ERR; INVALID_PADDING from UNPAD and from STREAM_DEC. -/
theorem witness_ErrorsLeaveTheStateAsItWas :
    (∃ t, exec .ede3Enc State.reset = .next t ∧ t.errCode = .keyErr) ∧
      ((loaded [1#8, 2#8, 3#8, 4#8, 5#8, 6#8, 7#8, 9#8] 8).body .unpad).errCode = .invalidPadding ∧
      ((loaded [0x9E#8, 0xF8#8, 0x14#8, 0xA3#8, 0x5F#8, 0x46#8, 0xD0#8, 0x3E#8] 8).body .streamDec).errCode =
        .invalidPadding :=
  ⟨⟨_, rfl, rfl⟩, by decide +kernel, by decide +kernel⟩

/-- T51, on a well-formed instruction, and an illegal word. -/
theorem witness_ErrorCodesFollowTheRanking :
    Instr.streamDec.WellFormed ∧ (∃ t, exec .streamDec (bareLen 12) = .next t) ∧ (bareLen 12).len = 12 ∧
      (∀ k, (bareLen 12).kv k = false) ∧ illegalWord 0x0000000C#32 :=
  ⟨rfl, exec_answers_next _ _, len_bareLen (by decide), bareLen_slots _, .inr (.inl (by decide))⟩

/-- A success and an error. -/
theorem witness_RegisterCommandsChangeOnlyDout :
    (∃ t, exec (.desEnc 1#2) keyed = .next t ∧ t.errCode = .ok) ∧
      (∃ t, exec (.desEnc 1#2) State.reset = .next t ∧ t.errCode ≠ .ok) ∧ ∃ t, exec .nop keyed = .next t :=
  ⟨⟨_, rfl, rfl⟩, ⟨_, rfl, by decide⟩, _, rfl⟩

/-- STREAM_ENC from LENGTH = 0: the bytes 0 to 7 are stored to, byte 8 is not. -/
theorem witness_BufferCommandsChangeOnlyWhatTheyStore :
    (∃ t, exec .streamEnc (keyedLen 0) = .next t ∧ t.errCode = .ok) ∧ storesTo .streamEnc (keyedLen 0) 7 ∧
      ¬ storesTo .streamEnc (keyedLen 0) 8 := by
  have hl : (keyedLen 0).len = 0 := len_keyedLen (by decide)
  refine ⟨⟨_, exec_of_pass pass_streamEnc_empty, rfl⟩, ?_, ?_⟩ <;> simp [storesTo, hl, padCount]

end Sys2Proof.Tests
end

section
/-! PROOFS. The invariant (spec 10 R33, R40; 45 R210; 60 R301): what a host transaction, a reset and each phase of the engine
keep of it. -/

namespace Sys2Proof.Machine

/-! ### The parts of the invariant -/

/-- Whether the Single phase has a result depends on the instruction alone. -/
theorem State.singleResult_isSome_congr (s t : State) (i : Instr) :
    (t.singleResult i).isSome = (s.singleResult i).isSome := by
  cases i <;> simp [State.singleResult, State.desResult]

/-- `phaseOk` reads LENGTH alone. -/
theorem phaseOk_congr {s t : State} (hl : t.length = s.length) {i : Instr} {p : Phase} (h : phaseOk s i p) :
    phaseOk t i p := by
  have hlen : t.len = s.len := congrArg BitVec.toNat hl
  cases p with
  | single => exact (State.singleResult_isSome_congr s t i).trans h
  | check | complete _ => trivial
  | pad | pass _ _ | unpad | loadKeys =>
    simpa only [phaseOk, State.noRoom, State.tooLong, State.unaligned, State.emptyOrUnaligned, State.shortKeyFile,
      State.blocks, hlen] using h

theorem engineOk_congr {s t : State} (he : t.eng = s.eng) (hl : t.length = s.length) (h : engineOk s) : engineOk t := by
  unfold engineOk at h ⊢
  rw [he]
  split at h
  · trivial
  · exact h
  · exact ⟨h.1, phaseOk_congr hl h.2⟩

theorem engineOk_of_idle {s : State} (h : s.eng = .idle) : engineOk s := by
  unfold engineOk
  rw [h]
  trivial

/-- An Idle state meets the invariant when its BUF does. -/
theorem inv_of_idle {s : State} (hb : s.buf.wf) (h : s.eng = .idle) : Inv s :=
  ⟨hb, engineOk_of_idle h, fun hbusy => absurd (State.busy_of_idle h) (by simp [hbusy])⟩

theorem inv_complete {s : State} (hb : s.buf.wf) (c : ErrCode) : Inv (s.complete c) := inv_of_idle hb rfl

/-- A command word stands for well-formed instructions only (30 R73 (c), R75). -/
theorem wellFormed_of_decodeCommand {w : Word} {i : Instr} (h : decodeCommand w = .op i) : i.WellFormed := by
  have hplain : ∀ op, plainOp op = some i → i.WellFormed := by
    intro op hop
    unfold plainOp at hop
    split at hop <;> cases hop <;> rfl
  unfold decodeCommand decode at h
  split_ifs at h with _ _ _ hk _ hk
  · cases h; exact decide_eq_true hk
  · cases h; exact decide_eq_true hk
  · cases hp : plainOp (opField w) with
    | none => simp [hp] at h
    | some j =>
      simp only [hp, Command.op.injEq] at h
      exact hplain _ (h ▸ hp)

/-! ### The phases of the engine (45 R210) -/

/-- What the invariant says of a state in which `i` runs in phase `p`. -/
structure InPhase (s : State) (i : Instr) (p : Phase) : Prop where
  buf : s.buf.wf
  wellFormed : i.WellFormed
  phase : phaseOk s i p
  done : s.done = false
  errCode : s.errCode = .ok

theorem Inv.inPhase {s : State} (h : Inv s) {i : Instr} {p : Phase} (he : s.eng = .run (.op i) p) : InPhase s i p := by
  obtain ⟨hb, hen, hst⟩ := h
  unfold engineOk at hen
  rw [he] at hen
  obtain ⟨hd, hc⟩ := hst (State.busy_of_run he)
  exact ⟨hb, hen.1, hen.2, hd, hc⟩

theorem InPhase.inv_goTo {s : State} {i : Instr} {p : Phase} (h : InPhase s i p) : Inv (s.goTo i p) :=
  ⟨h.buf, ⟨h.wellFormed, phaseOk_congr rfl h.phase⟩, fun _ => ⟨h.done, h.errCode⟩⟩

theorem InPhase.move {s : State} {i : Instr} {p q : Phase} (h : InPhase s i p) (hq : phaseOk s i q) : InPhase s i q :=
  { h with phase := hq }

/-- No register matters once the command has only its completion left. -/
theorem InPhase.inv_goTo_complete {s t : State} {i : Instr} {p : Phase} (h : InPhase s i p) (hb : t.buf = s.buf)
    (hd : t.done = s.done) (hc : t.errCode = s.errCode) (c : ErrCode) : Inv (t.goTo i (.complete c)) :=
  ⟨hb ▸ h.buf, ⟨h.wellFormed, trivial⟩, fun _ => ⟨hd ▸ h.done, hc ▸ h.errCode⟩⟩

theorem InPhase.setBuf {s : State} {i : Instr} {p : Phase} (h : InPhase s i p) {m : Memory} (hm : m.wf) :
    InPhase (s.setBuf m) i p :=
  ⟨hm, h.wellFormed, phaseOk_congr rfl h.phase, h.done, h.errCode⟩

/-- One block of a pass lies inside BUF (20 R53). -/
theorem InPhase.passBlock {s : State} {i : Instr} {p : Phase} (h : InPhase s i p) (pass : Dir × Slot)
    (hlong : s.tooLong = false) {j : Nat} (hj : j < s.blocks) : InPhase (s.passBlock pass j) i p := by
  have hfit : 8 * j + 8 ≤ bufBytes := by
    have hl : s.len ≤ bufBytes := by simpa [State.tooLong] using hlong
    unfold State.blocks at hj
    omega
  rw [State.passBlock_eq]
  exact h.setBuf (s.passBlock_wf pass j h.buf hfit)

theorem inv_accept {s : State} (hb : s.buf.wf) (w : Word) : Inv (s.accept w) := by
  refine ⟨hb, ?_, fun _ => ⟨rfl, rfl⟩⟩
  unfold engineOk
  rw [State.accept_eng]
  cases hd : decodeCommand w with
  | illegal => rfl
  | op i => exact ⟨wellFormed_of_decodeCommand hd, trivial⟩

theorem State.emptyOrUnaligned_eq_false (s : State) :
    s.emptyOrUnaligned = false ↔ s.len ≠ 0 ∧ s.unaligned = false := by
  simp [State.emptyOrUnaligned]

theorem slotOf_isSome {ksel : BitVec 2} (h : ksel ≠ 3#2) : (slotOf ksel).isSome = true := by
  revert ksel
  decide

/-- The checks of a command lead to its first work phase. -/
theorem phaseOk_firstWork {s : State} {i : Instr} (hw : i.WellFormed) (hc : firstError (s.checks i) = none) :
    phaseOk s i (firstWork i) := by
  rw [firstError_eq_none] at hc
  cases i with
  | nop => trivial
  | desEnc ksel | desDec ksel =>
    simpa [firstWork, phaseOk, State.singleResult, State.desResult] using slotOf_isSome (of_decide_eq_true hw)
  | ede3Enc | ede3Dec => rfl
  | bufEde3Enc | bufEde3Dec =>
    simp only [State.checks, State.bufChecks, List.forall_mem_cons] at hc
    obtain ⟨hlong, halign, -⟩ := hc
    exact ⟨rfl, hlong, halign, by simp, List.Pairwise.nil, by simp⟩
  | pad =>
    simp only [State.checks, State.padChecks, List.forall_mem_cons] at hc
    exact ⟨rfl, hc.2.1⟩
  | streamEnc =>
    simp only [State.checks, State.streamEncChecks, List.forall_mem_cons] at hc
    exact ⟨rfl, hc.2.1⟩
  | unpad =>
    simp only [State.checks, State.unpadChecks, List.forall_mem_cons] at hc
    obtain ⟨hlong, halign, -⟩ := hc
    exact ⟨rfl, hlong, halign⟩
  | streamDec =>
    simp only [State.checks, State.streamDecChecks, List.forall_mem_cons] at hc
    obtain ⟨hlong, halign, -⟩ := hc
    obtain ⟨hne, hal⟩ := s.emptyOrUnaligned_eq_false.1 halign
    exact ⟨rfl, hlong, hal, fun _ => hne, List.Pairwise.nil, by simp⟩
  | ldkeys =>
    simp only [State.checks, State.ldkeysChecks, List.forall_mem_cons] at hc
    obtain ⟨hlong, hshort, -⟩ := hc
    exact ⟨rfl, hlong, hshort⟩

/-- The end of the last pass leads to Unpad or to completion. -/
theorem phaseOk_afterPasses {s : State} {i : Instr} {p : PassNo} {done : List Nat} (h : phaseOk s i (.pass p done)) :
    phaseOk s i (afterPasses i) := by
  obtain ⟨-, hlong, hal, hne, -, -⟩ := h
  cases i with
  | streamDec => exact ⟨rfl, hlong, s.emptyOrUnaligned_eq_false.2 ⟨hne rfl, hal⟩⟩
  | _ => trivial

/-- The end of a pass leads to the next pass, with no block done, or out of the passes. -/
theorem phaseOk_afterPass {s : State} {i : Instr} {p : PassNo} {done : List Nat} (h : phaseOk s i (.pass p done)) :
    phaseOk s i (afterPass i p) := by
  cases p with
  | third => exact phaseOk_afterPasses h
  | first | second =>
    obtain ⟨hpass, hlong, hal, hne, -, -⟩ := h
    exact ⟨hpass, hlong, hal, hne, List.Pairwise.nil, by simp⟩

/-- One more block of the buffer in S. -/
theorem phaseOk_addBlock {s : State} {i : Instr} {p : PassNo} {done : List Nat} (h : phaseOk s i (.pass p done)) {j : Nat}
    (hj : j < s.blocks) : phaseOk s i (.pass p (addBlock j done)) := by
  obtain ⟨hpass, hlong, hal, hne, hrise, hlt⟩ := h
  refine ⟨hpass, hlong, hal, hne, addBlock_pairwise hrise, fun k hk => ?_⟩
  rcases mem_addBlock.1 hk with rfl | hk
  · exact hj
  · exact hlt k hk

/-- After the padding the bytes fill whole blocks of BUF (45 R201). -/
theorem phaseOk_afterPad {s : State} {i : Instr} {p : Phase} (hp : afterPad i = some p) (hr : s.noRoom = false) :
    phaseOk s.addPadding i p := by
  have hlen := s.len_addPadding hr
  have hpc := padCount_range s.len
  have hroom : s.len + padCount s.len ≤ bufBytes := by simpa [State.noRoom] using hr
  cases i <;> cases hp
  · trivial
  · exact ⟨rfl, State.tooLong_eq_false (by omega), State.unaligned_eq_false (by omega), by simp, List.Pairwise.nil,
      by simp⟩

section Phases
variable {s t : State} {i : Instr}

theorem InPhase.checkStep_inv (h : InPhase s i .check) (ht : checkStep i s = .next t) : Inv t := by
  unfold checkStep at ht
  split at ht <;> cases ht
  · exact h.inv_goTo_complete rfl rfl rfl _
  · next hc => exact (h.move (phaseOk_firstWork h.wellFormed hc)).inv_goTo

theorem InPhase.singleStep_inv (h : InPhase s i .single) (ht : singleStep i s = .next t) : Inv t := by
  unfold singleStep at ht
  split at ht <;> cases ht
  exact h.inv_goTo_complete rfl rfl rfl .ok

theorem InPhase.padStep_inv (h : InPhase s i .pad) (ht : padStep i s = .next t) : Inv t := by
  unfold padStep at ht
  split at ht
  · next p hp =>
    split at ht <;> cases ht
    have hr : s.noRoom = false := h.phase.2
    refine InPhase.inv_goTo
      { h with buf := s.addPadding_wf h.buf hr, phase := phaseOk_afterPad hp hr, done := ?_, errCode := ?_ } <;>
    rw [State.addPadding_eq]
    · exact h.done
    · exact h.errCode
  · cases ht

theorem InPhase.passStep_inv {p : PassNo} {done : List Nat} {pick : Nat} (h : InPhase s i (.pass p done))
    (ht : passStep i p done pick s = .next t) : Inv t := by
  obtain ⟨hpass, hlong, -⟩ := h.phase
  obtain ⟨plan, hplan⟩ := Option.isSome_iff_exists.1 hpass
  rcases passStep_cases hplan p done pick hlong with ⟨-, hst⟩ | ⟨j, hj, hst⟩ <;> rw [hst] at ht <;> cases ht
  · refine (h.move ?_).inv_goTo
    split
    · exact phaseOk_afterPasses h.phase
    · exact phaseOk_afterPass h.phase
  · have hjb : j < s.blocks := (mem_blocksLeft.1 hj).1
    refine (h.move ?_).passBlock _ hlong hjb |>.inv_goTo
    split
    · exact phaseOk_afterPass h.phase
    · exact phaseOk_addBlock h.phase hjb

theorem InPhase.unpadStep_inv (h : InPhase s i .unpad) (ht : unpadStep i s = .next t) : Inv t := by
  unfold unpadStep at ht
  split_ifs at ht <;> cases ht
  · exact h.inv_goTo_complete rfl rfl rfl .invalidPadding
  · exact h.inv_goTo_complete rfl rfl rfl .ok

theorem InPhase.loadKeysStep_inv (h : InPhase s i .loadKeys) (ht : loadKeysStep i s = .next t) : Inv t := by
  unfold loadKeysStep at ht
  split at ht <;> cases ht
  exact inv_complete h.buf .ok

end Phases

/-- Every single step of the engine keeps the invariant (45 R210). -/
theorem phaseStep_inv {pick : Nat} {s t : State} (h : Inv s) (ht : phaseStep pick s = .next t) : Inv t := by
  unfold phaseStep at ht
  split at ht
  · cases ht; exact h
  · cases ht; exact inv_complete h.1 _
  · next he => exact (h.inPhase he).checkStep_inv ht
  · next he => exact (h.inPhase he).singleStep_inv ht
  · next he => exact (h.inPhase he).padStep_inv ht
  · next he => exact (h.inPhase he).passStep_inv ht
  · next he => exact (h.inPhase he).unpadStep_inv ht
  · next he => exact (h.inPhase he).loadKeysStep_inv ht
  · cases ht; exact inv_complete h.1 _

/-! ### The whole command (45 R211) -/

theorem State.unpadEnd_buf (s : State) : s.unpadEnd.buf = s.buf := by
  unfold State.unpadEnd
  split <;> rfl

theorem State.putResult_buf (s : State) (r : Option Block) : (s.putResult r).buf = s.buf := by
  cases r <;> rfl

/-- A command whose checks hold writes inside BUF (20 R53). -/
theorem State.body_wf {s : State} {i : Instr} (hb : s.buf.wf) (hc : firstError (s.checks i) = none) :
    (s.body i).buf.wf := by
  rw [firstError_eq_none] at hc
  have hlong : s.tooLong = false → s.len ≤ bufBytes := by simp [State.tooLong]
  cases i with
  | nop | ede3Enc | ede3Dec | ldkeys => exact hb
  | desEnc _ | desDec _ => rwa [State.body, State.complete_buf, State.putResult_buf]
  | unpad => rwa [State.body, State.unpadEnd_buf]
  | bufEde3Enc | bufEde3Dec =>
    exact s.threePasses_wf _ hb (hlong (hc (s.tooLong, .lengthErr) (by simp [State.checks, State.bufChecks])))
  | streamDec =>
    rw [State.body, State.unpadEnd_buf]
    exact s.threePasses_wf _ hb (hlong (hc (s.tooLong, .lengthErr) (by simp [State.checks, State.streamDecChecks])))
  | pad => exact s.addPadding_wf hb (hc (s.noRoom, .lengthErr) (by simp [State.checks, State.padChecks]))
  | streamEnc =>
    have hr : s.noRoom = false := hc (s.noRoom, .lengthErr) (by simp [State.checks, State.streamEncChecks])
    refine State.threePasses_wf _ _ (s.addPadding_wf hb hr) ?_
    rw [s.len_addPadding hr]
    simpa [State.noRoom] using hr

theorem exec_inv {i : Instr} {s t : State} (hb : s.buf.wf) (h : exec i s = .next t) : Inv t := by
  refine inv_of_idle ?_ (exec_idle h)
  rcases exec_cases h with ⟨c, -, rfl⟩ | ⟨hc, rfl⟩
  · exact hb
  · exact State.body_wf hb hc

/-- The engine's turn keeps the invariant (45 R210, R211). -/
theorem engineTurn_inv {s t : State} (h : Inv s) (ht : engineTurn s = .next t) : Inv t := by
  unfold engineTurn at ht
  split at ht
  · exact exec_inv h.1 ht
  all_goals exact phaseStep_inv h ht

/-! ### Host transactions (20 R50) -/

/-- The invariant reads BUF, ENG, LENGTH and, while BUSY, DONE and ERRCODE. -/
theorem inv_congr {s t : State} (h : Inv s) (hb : t.buf = s.buf) (he : t.eng = s.eng) (hl : t.length = s.length)
    (hd : s.done = false → t.done = false) (hc : t.errCode = s.errCode) : Inv t := by
  obtain ⟨hwf, hen, hst⟩ := h
  refine ⟨hb ▸ hwf, engineOk_congr he hl hen, fun hbusy => ?_⟩
  have hbusy' : s.busy = true := by rwa [State.busy, ← he]
  exact ⟨hd (hst hbusy').1, hc ▸ (hst hbusy').2⟩

theorem inv_respond {s : State} (h : Inv s) (r : BusResp) : Inv (s.respond r) := inv_congr h rfl rfl rfl id rfl

/-- A performed write keeps the invariant: while BUSY it reaches none of BUF, ENG and LENGTH (20 R56). -/
theorem State.writeReg_inv {s : State} (h : Inv s) {r : Reg} (hp : s.busy = false ∨ r.interlocked = false)
    (hr : ∀ i, r = .window i → 4 * i + 4 ≤ bufBytes) (w : Word) : Inv (s.writeReg r w) := by
  have hidle : r.interlocked = true → s.eng = .idle := by
    intro hi
    cases he : s.eng with
    | idle => rfl
    | run c p => simp [State.busy_of_run he, hi] at hp
  cases r with
  | cmd => exact inv_accept h.1 w
  | status => exact inv_congr h rfl rfl rfl (fun hd => by simp [State.writeReg, State.writeStatus, hd]) rfl
  | ie => exact inv_congr h rfl rfl rfl id rfl
  | length | sksel | dinHi | dinLo => exact inv_of_idle h.1 (hidle rfl)
  | keyHi k | keyLo k =>
    cases k <;> exact inv_of_idle h.1 (hidle rfl)
  | window i =>
    refine inv_of_idle (s.memWrite_wf _ _ _ h.1 (hr i rfl)) ?_
    rw [State.writeReg, State.memWrite_eq]
    exact hidle rfl
  | id | param | skHi | skLo | doutHi | doutLo | reserved => exact h

theorem State.access_inv {s : State} (h : Inv s) (req : BusReq) : Inv (s.access req) := by
  cases req with
  | rd addr =>
    simp only [State.access, State.hostRead]
    split_ifs
    · exact inv_respond h _
    · exact inv_congr h rfl rfl rfl id rfl
    · exact inv_respond h _
  | wr addr w =>
    simp only [State.access, State.hostWrite]
    split_ifs with hm hdrop
    · exact inv_respond h _
    · exact inv_congr h rfl rfl rfl id rfl
    · refine inv_respond (State.writeReg_inv h ?_ (fun i hi => regAt_window_inside hi) w) _
      simpa [← Bool.not_eq_true, imp_iff_not_or] using hdrop

theorem State.takeReset_inv (s : State) : Inv s.takeReset := inv_of_idle Memory.wf_nil rfl

/-- Settles O12: the event is a transaction, a reset or a turn of the engine, and each keeps the invariant. -/
theorem everyStepKeepsTheInvariant : Obligations.EveryStepKeepsTheInvariant := by
  unfold Obligations.EveryStepKeepsTheInvariant
  intro s t h ht
  have hset : ∀ rest, Inv (s.setInputs rest) := fun rest => inv_congr h rfl rfl rfl id rfl
  unfold step at ht
  split at ht
  · exact engineTurn_inv h ht
  · cases ht; exact State.access_inv (hset _) _
  · cases ht; exact State.takeReset_inv _
  · exact phaseStep_inv (hset _) ht
  · exact engineTurn_inv (hset _) ht

end Sys2Proof.Machine
end

section
/-! PROOFS. The frame of the engine's turn (spec 10 R27, R28; 20 R61; 45 R210; 70 R343): what one turn can do is said once, and
what it leaves to the host follows. -/

namespace Sys2Proof.Machine

/-! ### What one turn of the engine can do -/

/-- One turn of the engine from `s` (45 R210, R211). -/
inductive EngineMove (s : State) : State → Prop
  /-- An Idle engine does nothing (70 R343). -/
  | idle (he : s.eng = .idle) : EngineMove s s
  /-- A step inside a command, which stays running. -/
  | work (hb : s.busy = true) (i : Instr) (p : Phase) (d : Block) (m : Memory) (w : Word) :
      EngineMove s (({ s with dout := d, buf := m, length := w } : State).goTo i p)
  /-- The completion record alone (60 R304). -/
  | record (hb : s.busy = true) (c : ErrCode) : EngineMove s (s.complete c)
  /-- The last step of LDKEYS (46 R221). -/
  | keys (he : s.eng = .run (.op .ldkeys) .loadKeys) : EngineMove s (s.loadKeys.complete .ok)
  /-- The whole command at once (45 R211). -/
  | whole {i : Instr} (he : s.eng = .run (.op i) .check) : EngineMove s (s.body i)

theorem EngineMove.goTo {s : State} (hb : s.busy = true) (i : Instr) (p : Phase) : EngineMove s (s.goTo i p) :=
  .work hb i p s.dout s.buf s.length

theorem phaseStep_move {pick : Nat} {s t : State} (h : phaseStep pick s = .next t) : EngineMove s t := by
  unfold phaseStep at h
  split at h
  · next he => cases h; exact .idle he
  · next he => cases h; exact .record (State.busy_of_run he) _
  · next i he =>
    unfold checkStep at h
    split at h <;> cases h <;> exact .goTo (State.busy_of_run he) i _
  · next i he =>
    unfold singleStep at h
    split at h <;> cases h
    exact .work (State.busy_of_run he) i _ _ s.buf s.length
  · next i he =>
    unfold padStep at h
    split at h
    · split at h <;> cases h
      rw [State.addPadding_eq]
      exact .work (State.busy_of_run he) i _ s.dout _ _
    · cases h
  · next i p done he =>
    unfold passStep at h
    split at h
    · cases h
    · split at h
      · cases h
      · split at h <;> cases h
        · exact .goTo (State.busy_of_run he) i _
        · rw [State.passBlock_eq]
          exact .work (State.busy_of_run he) i _ s.dout _ s.length
  · next i he =>
    unfold unpadStep at h
    split_ifs at h <;> cases h
    · exact .goTo (State.busy_of_run he) i _
    · exact .work (State.busy_of_run he) i _ s.dout s.buf _
  · next i he =>
    unfold loadKeysStep at h
    split at h <;> cases h
    next hi => exact .keys (hi ▸ he)
  · next he => cases h; exact .record (State.busy_of_run he) _

theorem engineTurn_move {s t : State} (h : engineTurn s = .next t) : EngineMove s t := by
  unfold engineTurn at h
  split at h
  · next i he =>
    rcases exec_cases h with ⟨c, -, rfl⟩ | ⟨-, rfl⟩
    · exact .record (State.busy_of_run he) c
    · exact .whole he
  all_goals exact phaseStep_move h

theorem State.slot_setInputs (s : State) (is : List Input) (k : Slot) : (s.setInputs is).slot k = s.slot k := by
  cases k <;> rfl

/-- A step on the engine's turn is one of these moves, once its event is taken from the list (log entry 4). -/
theorem step_move {s t : State} (he : enginesTurn s) (h : step s = .next t) :
    EngineMove (s.setInputs s.inputs.tail) t := by
  rcases he with he | ⟨rest, he⟩ | ⟨pick, rest, he⟩ <;> simp only [step, he] at h
  · have hs : s.setInputs s.inputs.tail = s := by rw [he, List.tail_nil, ← he]; rfl
    rw [hs]
    exact engineTurn_move h
  · rw [he]
    exact engineTurn_move h
  · rw [he]
    exact phaseStep_move h

/-! ### What a turn leaves to the host -/

section Frame
variable {s t : State}

/-- A turn changes DOUT, BUF, LENGTH, the key slots, the completion record and ENG at most. -/
theorem EngineMove.frame (h : EngineMove s t) :
    t = { s with
      dout := t.dout, buf := t.buf, length := t.length, slotA := t.slotA, slotB := t.slotB, slotC := t.slotC,
      done := t.done, errCode := t.errCode, eng := t.eng } := by
  cases h with
  | @whole i _ => rw [State.body_frame i s]
  | _ => rfl

/-- Only LDKEYS changes a key slot (10 R27). -/
theorem EngineMove.slot (h : EngineMove s t) (hl : ∀ p, s.eng ≠ .run (.op .ldkeys) p) (k : Slot) :
    t.slot k = s.slot k := by
  cases h with
  | keys he => exact absurd he (hl _)
  | @whole i he => exact State.body_slot i s (fun hi => hl _ (hi ▸ he)) k
  | _ => cases k <;> rfl

/-- While the command goes on, the key slots, DONE and ERRCODE stay (20 R57, 60 R304). -/
theorem EngineMove.of_busy (h : EngineMove s t) (hb : t.busy = true) :
    (∀ k, t.slot k = s.slot k) ∧ t.done = s.done ∧ t.errCode = s.errCode := by
  cases h with
  | idle | work => exact ⟨fun k => by cases k <;> rfl, rfl, rfl⟩
  | record | keys => cases hb
  | whole he =>
    rw [State.busy_of_idle (by rw [State.body_frame])] at hb
    cases hb

/-- An Idle engine does nothing (70 R343). -/
theorem EngineMove.of_idle (h : EngineMove s t) (hi : s.eng = .idle) : t = s := by
  cases h with
  | idle => rfl
  | work hb | record hb => rw [State.busy_of_idle hi] at hb; cases hb
  | keys he | whole he => rw [hi] at he; cases he

end Frame

/-- Settles O14: a turn is an `EngineMove`, whose frame holds the host's registers. -/
theorem engineLeavesTheHostsRegistersAlone : Obligations.EngineLeavesTheHostsRegistersAlone := by
  unfold Obligations.EngineLeavesTheHostsRegistersAlone
  intro s t he h
  have hmove := step_move he h
  obtain ⟨hdin, hdoneIe, hwerrIe, hround, hsel, hwerr, hresp, hresets, hdraws⟩ : t.din = s.din ∧ t.doneIe = s.doneIe ∧
      t.werrIe = s.werrIe ∧ t.skRound = s.skRound ∧ t.skSlot = s.skSlot ∧ t.werr = s.werr ∧ t.resp = s.resp ∧
      t.resets = s.resets ∧ t.draws = s.draws := by
    rw [hmove.frame]
    exact ⟨rfl, rfl, rfl, rfl, rfl, rfl, rfl, rfl, rfl⟩
  refine ⟨hdin, hdoneIe, hwerrIe, hround, hsel, hwerr, hresp, hresets, hdraws, fun hl k => ?_, fun hb => ?_, hmove.of_idle⟩
  · rw [hmove.slot hl, State.slot_setInputs]
  · obtain ⟨hk, hd, hc⟩ := hmove.of_busy hb
    have hk' : ∀ k, t.slot k = s.slot k := fun k => (hk k).trans (s.slot_setInputs _ k)
    exact ⟨fun k => ⟨hk' k, by rw [State.kv, hk', State.kv]⟩, hd, hc⟩

end Sys2Proof.Machine
end

section
/-! PROOFS. The host's registers (spec 10 R21 to R34, 20 R50): what each reads, what a performed write to each does, and that
the two agree. -/

namespace Sys2Proof.Machine

/-! ### Zero extension -/

theorem zero_append_eq_setWidth (m : Nat) {w : Nat} (x : BitVec w) : 0#m ++ x = x.setWidth (m + w) := by
  apply BitVec.eq_of_toNat_eq
  rw [BitVec.toNat_setWidth_of_le (Nat.le_add_left w m)]
  simp

theorem zero_append_append_eq_setWidth (m : Nat) {v w : Nat} (x : BitVec v) (y : BitVec w) :
    0#m ++ x ++ y = (x ++ y).setWidth (m + v + w) := by
  apply BitVec.eq_of_toNat_eq
  rw [BitVec.toNat_setWidth_of_le (by omega)]
  simp [BitVec.toNat_append]

/-- The low `n` bits of a word, zero extended, are the word under the mask of these bits. -/
theorem setWidth_low_bits {w n : Nat} (h : n ≤ w) (x : BitVec w) :
    (x.extractLsb' 0 n).setWidth w = x &&& BitVec.ofNat w (2 ^ n - 1) := by
  apply BitVec.eq_of_toNat_eq
  have hlt : 2 ^ n - 1 < 2 ^ w :=
    Nat.lt_of_lt_of_le (Nat.sub_lt (Nat.two_pow_pos n) Nat.one_pos) (Nat.pow_le_pow_right (by decide) h)
  rw [BitVec.toNat_setWidth_of_le h, BitVec.toNat_and, BitVec.toNat_ofNat, Nat.mod_eq_of_lt hlt,
    Nat.and_two_pow_sub_one_eq_mod]
  simp [BitVec.extractLsb'_toNat]

/-- Two adjacent low fields of a word, zero extended, are the word under the mask of both. -/
theorem zero_append_low_fields (m v n : Nat) (x : BitVec (m + v + n)) :
    0#m ++ x.extractLsb' n v ++ x.extractLsb' 0 n = x &&& BitVec.ofNat (m + v + n) (2 ^ (v + n) - 1) := by
  rw [zero_append_append_eq_setWidth, BitVec.extractLsb'_append_extractLsb'_eq_extractLsb' (by omega)]
  exact setWidth_low_bits (by omega) x

theorem bit_getLsbD {w : Nat} (x : BitVec w) (i : Nat) : bit (x.getLsbD i) = x.extractLsb' i 1 := by
  apply BitVec.eq_of_getLsbD_eq
  intro j hj
  obtain rfl : j = 0 := by omega
  simp [bit]

/-! ### One access at a named offset (20 R50) -/

theorem State.access_wr_idle {s : State} (he : s.eng = .idle) {addr : Addr} (h : misaligned addr = false) (w : Word) :
    s.access (.wr addr w) = (s.writeReg (regAt addr) w).respond (.write false) :=
  s.access_wr_performed h (.inl (State.busy_of_idle he)) w

/-- What a defined read answers (20 R57). -/
theorem State.resp_rd_defined {s : State} {addr : Addr} {v : Word} (h : misaligned addr = false)
    (hd : s.busy = false ∨ (regAt addr).openWhileBusy = false) (hv : s.regValue (regAt addr) = v) :
    (s.access (.rd addr)).resp = some (.read v false) := by
  rw [s.access_rd_defined h hd, hv, State.respond_resp]

/-! ### ID and PARAM (10 R21, R22) -/

/-- Settles O24: the two offsets are read-only and defined at all times. -/
theorem idAndParamAreConstant : Obligations.IdAndParamAreConstant := by
  unfold Obligations.IdAndParamAreConstant
  obtain ⟨hmod, hlow, hhigh⟩ := bufBytes_admitted
  exact ⟨hlow, hhigh, hmod, fun s w =>
    ⟨s.access_rd_defined rfl (.inr rfl), s.access_rd_defined rfl (.inr rfl),
      s.access_wr_performed rfl (.inr rfl) w, s.access_wr_performed rfl (.inr rfl) w⟩⟩

/-! ### STATUS (10 R24) -/

/-- Each bit of STATUS but those of ERRCODE, in its place. -/
theorem State.statusWord_bits (s : State) :
    s.statusWord.getLsbD 1 = s.done ∧ s.statusWord.getLsbD 2 = s.werr ∧ s.statusWord.getLsbD 3 = false ∧
      s.statusWord.getLsbD 8 = s.kv .a ∧ s.statusWord.getLsbD 9 = s.kv .b ∧ s.statusWord.getLsbD 10 = s.kv .c ∧
      ∀ b, 11 ≤ b → s.statusWord.getLsbD b = false := by
  simp only [State.statusWord, BitVec.getLsbD_append, bit]
  refine ⟨by simp, by simp, by simp, by simp, by simp, by simp, fun b hb => ?_⟩
  repeat rw [if_neg (by omega)]
  simp

theorem State.busy_iff (s : State) : s.busy = true ↔ s.eng ≠ .idle := by
  cases he : s.eng with
  | idle => simp [State.busy_of_idle he]
  | run c p => simp [State.busy_of_run he]

/-- Settles O25, reading the word bit by bit. -/
theorem statusWordHoldsTheFlags : Obligations.StatusWordHoldsTheFlags := by
  unfold Obligations.StatusWordHoldsTheFlags
  intro s
  obtain ⟨hdone, hwerr, h3, ha, hb, hc, hhigh⟩ := s.statusWord_bits
  refine ⟨s.statusWord, State.resp_rd_defined rfl (.inr rfl) rfl, ?_, hdone, hwerr, h3, ?_, ha, hb, hc, hhigh⟩
  · rw [State.statusWord_busy, State.busy_iff]
  · rw [State.statusWord_errCode]
    cases s.errCode <;> decide

/-! ### SK_HI and SK_LO (10 R32, R34) -/

/-- The selected subkey is the entry of the live schedule that ROUND names (41 R122: there are 16). -/
theorem State.sched_getElem?_selected {s : State} {k : Slot} (h : slotOf s.skSlot = some k) :
    (s.sched k)[s.skRound.toNat]? = some s.selectedSubkey := by
  have hlen : s.skRound.toNat < (s.sched k).length := by
    rw [State.sched, keySchedule_length]
    exact s.skRound.isLt
  simp only [State.selectedSubkey, h, List.getD_eq_getElem?_getD, List.getElem?_eq_getElem hlen, Option.getD_some]

theorem State.selectedSubkey_of_none {s : State} (h : slotOf s.skSlot = none) : s.selectedSubkey = 0#48 := by
  simp only [State.selectedSubkey, h]

theorem State.access_rd_subkey (s : State) :
    (s.access (.rd 0x001C#16)).resp = some (.read ((s.selectedSubkey.extractLsb' 32 16).setWidth 32) false) ∧
      (s.access (.rd 0x0020#16)).resp = some (.read (s.selectedSubkey.setWidth 32) false) :=
  ⟨State.resp_rd_defined rfl (.inr rfl) (zero_append_eq_setWidth 16 _),
    State.resp_rd_defined rfl (.inr rfl) (BitVec.setWidth_eq_extractLsb' (by decide)).symm⟩

/-- Settles O27: the two words are the halves of the selected subkey, and their offsets are read-only. -/
theorem subkeyReadoutShowsTheSchedule : Obligations.SubkeyReadoutShowsTheSchedule := by
  unfold Obligations.SubkeyReadoutShowsTheSchedule
  refine ⟨fun s k hk => ?_, fun s hs => ?_, fun s w =>
    ⟨s.access_wr_performed rfl (.inr rfl) w, s.access_wr_performed rfl (.inr rfl) w⟩⟩
  · have hslot : slotOf s.skSlot = some k := by
      simp only [List.mem_cons, Prod.mk.injEq, List.not_mem_nil, or_false] at hk
      rcases hk with ⟨h, rfl⟩ | ⟨h, rfl⟩ | ⟨h, rfl⟩ <;> rw [h] <;> rfl
    exact ⟨s.selectedSubkey, State.sched_getElem?_selected hslot, s.access_rd_subkey⟩
  · have hzero : s.selectedSubkey = 0#48 := State.selectedSubkey_of_none (by rw [hs]; rfl)
    have hread := s.access_rd_subkey
    rw [hzero] at hread
    exact hread

/-! ### The registers that the host writes (10 R25 to R31) -/

theorem State.writeReg_eng (s : State) {r : Reg} (hr : r ≠ .cmd) (w : Word) : (s.writeReg r w).eng = s.eng := by
  cases r with
  | cmd => exact absurd rfl hr
  | keyHi k | keyLo k => exact State.setSlot_eng _ _ _
  | window i => rw [State.writeReg, State.memWrite_eq, State.setBuf_eng]
  | _ => rfl

theorem State.slot_respond (s : State) (r : BusResp) (k : Slot) : (s.respond r).slot k = s.slot k := by
  cases k <;> rfl

theorem State.regValue_respond (s : State) (r : BusResp) (q : Reg) : (s.respond r).regValue q = s.regValue q := by
  cases q with
  | window i => exact State.memRead_congr fun _ _ _ => rfl
  | status | skHi | skLo | keyHi _ | keyLo _ =>
    simp [State.regValue, State.statusWord, State.selectedSubkey, State.sched, State.key, State.kv, State.busy,
      State.slot_respond]
  | _ => rfl

theorem State.key_writeKeyHi_same (s : State) (k : Slot) (w : Word) :
    (s.writeKeyHi k w).key k = w.extractLsb' 0 24 ++ (s.key k).extractLsb' 0 32 := by
  simp [State.key, State.writeKeyHi]

theorem State.key_writeKeyLo_same (s : State) (k : Slot) (w : Word) :
    (s.writeKeyLo k w).key k = (s.key k).extractLsb' 32 24 ++ w := by
  simp [State.key, State.writeKeyLo]

/-- The entry of `readBackMasks` that names the register; none where the register is not among them. -/
def Reg.readBackEntry : Reg → Option (Addr × Word)
  | .ie => some (0x0010#16, 0x00000003#32)
  | .length => some (0x0014#16, 0xFFFFFFFF#32)
  | .sksel => some (0x0018#16, 0x0000003F#32)
  | .keyHi k => some (keyHiAddr k, 0x00FFFFFF#32)
  | .keyLo k => some (keyLoAddr k, 0xFFFFFFFF#32)
  | .dinHi => some (0x0050#16, 0xFFFFFFFF#32)
  | .dinLo => some (0x0054#16, 0xFFFFFFFF#32)
  | .id | .param | .cmd | .status | .skHi | .skLo | .doutHi | .doutLo | .window _ | .reserved => none

theorem readBackEntry_regAt :
    ∀ p ∈ readBackMasks, (regAt p.1).readBackEntry = some p ∧ misaligned p.1 = false := by
  unfold readBackMasks
  repeat refine List.forall_mem_cons.2 ⟨⟨rfl, rfl⟩, ?_⟩
  exact List.forall_mem_nil _

/-- A register reads back the bits it holds of the word written to it. -/
theorem State.regValue_writeReg_same (s : State) {r : Reg} {p : Addr × Word} (hr : r.readBackEntry = some p) (w : Word) :
    (s.writeReg r w).regValue r = w &&& p.2 := by
  have hall : w = w &&& 0xFFFFFFFF#32 := BitVec.and_allOnes.symm
  cases r <;> cases hr
  case ie =>
    simp only [State.regValue, State.writeReg, State.writeIe, State.ieWord, State.setIe_doneIe, State.setIe_werrIe,
      bit_getLsbD]
    exact zero_append_low_fields 30 1 1 w
  case length => exact hall
  case sksel => exact zero_append_low_fields 26 2 4 w
  case keyHi k =>
    simp only [State.regValue, State.writeReg, State.key_writeKeyHi_same]
    rw [BitVec.extractLsb'_append_eq_left]
    exact (zero_append_eq_setWidth 8 _).trans (setWidth_low_bits (by decide) w)
  case keyLo k =>
    simp only [State.regValue, State.writeReg, State.key_writeKeyLo_same]
    rw [BitVec.extractLsb'_append_eq_right]
    exact hall
  case dinHi => exact BitVec.extractLsb'_append_eq_left.trans hall
  case dinLo => exact BitVec.extractLsb'_append_eq_right.trans hall

section Independence
variable {q : Reg} {p : Addr × Word}

/-- A change of one slot shows in the registers of that slot alone, in each only where its half of the key changes. -/
theorem State.regValue_setSlot (s : State) (hq : q.readBackEntry = some p) {k : Slot} {v : KeySlot}
    (hhi : q = .keyHi k → v.key.extractLsb' 32 24 = (s.key k).extractLsb' 32 24)
    (hlo : q = .keyLo k → v.key.extractLsb' 0 32 = (s.key k).extractLsb' 0 32) :
    (s.setSlot k v).regValue q = s.regValue q := by
  cases q <;> cases hq
  case keyHi j =>
    rcases eq_or_ne k j with rfl | h
    · simp only [State.regValue, State.key, State.slot_setSlot_same, hhi rfl]
    · simp only [State.regValue, State.key, State.slot_setSlot_ne s h]
  case keyLo j =>
    rcases eq_or_ne k j with rfl | h
    · simp only [State.regValue, State.key, State.slot_setSlot_same, hlo rfl]
    · simp only [State.regValue, State.key, State.slot_setSlot_ne s h]
  all_goals simp [State.regValue, State.ieWord]

/-- A change of DIN shows in DIN_HI and DIN_LO alone, in each only where its half changes. -/
theorem State.regValue_setDin (s : State) (hq : q.readBackEntry = some p) {b : Block}
    (hhi : q = .dinHi → b.extractLsb' 32 32 = s.din.extractLsb' 32 32)
    (hlo : q = .dinLo → b.extractLsb' 0 32 = s.din.extractLsb' 0 32) :
    (s.setDin b).regValue q = s.regValue q := by
  cases q <;> cases hq
  case dinHi => exact hhi rfl
  case dinLo => exact hlo rfl
  all_goals rfl

/-- A write to one of these registers changes what no other of them reads. -/
theorem State.regValue_writeReg_ne (s : State) {r : Reg} {p' : Addr × Word} (hr : r.readBackEntry = some p')
    (hq : q.readBackEntry = some p) (hne : q ≠ r) (w : Word) : (s.writeReg r w).regValue q = s.regValue q := by
  cases r <;> cases hr
  case keyHi k =>
    exact s.regValue_setSlot hq (fun h => absurd h hne) fun _ => BitVec.extractLsb'_append_eq_right
  case keyLo k =>
    exact s.regValue_setSlot hq (fun _ => BitVec.extractLsb'_append_eq_left) fun h => absurd h hne
  case dinHi => exact s.regValue_setDin hq (fun h => absurd h hne) fun _ => BitVec.extractLsb'_append_eq_right
  case dinLo => exact s.regValue_setDin hq (fun _ => BitVec.extractLsb'_append_eq_left) fun h => absurd h hne
  case ie | length | sksel => cases q <;> cases hq <;> first | exact absurd rfl hne | rfl

end Independence

/-- Settles O23: the eleven offsets are read-write registers, each with its own bits. -/
theorem registersReadBackWhatIsWritten : Obligations.RegistersReadBackWhatIsWritten := by
  unfold Obligations.RegistersReadBackWhatIsWritten
  intro s w he
  have hidle := State.busy_of_idle he
  refine ⟨?_, ?_, fun p hp => ?_⟩
  · have hwrite : ∀ {addr : Addr}, misaligned addr = false →
        s.access (.wr addr w) = (s.writeReg (regAt addr) w).respond (.write false) :=
      fun h => State.access_wr_idle he h w
    simp only [List.forall_mem_cons]
    exact ⟨hwrite rfl, hwrite rfl, hwrite rfl, hwrite rfl, hwrite rfl, hwrite rfl, hwrite rfl, hwrite rfl, hwrite rfl,
      hwrite rfl, hwrite rfl, List.forall_mem_nil _⟩
  · have hread : ∀ {addr : Addr} {v : Word}, misaligned addr = false → s.regValue (regAt addr) = v →
        (s.access (.rd addr)).resp = some (.read v false) := fun h hv => State.resp_rd_defined h (.inl hidle) hv
    have hkey : ∀ x : BitVec 24, 0#8 ++ x = x.setWidth 32 := zero_append_eq_setWidth 8
    simp only [List.forall_mem_cons]
    exact ⟨hread rfl (zero_append_append_eq_setWidth 30 _ _), hread rfl rfl,
      hread rfl (zero_append_append_eq_setWidth 26 _ _), hread rfl (hkey _), hread rfl rfl, hread rfl (hkey _),
      hread rfl rfl, hread rfl (hkey _), hread rfl rfl, hread rfl rfl, hread rfl rfl, hread rfl rfl, hread rfl rfl,
      List.forall_mem_nil _⟩
  · obtain ⟨hreg, hal⟩ := readBackEntry_regAt p hp
    have hcmd : regAt p.1 ≠ .cmd := fun h => by rw [h] at hreg; cases hreg
    have hbusy : (s.access (.wr p.1 w)).busy = false := by
      refine State.busy_of_idle ?_
      rw [State.access_wr_idle he hal, State.respond_eng, State.writeReg_eng _ hcmd, he]
    have hval : ∀ q, (s.access (.wr p.1 w)).regValue q = (s.writeReg (regAt p.1) w).regValue q := by
      intro q
      rw [State.access_wr_idle he hal, State.regValue_respond]
    refine ⟨State.resp_rd_defined hal (.inl hbusy) ((hval _).trans (s.regValue_writeReg_same hreg w)), ?_⟩
    intro q hq hne
    obtain ⟨hreg', hal'⟩ := readBackEntry_regAt q hq
    have hdiff : regAt q.1 ≠ regAt p.1 := fun h => by
      rw [h, hreg, Option.some.injEq] at hreg'
      exact hne (congrArg Prod.fst hreg'.symm)
    rw [State.resp_rd_defined hal' (.inl hidle) rfl]
    exact State.resp_rd_defined hal' (.inl hbusy) ((hval _).trans (s.regValue_writeReg_ne hreg hreg' hdiff w))

end Sys2Proof.Machine
end

section
/-! PROOFS. The written-flags (spec 10 R28): a key write or LDKEYS sets them, and only a reset clears one. -/

namespace Sys2Proof.Machine

/-- Every written-flag that is set in `s` is set in `t`. -/
def FlagsKept (s t : State) : Prop :=
  ∀ k, ((s.slot k).hw = true → (t.slot k).hw = true) ∧ ((s.slot k).lw = true → (t.slot k).lw = true)

theorem FlagsKept.of_slot {s t : State} (h : ∀ k, t.slot k = s.slot k) : FlagsKept s t := fun k => by
  rw [h k]
  exact ⟨id, id⟩

/-- Setting one slot keeps the flags when the slot's own are kept. -/
theorem FlagsKept.setSlot (s : State) {k : Slot} {v : KeySlot} (hhw : (s.slot k).hw = true → v.hw = true)
    (hlw : (s.slot k).lw = true → v.lw = true) : FlagsKept s (s.setSlot k v) := by
  intro j
  rcases eq_or_ne k j with rfl | h
  · rw [State.slot_setSlot_same]
    exact ⟨hhw, hlw⟩
  · rw [State.slot_setSlot_ne s h]
    exact ⟨id, id⟩

theorem FlagsKept.respond {s t : State} (h : FlagsKept s t) (r : BusResp) : FlagsKept s (t.respond r) := fun k => by
  rw [State.slot_respond]
  exact h k

theorem State.flagsKept_writeReg (s : State) (r : Reg) (w : Word) : FlagsKept s (s.writeReg r w) := by
  cases r with
  | keyHi k => exact .setSlot s (fun _ => rfl) id
  | keyLo k => exact .setSlot s id fun _ => rfl
  | window i =>
    refine .of_slot fun k => ?_
    rw [State.writeReg, State.memWrite_eq, State.slot_setBuf]
  | _ => exact .of_slot fun k => by cases k <;> rfl

/-- No transaction of the host clears a written-flag. -/
theorem State.flagsKept_access (s : State) (req : BusReq) : FlagsKept s (s.access req) := by
  cases req with
  | rd addr =>
    simp only [State.access, State.hostRead]
    split_ifs <;> exact .of_slot fun k => by cases k <;> rfl
  | wr addr w =>
    simp only [State.access, State.hostWrite]
    split_ifs
    · exact .of_slot fun k => by cases k <;> rfl
    · exact .of_slot fun k => by cases k <;> rfl
    · exact (s.flagsKept_writeReg _ w).respond _

/-- No turn of the engine clears a written-flag: LDKEYS sets all six, and nothing else writes them (46 R221). -/
theorem EngineMove.flagsKept {s t : State} (h : EngineMove s t) : FlagsKept s t := by
  cases h with
  | keys he => intro k; cases k <;> exact ⟨fun _ => rfl, fun _ => rfl⟩
  | @whole i he =>
    by_cases hi : i = .ldkeys
    · subst hi
      intro k; cases k <;> exact ⟨fun _ => rfl, fun _ => rfl⟩
    · exact .of_slot (State.body_slot i s hi)
  | _ => exact .of_slot fun k => by cases k <;> rfl

/-- No step but a reset clears a written-flag. -/
theorem step_flagsKept {s t : State} (h : step s = .next t) (hr : ∀ rest, s.inputs ≠ .reset :: rest) : FlagsKept s t := by
  have hset : ∀ {rest}, FlagsKept (s.setInputs rest) t → FlagsKept s t := by
    intro rest hk k
    rw [← s.slot_setInputs rest]
    exact hk k
  unfold step at h
  split at h
  · exact (engineTurn_move h).flagsKept
  · cases h; exact hset (State.flagsKept_access _ _)
  · next rest he => exact absurd he (hr rest)
  · exact hset (phaseStep_move h).flagsKept
  · exact hset (engineTurn_move h).flagsKept

/-- Settles O15: KEYs_HI and KEYs_LO set their own flag, and every step but a reset keeps the flags. -/
theorem onlyResetClearsAWrittenFlag : Obligations.OnlyResetClearsAWrittenFlag := by
  unfold Obligations.OnlyResetClearsAWrittenFlag
  refine ⟨fun s k => rfl, fun s w k hi lo he hk => ?_, fun s t k h hr => step_flagsKept h hr k⟩
  have hregs : regAt hi = .keyHi k ∧ regAt lo = .keyLo k ∧ misaligned hi = false ∧ misaligned lo = false := by
    simp only [List.mem_cons, Prod.mk.injEq, List.not_mem_nil, or_false] at hk
    rcases hk with ⟨rfl, rfl, rfl⟩ | ⟨rfl, rfl, rfl⟩ | ⟨rfl, rfl, rfl⟩ <;> exact ⟨rfl, rfl, rfl, rfl⟩
  obtain ⟨hhi, hlo, hahi, halo⟩ := hregs
  rw [State.access_wr_idle he hahi, State.access_wr_idle he halo, hhi, hlo, State.slot_respond, State.slot_respond,
    State.writeReg, State.writeReg, State.writeKeyHi, State.writeKeyLo, State.slot_setSlot_same, State.slot_setSlot_same]
  exact ⟨rfl, rfl⟩

end Sys2Proof.Machine
end

section
/-! PROOFS. The host's accesses by class of offset (spec 20 R50 to R60): alignment, reserved offsets, the busy interlock, the
window, and what a read leaves as it was. -/

namespace Sys2Proof.Machine

/-! ### Classes of offsets (10 R20, 20 R56, R57) -/

/-- A fact about the registers at some listed offsets, offset by offset. -/
theorem regAt_of_mem {P : Reg → Prop} {l : List Nat} (hl : ∀ a ∈ l, P (regAt (BitVec.ofNat 16 a))) {addr : Addr}
    (h : addr.toNat ∈ l) : P (regAt addr) := by
  have ha := hl _ h
  rwa [BitVec.ofNat_toNat, BitVec.setWidth_eq] at ha

theorem regAt_interlocked {addr : Addr} (h : interlockedOffset addr.toNat) : (regAt addr).interlocked = true := by
  rcases h with h | h
  · exact regAt_of_mem (P := fun r => r.interlocked = true) (by decide) h
  · rw [regAt_inWindow h]
    rfl

/-- A register that ignores every write, at all times. -/
def Reg.ignoresWrites (r : Reg) : Prop := r.interlocked = false ∧ ∀ (s : State) (w : Word), s.writeReg r w = s

theorem regAt_ignoresWrites {addr : Addr} (h : ignoredOffset addr.toNat) : (regAt addr).ignoresWrites := by
  rcases h with h | h
  · refine regAt_of_mem ?_ h
    simp only [List.forall_mem_cons]
    exact ⟨⟨rfl, fun _ _ => rfl⟩, ⟨rfl, fun _ _ => rfl⟩, ⟨rfl, fun _ _ => rfl⟩, ⟨rfl, fun _ _ => rfl⟩,
      ⟨rfl, fun _ _ => rfl⟩, ⟨rfl, fun _ _ => rfl⟩, List.forall_mem_nil _⟩
  · rw [regAt_reserved h]
    exact ⟨rfl, fun _ _ => rfl⟩

theorem State.access_wr_ignored (s : State) {addr : Addr} (h : misaligned addr = false) (hr : (regAt addr).ignoresWrites)
    (w : Word) : s.access (.wr addr w) = s.respond (.write false) := by
  rw [s.access_wr_performed h (.inr hr.1), hr.2]

/-- Outside STATUS, LENGTH, DOUT and the window, a register's value is defined at all times and is no function of ENG. -/
theorem regAt_defined {addr : Addr} (h : addr.toNat ∉ [0x000C, 0x0014, 0x0058, 0x005C]) (hw : ¬ inWindow addr.toNat) :
    regAt addr ≠ .status ∧ (regAt addr).openWhileBusy = false := by
  unfold inWindow at hw
  unfold regAt
  split
  case h_4 heq | h_6 heq | h_18 heq | h_19 heq => simp [heq] at h
  case h_20 =>
    rw [if_neg hw]
    exact ⟨nofun, rfl⟩
  all_goals exact ⟨nofun, rfl⟩

/-! ### Writes (20 R56, R58) -/

/-- Settles O16: the class of the offset says whether the write is dropped, performed or ignored. -/
theorem busyInterlockDropsWrites : Obligations.BusyInterlockDropsWrites := by
  unfold Obligations.BusyInterlockDropsWrites
  intro s addr w h
  have hal := misaligned_of_aligned h
  refine ⟨fun hb hi => s.access_wr_dropped hal hb (regAt_interlocked hi) w, ?_, ?_, fun hi =>
    s.access_wr_ignored hal (regAt_ignoresWrites hi) w⟩
  · rintro rfl
    exact s.access_wr_performed rfl (.inr rfl) w
  · rintro rfl
    exact s.access_wr_performed rfl (.inr rfl) w

/-- Settles O18: a reserved offset is defined at all times and ignores writes. -/
theorem reservedOffsetsReadZeroAndIgnoreWrites : Obligations.ReservedOffsetsReadZeroAndIgnoreWrites := by
  unfold Obligations.ReservedOffsetsReadZeroAndIgnoreWrites
  intro s addr w h hr
  have hal := misaligned_of_aligned h
  have hreg := regAt_reserved hr
  refine ⟨?_, s.access_wr_ignored hal (regAt_ignoresWrites (.inr hr)) w⟩
  rw [s.access_rd_defined hal (.inr (by rw [hreg]; rfl)), hreg]
  rfl

/-! ### Alignment (20 R51) -/

/-- An aligned read is no error: its word is defined or a free draw. -/
theorem State.resp_rd_aligned (s : State) {addr : Addr} (h : misaligned addr = false) :
    ∃ v, (s.access (.rd addr)).resp = some (.read v false) := by
  by_cases hopen : s.busy = true ∧ (regAt addr).openWhileBusy = true
  · rw [s.access_rd_open h hopen.1 hopen.2]
    exact ⟨_, rfl⟩
  · rw [s.access_rd_defined h (by simpa [imp_iff_not_or] using hopen)]
    exact ⟨_, rfl⟩

/-- An aligned write is no error, dropped or performed. -/
theorem State.resp_wr_aligned (s : State) {addr : Addr} (h : misaligned addr = false) (w : Word) :
    (s.access (.wr addr w)).resp = some (.write false) := by
  by_cases hdrop : s.busy = true ∧ (regAt addr).interlocked = true
  · rw [s.access_wr_dropped h hdrop.1 hdrop.2]
    rfl
  · rw [s.access_wr_performed h (by simpa [imp_iff_not_or] using hdrop)]
    rfl

/-- Settles O17: an access is misaligned or it is not an error. -/
theorem misalignedAccessIsAnErrorWithoutEffect : Obligations.MisalignedAccessIsAnErrorWithoutEffect := by
  unfold Obligations.MisalignedAccessIsAnErrorWithoutEffect
  intro s addr w
  constructor
  · intro h
    have hmis : misaligned addr = true := decide_eq_true h
    exact ⟨s.access_rd_misaligned hmis, s.access_wr_misaligned hmis w⟩
  · intro h
    have hal : misaligned addr = false := decide_eq_false (not_not_intro h)
    exact ⟨s.resp_rd_aligned hal, s.resp_wr_aligned hal w⟩

/-! ### The window (20 R52, R54, R60) -/

theorem State.eng_of_not_busy {s : State} (h : s.busy = false) : s.eng = .idle := by
  by_contra he
  simp [s.busy_iff.2 he] at h

/-- A window read while BUSY = 0 answers the four bytes of its word. -/
theorem State.resp_rd_window {s : State} (hb : s.busy = false) {i : Nat} (hi : i < bufBytes / 4) :
    (s.access (.rd (BitVec.ofNat 16 (0x1000 + 4 * i)))).resp = some (.read (s.memRead (4 * i) 4) false) :=
  State.resp_rd_defined (windowAddr_aligned i) (.inl hb) (by rw [regAt_window hi]; rfl)

/-- A block is its two window words, the most significant first. -/
theorem State.readBlock_eq_window_words (s : State) (j : Nat) :
    s.readBlock j = (s.memRead (4 * (2 * j)) 4 ++ s.memRead (4 * (2 * j + 1)) 4 : BitVec (8 * 4 + 8 * 4)) := by
  apply BitVec.eq_of_getLsbD_eq
  intro b hb
  rw [State.readBlock, State.getLsbD_memRead _ _ _ _ hb, BitVec.getLsbD_append]
  split
  · next h =>
    rw [State.getLsbD_memRead _ _ _ _ h]
    congr 2
    omega
  · next h =>
    rw [State.getLsbD_memRead _ _ _ _ (by omega)]
    have hbit : (b - 8 * 4) % 8 = b % 8 := by omega
    rw [hbit]
    congr 2
    omega

/-- Settles O20: each of the two words is inside BUF. -/
theorem blockIsTwoWindowWords : Obligations.BlockIsTwoWindowWords := by
  unfold Obligations.BlockIsTwoWindowWords
  intro s j hj hb
  exact ⟨s.memRead (4 * (2 * j)) 4, s.memRead (4 * (2 * j + 1)) 4, State.resp_rd_window hb (by omega),
    State.resp_rd_window hb (by omega), s.readBlock_eq_window_words j⟩

/-- Position 1 of a block is the most significant bit of its first window word (20 R52). -/
theorem State.getLsbD_readBlock_63 (s : State) (j : Nat) :
    (s.readBlock j).getLsbD 63 = (s.memRead (4 * (2 * j)) 4).getLsbD 31 := by
  rw [s.readBlock_eq_window_words, BitVec.getLsbD_append, if_neg (by decide)]

/-- Settles O19: a window write is a `memWrite` of four bytes. -/
theorem windowWordIsFourBytesBigEndian : Obligations.WindowWordIsFourBytesBigEndian := by
  unfold Obligations.WindowWordIsFourBytesBigEndian
  intro s i w hi hb
  have hread := State.resp_rd_window hb hi
  have hwrite := State.access_wr_window (State.eng_of_not_busy hb) hi w
  have hbyte : ∀ a, ((s.memWrite (4 * i) 4 w).respond (.write false)).readByte a =
      if 4 * i ≤ a ∧ a < 4 * i + 4 then w.extractLsb' (8 * (4 - (a - 4 * i)) - 8) 8 else s.readByte a :=
    s.readByte_memWrite (4 * i) 4 w
  refine ⟨memRead_four s (4 * i) ▸ hread, _, hwrite, ?_, ?_, ?_, ?_, ?_, fun a ha => ?_, ?_⟩
  · rw [State.memWrite_eq]
    rfl
  · rw [hbyte, if_pos (by omega), Nat.sub_self]
  · rw [hbyte, if_pos (by omega), Nat.add_sub_cancel_left]
  · rw [hbyte, if_pos (by omega), Nat.add_sub_cancel_left]
  · rw [hbyte, if_pos (by omega), Nat.add_sub_cancel_left]
  · rw [hbyte, if_neg (by omega)]
  · rintro j v rfl hv
    rw [hread, Option.some.injEq, BusResp.read.injEq] at hv
    rw [s.getLsbD_readBlock_63, hv.1]

/-! ### Reads (20 R50, R57, R59) -/

/-- A read changes the port's response and the count of draws alone. -/
theorem State.access_rd_frame (s : State) (addr : Addr) : ∃ r d, s.access (.rd addr) = { s with resp := r, draws := d } := by
  simp only [State.access, State.hostRead]
  split_ifs
  · exact ⟨_, _, rfl⟩
  · exact ⟨_, _, rfl⟩
  · exact ⟨_, _, rfl⟩

/-- Settles O21: while BUSY = 0 the value that a read answers is a function of what the read leaves as it was. -/
theorem readsHaveNoSideEffect : Obligations.ReadsHaveNoSideEffect := by
  unfold Obligations.ReadsHaveNoSideEffect
  intro s addr
  refine ⟨s.access_rd_frame addr, fun hb => ?_⟩
  have hb' : ∀ r, (s.respond r).busy = false := fun _ => hb
  cases h : misaligned addr with
  | true =>
    rw [s.access_rd_misaligned h, State.access_rd_misaligned _ h]
    rfl
  | false =>
    rw [s.access_rd_defined h (.inl hb), State.access_rd_defined _ h (.inl (hb' _)), State.regValue_respond]
    rfl

/-- Of the registers STATUS alone shows ENG. -/
theorem State.regValue_setEng (s : State) {q : Reg} (hq : q ≠ .status) (e : Engine) :
    (s.setEng e).regValue q = s.regValue q := by
  have hslot : ∀ k, (s.setEng e).slot k = s.slot k := fun k => by cases k <;> rfl
  cases q with
  | status => exact absurd rfl hq
  | window i => exact State.memRead_congr fun _ _ _ => rfl
  | skHi | skLo | keyHi _ | keyLo _ => simp [State.regValue, State.selectedSubkey, State.sched, State.key, hslot]
  | _ => rfl

/-- Setting the lowest bit of a word. -/
theorem append_bit_true {n : Nat} (x : BitVec n) : x ++ bit true = (x ++ bit false) ||| BitVec.ofNat (n + 1) 1 := by
  apply BitVec.eq_of_getLsbD_eq
  intro i hi
  cases i with
  | zero => simp [bit, BitVec.getElem_append]
  | succ i => simp [bit, BitVec.getLsbD_append]

/-- STATUS while BUSY = 1 is STATUS of the same registers with the engine Idle, and bit 0 (10 R24). -/
theorem State.statusWord_of_busy {s : State} (hb : s.busy = true) :
    s.statusWord = (s.setEng .idle).statusWord ||| 0x00000001#32 := by
  have hkv : ∀ k, (s.setEng .idle).kv k = s.kv k := fun k => by cases k <;> rfl
  have hidle : (s.setEng .idle).busy = false := rfl
  simp only [State.statusWord, hb, hidle, hkv, append_bit_true]
  rfl

/-- Settles O22: a defined register but STATUS does not show ENG. -/
theorem readsOfOtherRegistersAreDefinedWhileBusy : Obligations.ReadsOfOtherRegistersAreDefinedWhileBusy := by
  unfold Obligations.ReadsOfOtherRegistersAreDefinedWhileBusy
  intro s addr hb h
  have hal := misaligned_of_aligned h
  refine ⟨fun _ => s.resp_rd_aligned hal, fun hlist hwin => ?_, ?_⟩
  · obtain ⟨hst, hopen⟩ := regAt_defined hlist hwin
    have hidle := State.resp_rd_defined (s := s.setEng .idle) hal (.inr hopen) rfl
    exact (State.resp_rd_defined hal (.inr hopen) (s.regValue_setEng hst .idle).symm).trans hidle.symm
  · rintro rfl
    exact State.resp_rd_defined rfl (.inr rfl) (State.statusWord_of_busy hb)

end Sys2Proof.Machine
end

section
/-! PROOFS. Progress (spec 20 R53; 60 R304; 70 R361; 30 R77; 93 part 1): under the invariant every step answers, a weakly fair
engine ends every command, and a WAIT reads BUSY = 0. -/

namespace Sys2Proof.Machine

/-! ### No step stops (93 part 1) -/

section Phases
variable {s : State} {i : Instr}

theorem InPhase.singleStep_next (h : InPhase s i .single) : ∃ t, singleStep i s = .next t := by
  obtain ⟨b, hb⟩ := Option.isSome_iff_exists.1 h.phase
  exact ⟨_, by rw [singleStep, hb]⟩

/-- The padding fits BUF (20 R53). -/
theorem InPhase.padStep_next (h : InPhase s i .pad) : ∃ t, padStep i s = .next t := by
  obtain ⟨hpad, hroom⟩ := h.phase
  obtain ⟨p, hp⟩ := Option.isSome_iff_exists.1 hpad
  exact ⟨s.addPadding.goTo i p, by simp only [padStep, hp, hroom, Bool.false_eq_true, if_false]⟩

/-- The blocks of a pass lie inside BUF (20 R53). -/
theorem InPhase.passStep_next {p : PassNo} {done : List Nat} (h : InPhase s i (.pass p done)) (pick : Nat) :
    ∃ t, passStep i p done pick s = .next t := by
  obtain ⟨hpass, hlong, -⟩ := h.phase
  obtain ⟨plan, hplan⟩ := Option.isSome_iff_exists.1 hpass
  rcases passStep_cases hplan p done pick hlong with ⟨-, hst⟩ | ⟨j, -, hst⟩
  · exact ⟨_, hst⟩
  · exact ⟨_, hst⟩

/-- The last byte lies inside BUF (20 R53). -/
theorem InPhase.unpadStep_next (h : InPhase s i .unpad) : ∃ t, unpadStep i s = .next t := by
  obtain ⟨hunpad, hlong, hempty⟩ := h.phase
  have hlen : s.len ≠ 0 := (s.emptyOrUnaligned_eq_false.1 hempty).1
  unfold unpadStep
  simp only [hunpad, hlong, hlen, Bool.not_true, Bool.false_or, decide_false, Bool.false_eq_true, if_false]
  split
  · exact ⟨_, rfl⟩
  · exact ⟨_, rfl⟩

theorem InPhase.loadKeysStep_next (h : InPhase s i .loadKeys) : ∃ t, loadKeysStep i s = .next t :=
  ⟨_, if_pos h.phase.1⟩

end Phases

/-- Every single step of the engine answers a next state (45 R210). -/
theorem phaseStep_next {s : State} (h : Inv s) (pick : Nat) : ∃ t, phaseStep pick s = .next t := by
  unfold phaseStep
  split
  · exact ⟨_, rfl⟩
  · exact ⟨_, rfl⟩
  · exact ⟨_, rfl⟩
  · next he => exact (h.inPhase he).singleStep_next
  · next he => exact (h.inPhase he).padStep_next
  · next he => exact (h.inPhase he).passStep_next pick
  · next he => exact (h.inPhase he).unpadStep_next
  · next he => exact (h.inPhase he).loadKeysStep_next
  · exact ⟨_, rfl⟩

/-- Every turn of the engine answers a next state (45 R210, R211). -/
theorem engineTurn_next {s : State} (h : Inv s) : ∃ t, engineTurn s = .next t := by
  unfold engineTurn
  split
  · exact exec_answers_next _ s
  all_goals exact phaseStep_next h 0

theorem inv_setInputs {s : State} (h : Inv s) (is : List Input) : Inv (s.setInputs is) := inv_congr h rfl rfl rfl id rfl

/-- Every step answers a next state. -/
theorem step_next {s : State} (h : Inv s) : ∃ t, step s = .next t := by
  unfold step
  split
  · exact engineTurn_next h
  · exact ⟨_, rfl⟩
  · exact ⟨_, rfl⟩
  · exact phaseStep_next (inv_setInputs h _) _
  · exact engineTurn_next (inv_setInputs h _)

/-- An issued event is a step, so it answers a next state that meets the invariant. -/
theorem issue_next_inv {s : State} (h : Inv s) (e : Input) : ∃ t, s.issue e = .next t ∧ Inv t := by
  have hs : Inv (s.setInputs (e :: s.inputs)) := inv_setInputs h _
  obtain ⟨t, ht⟩ := step_next hs
  exact ⟨t, ht, everyStepKeepsTheInvariant _ t hs ht⟩

/-! ### A running command ends (70 R361) -/

section Executions
variable {x : Execution} {n : Nat}

theorem Execution.stepsLeft_le (hb : ∀ m, n ≤ m → (x.state m).busy = true) {m : Nat} (hm : n ≤ m) :
    (x.state m).stepsLeft ≤ (x.state n).stepsLeft := by
  induction m, hm using Nat.le_induction with
  | base => exact Nat.le_refl _
  | succ m hm ih => exact (issue_stepsLeft_le (hb m hm) (x.steps m)).trans ih

/-- A weakly fair engine does not run for ever: each of its steps leaves fewer, and it takes one more whenever it runs. -/
theorem Execution.exists_not_busy (hx : x.WeaklyFair) (n : Nat) : ∃ m, n ≤ m ∧ (x.state m).busy = false := by
  by_contra hne
  have hb : ∀ m, n ≤ m → (x.state m).busy = true := by simpa using hne
  induction hk : (x.state n).stepsLeft using Nat.strong_induction_on generalizing n with
  | _ d ih =>
    obtain ⟨k, hnk, he⟩ := hx n (fun m hm => (State.busy_iff _).1 (hb m hm)) n (Nat.le_refl n)
    have hless : (x.state (k + 1)).stepsLeft < d := calc
      (x.state (k + 1)).stepsLeft < (x.state k).stepsLeft := issue_ofEngine_stepsLeft he (hb k hnk) (x.steps k)
      _ ≤ d := hk ▸ Execution.stepsLeft_le hb hnk
    have hb' : ∀ m, k + 1 ≤ m → (x.state m).busy = true := fun m hm => hb m (by omega)
    exact ih _ hless (k + 1) (by simpa using hb') hb' rfl

/-- The first state at or after `n` with BUSY = 0, from a running command on. -/
theorem Execution.exists_last_busy (hx : x.WeaklyFair) (hb : (x.state n).busy = true) :
    ∃ m, n ≤ m ∧ (∀ k, n ≤ k → k ≤ m → (x.state k).busy = true) ∧ (x.state (m + 1)).busy = false := by
  have hex := Execution.exists_not_busy hx n
  obtain ⟨hn, hidle⟩ := Nat.find_spec hex
  have hbefore : ∀ k, n ≤ k → k < Nat.find hex → (x.state k).busy = true := fun k hk hlt => by
    simpa [hk] using Nat.find_min hex hlt
  have hne : Nat.find hex ≠ n := fun h => by rw [h, hb] at hidle; cases hidle
  have hsucc : Nat.find hex - 1 + 1 = Nat.find hex := by omega
  exact ⟨Nat.find hex - 1, by omega, fun k hk hkm => hbefore k hk (by omega), hsucc.symm ▸ hidle⟩

/-! ### A WAIT reads BUSY = 0 (30 R77, 70 R361) -/

/-- A poll of STATUS answers the STATUS word. -/
theorem State.resp_rd_status (s : State) : (s.access (.rd 0x000C#16)).resp = some (.read s.statusWord false) :=
  State.resp_rd_defined rfl (.inr rfl) rfl

/-- In a WAIT an Idle engine stays Idle: the host only reads, and the engine does nothing (70 R343). -/
theorem issue_idle {s t : State} {e : Input} (hi : s.eng = .idle) (he : e.ofEngine = true ∨ e = asmRd 0x000C#16)
    (h : s.issue e = .next t) : t.eng = .idle := by
  cases e with
  | access req =>
    obtain rfl : req = .rd 0x000C#16 := by simpa [Input.ofEngine, asmRd] using he
    obtain ⟨r, d, hrd⟩ := s.access_rd_frame 0x000C#16
    rw [State.issue_access, hrd] at h
    cases h
    exact hi
  | reset => simp [Input.ofEngine, asmRd] at he
  | phase pick => rwa [(phaseStep_move h).of_idle hi]
  | run => rwa [(engineTurn_move h).of_idle hi]

theorem Execution.WaitsFrom.stays_idle (hw : x.WaitsFrom n) {m : Nat} (hnm : n ≤ m) (hi : (x.state m).eng = .idle) {k : Nat}
    (hk : m ≤ k) : (x.state k).eng = .idle := by
  induction k, hk using Nat.le_induction with
  | base => exact hi
  | succ k hk ih => exact issue_idle ih (hw.1 k (hnm.trans hk)) (x.steps k)

/-- A WAIT that polls without end reads BUSY = 0. -/
theorem Execution.WaitsFrom.reads_idle (hx : x.WeaklyFair) (hw : x.WaitsFrom n) :
    ∃ m v, n ≤ m ∧ x.event m = .access (.rd 0x000C#16) ∧ (x.state (m + 1)).resp = some (.read v false) ∧
      v.getLsbD 0 = false := by
  obtain ⟨m, hm, hb⟩ := Execution.exists_not_busy hx n
  obtain ⟨k, hk, he⟩ := hw.2 m hm
  have hidle := hw.stays_idle hm (State.eng_of_not_busy hb) hk
  have hstep : x.state (k + 1) = (x.state k).access (.rd 0x000C#16) := by
    have h := x.steps k
    rw [he, asmRd, State.issue_access, Host.Outcome.next.injEq] at h
    exact h.symm
  refine ⟨k, (x.state k).statusWord, hm.trans hk, he, by rw [hstep, State.resp_rd_status], ?_⟩
  rw [State.statusWord_busy, State.busy_of_idle hidle]

end Executions

/-! ### The finite WAIT (log entry 14) -/

theorem Turn.event_ofEngine (e : Turn) : e.event.ofEngine = true := by
  cases e <;> rfl

theorem hostStep_of_issue {e : Input} {s t : State} (h : s.issue e = .next t) : hostStep e s = .ok t := by
  simp only [hostStep, h]

/-- A poll that reads BUSY = 0 ends the WAIT. -/
theorem hostWait_of_not_busy {s : State} (hb : s.busy = false) (turns : List Turn) :
    hostWait turns s = .ok (s.respond (.read s.statusWord false)) := by
  cases turns <;> simp only [hostWait, hostRd_status, Except.bind, State.statusWord_busy, hb, Bool.false_eq_true, if_false]

/-- After a poll that reads BUSY = 1 the engine has its next turn. -/
theorem hostWait_cons_of_busy {s : State} (hb : s.busy = true) (e : Turn) (es : List Turn) :
    hostWait (e :: es) s = (hostStep e.event (s.respond (.read s.statusWord false))).bind (hostWait es) := by
  simp only [hostWait, hostRd_status, Except.bind, State.statusWord_busy, hb, if_true]

theorem State.stepsLeft_respond (s : State) (r : BusResp) : (s.respond r).stepsLeft = s.stepsLeft := rfl

/-- A turn of a running engine answers a next state with fewer steps left. -/
theorem issue_turn_next {s : State} (h : Inv s) (hb : s.busy = true) (e : Turn) :
    ∃ t, s.issue e.event = .next t ∧ Inv t ∧ t.stepsLeft < s.stepsLeft := by
  obtain ⟨t, ht, hinv⟩ := issue_next_inv h e.event
  exact ⟨t, ht, hinv, issue_ofEngine_stepsLeft e.event_ofEngine hb ht⟩

/-- A WAIT with a turn for each step that is left ends, and ends with the engine Idle. -/
theorem hostWait_ends {s : State} (h : Inv s) {turns : List Turn} (hl : s.stepsLeft ≤ turns.length) :
    ∃ t, hostWait turns s = .ok t ∧ t.busy = false := by
  induction turns generalizing s with
  | nil =>
    have hb : s.busy = false := by
      by_contra hb
      obtain ⟨t, -, -, hless⟩ := issue_turn_next h (by simpa using hb) .whole
      rw [List.length_nil] at hl
      omega
    exact ⟨_, hostWait_of_not_busy hb [], hb⟩
  | cons e es ih =>
    cases hb : s.busy with
    | false => exact ⟨_, hostWait_of_not_busy hb _, hb⟩
    | true =>
      obtain ⟨u, hu, hinv, hless⟩ := issue_turn_next (inv_respond h (.read s.statusWord false)) hb e
      rw [hostWait_cons_of_busy hb, hostStep_of_issue hu]
      rw [State.stepsLeft_respond] at hless
      rw [List.length_cons] at hl
      exact ih hinv (by omega)

/-- Settles O13: under the invariant every step answers, and each engine step of a running command leaves fewer steps. -/
theorem noRunStops : Obligations.NoRunStops := by
  unfold Obligations.NoRunStops
  refine ⟨fun s h => step_next h, fun x hx n hb => ?_, fun x hx n hw => hw.reads_idle hx, fun s h =>
    ⟨s.stepsLeft, fun turns hl => hostWait_ends h hl⟩⟩
  obtain ⟨m, hm, hbusy, hidle⟩ := Execution.exists_last_busy hx hb
  exact ⟨m, hm, hbusy, hidle, issue_done (hbusy m hm (Nat.le_refl m)) (x.steps m) hidle⟩

end Sys2Proof.Machine
end

section
/-! PROOFS. Encoding (spec 30 R70 to R75; 60 R301): the decoder inverts the encoder, so the legal words are the encodings of
the well-formed instructions; every other word completes with ILLEGAL_CMD. -/

namespace Sys2Proof.Machine

/-! ### The fields of a word (30 R70) -/

theorem rsvField_toNat (w : Word) : (rsvField w).toNat = w.toNat / 64 := by
  rw [rsvField, BitVec.extractLsb'_toNat, Nat.shiftRight_eq_div_pow]
  exact Nat.mod_eq_of_lt (by omega)

theorem kselField_toNat (w : Word) : (kselField w).toNat = w.toNat / 16 % 4 := by
  rw [kselField, BitVec.extractLsb'_toNat, Nat.shiftRight_eq_div_pow]

theorem opField_toNat (w : Word) : (opField w).toNat = w.toNat % 16 := by
  rw [opField, BitVec.extractLsb'_toNat, Nat.shiftRight_zero]

theorem encode_toNat (i : Instr) : (encode i).toNat = 16 * (kselOf i).toNat + (opOf i).toNat := by
  have happ : (encode i).toNat = (kselOf i).toNat <<< 4 ||| (opOf i).toNat := by
    rw [encode, BitVec.toNat_append, BitVec.toNat_append, BitVec.toNat_ofNat, Nat.zero_mod, Nat.zero_shiftLeft, Nat.zero_or]
  rw [happ, ← Nat.shiftLeft_add_eq_or_of_lt (opOf i).isLt, Nat.shiftLeft_eq, Nat.mul_comm]

/-- A word encodes an instruction when its three fields are the instruction's. -/
theorem encode_eq_iff (w : Word) (i : Instr) :
    encode i = w ↔ rsvField w = 0#26 ∧ kselField w = kselOf i ∧ opField w = opOf i := by
  have hk := (kselOf i).isLt
  have ho := (opOf i).isLt
  simp only [← BitVec.toNat_inj, encode_toNat, rsvField_toNat, kselField_toNat, opField_toNat, BitVec.toNat_ofNat]
  omega

/-! ### What decodes (30 R71 to R75) -/

/-- The instructions that an OP selects without a KSEL are those with that OP and KSEL = 0. -/
theorem fields_of_plainOp {op : BitVec 4} {i : Instr} (h : plainOp op = some i) : kselOf i = 0#2 ∧ opOf i = op := by
  have hall : ∀ op, ∀ i ∈ plainOp op, kselOf i = 0#2 ∧ opOf i = op := by decide
  exact hall op i h

theorem plainOp_eq_none_iff (op : BitVec 4) : plainOp op = none ↔ op = 0x1#4 ∨ op = 0x2#4 ∨ 0xC#4 ≤ op := by
  revert op
  decide

theorem decodeCommand_of_decode_ok {w : Word} {i : Instr} (h : decode w = .ok i) : decodeCommand w = .op i := by
  rw [decodeCommand, h]

theorem decodeCommand_of_decode_error {w : Word} {e : DecodeError} (h : decode w = .error e) :
    decodeCommand w = .illegal := by
  rw [decodeCommand, h]

/-- A word that decodes carries the fields of its instruction: the five branches of 30 R75 that answer one. -/
theorem encode_of_decode_ok {w : Word} {i : Instr} (h : decode w = .ok i) : encode i = w := by
  rw [encode_eq_iff]
  unfold decode at h
  split_ifs at h with hrsv hres henc _ hdec _ hksel
  · cases h
    exact ⟨not_not.1 hrsv, rfl, henc⟩
  · cases h
    exact ⟨not_not.1 hrsv, rfl, hdec⟩
  · split at h
    · next j hj =>
      cases h
      obtain ⟨hk, ho⟩ := fields_of_plainOp hj
      exact ⟨not_not.1 hrsv, (not_not.1 hksel).trans hk.symm, ho.symm⟩
    · cases h

theorem decode_encode {i : Instr} (h : i.WellFormed) : decode (encode i) = .ok i := by
  cases i with
  | desEnc ksel | desDec ksel =>
    revert ksel
    decide
  | _ => rfl

/-- The decoder inverts the encoder. -/
theorem decode_eq_ok_iff (w : Word) (i : Instr) : decode w = .ok i ↔ i.WellFormed ∧ encode i = w := by
  constructor
  · intro h
    exact ⟨wellFormed_of_decodeCommand (decodeCommand_of_decode_ok h), encode_of_decode_ok h⟩
  · rintro ⟨hw, rfl⟩
    exact decode_encode hw

/-- Settles O3: both ways are `decode_eq_ok_iff`. -/
theorem decodeAndEncodeAgree : Obligations.DecodeAndEncodeAgree := by
  unfold Obligations.DecodeAndEncodeAgree
  exact ⟨fun i h => decode_encode h, fun w i h => (decode_eq_ok_iff w i).1 h⟩

/-- The list of 30 R75 pairs each well-formed instruction with its word. -/
theorem mem_legalWords_iff (w : Word) (i : Instr) : (w, i) ∈ legalWords ↔ i.WellFormed ∧ encode i = w := by
  constructor
  · have hall : ∀ p ∈ legalWords, p.2.WellFormed ∧ encode p.2 = p.1 := by decide
    exact hall (w, i)
  · rintro ⟨hw, rfl⟩
    cases i with
    | desEnc ksel | desDec ksel =>
      revert ksel
      decide
    | _ => decide

/-- Settles O2: the list and the decoder pair the same words with the same instructions. -/
theorem decodeAnswersExactlyTheSixteenLegalWords : Obligations.DecodeAnswersExactlyTheSixteenLegalWords := by
  unfold Obligations.DecodeAnswersExactlyTheSixteenLegalWords
  exact ⟨rfl, fun w i => (decode_eq_ok_iff w i).trans (mem_legalWords_iff w i).symm⟩

/-- Settles O1: each word is the encoding of its instruction. -/
theorem sampleWordsDecodeToTheirInstructions : Obligations.SampleWordsDecodeToTheirInstructions := by
  unfold Obligations.SampleWordsDecodeToTheirInstructions
  exact ⟨decode_encode (i := .nop) rfl, decode_encode (i := .desEnc 1#2) rfl, decode_encode (i := .desDec 2#2) rfl,
    decode_encode (i := .bufEde3Enc) rfl, decode_encode (i := .unpad) rfl, decode_encode (i := .ldkeys) rfl⟩

/-! ### Illegal words (30 R73, 60 R301) -/

/-- The cases (a) to (d) of 30 R73, in terms of the fields. -/
theorem illegalWord_iff_fields (w : Word) :
    illegalWord w ↔ rsvField w ≠ 0#26 ∨ 0xC#4 ≤ opField w ∨
      ((opField w = 0x1#4 ∨ opField w = 0x2#4) ∧ kselField w = 3#2) ∨
      (¬ (opField w = 0x1#4 ∨ opField w = 0x2#4) ∧ kselField w ≠ 0#2) := by
  simp only [illegalWord, ne_eq, ← BitVec.toNat_inj, BitVec.le_def, rsvField_toNat, kselField_toNat, opField_toNat]
  rfl

/-- The refusing branches of 30 R75 are the cases (a) to (d); the last one refuses no OP that is left. -/
theorem decode_error_iff (w : Word) : (∃ e, decode w = .error e) ↔ illegalWord w := by
  rw [illegalWord_iff_fields]
  unfold decode
  split_ifs with hrsv hres henc hk hdec hk hksel
  · exact iff_of_true ⟨_, rfl⟩ (.inl hrsv)
  · exact iff_of_true ⟨_, rfl⟩ (.inr (.inl hres))
  · exact iff_of_true ⟨_, rfl⟩ (.inr (.inr (.inl ⟨.inl henc, hk⟩)))
  · exact iff_of_false nofun (by simp [hrsv, henc, hk])
  · exact iff_of_true ⟨_, rfl⟩ (.inr (.inr (.inl ⟨.inr hdec, hk⟩)))
  · exact iff_of_false nofun (by simp [hrsv, hdec, hk])
  · exact iff_of_true ⟨_, rfl⟩ (.inr (.inr (.inr ⟨by simp [henc, hdec], hksel⟩)))
  · cases hp : plainOp (opField w) with
    | some i => exact iff_of_false nofun (by simp [hrsv, hres, henc, hdec, hksel])
    | none => simp [plainOp_eq_none_iff, hres, henc, hdec] at hp

theorem decodeCommand_of_illegalWord {w : Word} (h : illegalWord w) : decodeCommand w = .illegal := by
  obtain ⟨e, he⟩ := (decode_error_iff w).2 h
  exact decodeCommand_of_decode_error he

/-- A write to CMD while ENG = Idle is accepted (60 R301). -/
theorem State.access_wr_cmd {s : State} (he : s.eng = .idle) (w : Word) :
    s.access (.wr 0x0008#16 w) = (s.accept w).respond (.write false) :=
  State.access_wr_idle he rfl w

/-- The Check phase of Illegal completes at once (60 R301). -/
theorem phaseStep_of_illegal {s : State} {p : Phase} (h : s.eng = .run .illegal p) (pick : Nat) :
    phaseStep pick s = .next (s.complete .illegalCmd) := by
  rw [phaseStep, h]

theorem engineTurn_of_illegal {s : State} {p : Phase} (h : s.eng = .run .illegal p) :
    engineTurn s = .next (s.complete .illegalCmd) := by
  rw [engineTurn, h]
  exact phaseStep_of_illegal h 0

/-- Of the state before a command's acceptance its completion changes DONE, ERRCODE and the response alone. -/
theorem State.complete_accept_respond {s : State} (he : s.eng = .idle) (w : Word) (r : BusResp) (code : ErrCode) :
    ((s.accept w).respond r).complete code = { s with done := true, errCode := code, resp := some r } := by
  calc ((s.accept w).respond r).complete code
    _ = { s with done := true, errCode := code, resp := some r, eng := .idle } := rfl
    _ = { s with done := true, errCode := code, resp := some r } := by rw [← he]

/-- Settles O4: an illegal word is accepted as Illegal, whose one step is its completion. -/
theorem illegalWordCompletesWithIllegalCmd : Obligations.IllegalWordCompletesWithIllegalCmd := by
  unfold Obligations.IllegalWordCompletesWithIllegalCmd
  intro w
  refine ⟨decode_error_iff w, fun hw s he => ?_⟩
  have heng : ((s.accept w).respond (.write false)).eng = .run .illegal .check :=
    congrArg (Engine.run · .check) (decodeCommand_of_illegalWord hw)
  rw [State.access_wr_cmd he, ← State.complete_accept_respond he w]
  exact ⟨heng, engineTurn_of_illegal heng, phaseStep_of_illegal heng⟩

end Sys2Proof.Machine
end

section
/-! PROOFS. The bit-permutation engine (spec 40 R100 to R104): a permutation is known by its bits, one after another is the
permutation of the composed table, and the composed tables of IP and FP are the identity. -/

namespace Sys2Proof.Machine

/-! ### Tables in range (40 R101) -/

theorem tableInRange_iff {w : Nat} {table : List Nat} :
    tableInRange w table = true ↔ ∀ p ∈ table, 1 ≤ p ∧ p ≤ w := by
  simp [tableInRange]

/-- Settles O29: each of the five tables is checked entry by entry. -/
theorem tableEntriesAreInRange : Obligations.TableEntriesAreInRange := by
  unfold Obligations.TableEntriesAreInRange
  decide

/-! ### The value of a permutation (40 R100) -/

/-- Position p of a value, counted from the most significant bit (00 R11). -/
theorem getLsbD_position {w p : Nat} (x : BitVec w) (h1 : 1 ≤ p) (hw : p ≤ w) :
    x.getLsbD (w - p) = x.getMsbD (p - 1) := by
  have hp : p - 1 < w := by omega
  have hpos : w - 1 - (p - 1) = w - p := by omega
  simp [BitVec.getMsbD_eq_getLsbD, hp, hpos]

theorem permute_eq_of_bits {w n : Nat} {table : List Nat} {x : BitVec w} {y : BitVec n} (hn : table.length = n)
    (h : ∀ (i : Nat) (hi : i < table.length), x.getLsbD (w - table[i]) = y.getMsbD i) : permute n table x = y := by
  refine BitVec.eq_of_getMsbD_eq fun i hi => ?_
  have hi' : i < table.length := by omega
  rw [getMsbD_permute table x hn i hi', h i hi']

theorem permute_zero {w n : Nat} {table : List Nat} (hn : table.length = n) : permute n table 0#w = 0#n :=
  permute_eq_of_bits hn fun i _ => by simp

theorem permute_allOnes {w n : Nat} {table : List Nat} (hn : table.length = n) (ht : tableInRange w table = true) :
    permute n table (BitVec.allOnes w) = BitVec.allOnes n := by
  refine permute_eq_of_bits hn fun i hi => ?_
  obtain ⟨h1, hw⟩ := tableInRange_iff.1 ht _ (List.getElem_mem hi)
  have hbit : w - table[i] < w := by omega
  have hin : i < n := by omega
  simp [hbit, hin]

/-- Settles O30, bit by bit: an entry in range picks a bit of the input. -/
theorem permutationsKeepAllZerosAndAllOnes : Obligations.PermutationsKeepAllZerosAndAllOnes := by
  unfold Obligations.PermutationsKeepAllZerosAndAllOnes
  exact fun _ _ _ hn ht => ⟨permute_zero hn, permute_allOnes hn ht⟩

theorem permute_xor {w n : Nat} {table : List Nat} (hn : table.length = n) (x y : BitVec w) :
    permute n table (x ^^^ y) = permute n table x ^^^ permute n table y := by
  refine permute_eq_of_bits hn fun i hi => ?_
  rw [BitVec.getMsbD_xor, getMsbD_permute table x hn i hi, getMsbD_permute table y hn i hi, BitVec.getLsbD_xor]

/-! ### One permutation after another (40 R104) -/

/-- The table of permuting by `first` and then by `second`: position i+1 of the result is input position first[second[i]]. -/
def composeTables (first second : List Nat) : List Nat :=
  second.map fun p => first.getD (p - 1) 0

@[simp] theorem length_composeTables (first second : List Nat) : (composeTables first second).length = second.length :=
  List.length_map _

theorem permute_permute {w n m : Nat} {first second : List Nat} (hn : first.length = n) (hm : second.length = m)
    (hs : tableInRange n second = true) (x : BitVec w) :
    permute m second (permute n first x) = permute m (composeTables first second) x := by
  refine permute_eq_of_bits hm fun i hi => ?_
  obtain ⟨h1, hw⟩ := tableInRange_iff.1 hs _ (List.getElem_mem hi)
  have hpos : second[i] - 1 < first.length := by omega
  have hlen : (composeTables first second).length = m := by simp [hm]
  rw [getLsbD_position _ h1 hw, getMsbD_permute first x hn _ hpos, getMsbD_permute _ x hlen i (by simpa using hi)]
  simp [composeTables, hpos]

/-- The table 1, 2, ..., w permutes nothing. -/
theorem permute_identity {w : Nat} (x : BitVec w) : permute w (List.range' 1 w) x = x := by
  refine permute_eq_of_bits List.length_range' fun i hi => ?_
  have hiw : i < w := by simpa using hi
  rw [List.getElem_range', getLsbD_position x (by omega) (by omega)]
  simp

theorem permute_permute_of_compose_identity {w : Nat} {first second : List Nat} (hf : first.length = w)
    (hs : second.length = w) (hr : tableInRange w second = true) (hc : composeTables first second = List.range' 1 w)
    (x : BitVec w) : permute w second (permute w first x) = x := by
  rw [permute_permute hf hs hr, hc, permute_identity]

theorem composeTables_ip_fp : composeTables ipTable fpTable = List.range' 1 64 := by decide

theorem composeTables_fp_ip : composeTables fpTable ipTable = List.range' 1 64 := by decide

theorem finalPerm_initialPerm (x : Block) : finalPerm (initialPerm x) = x := by
  obtain ⟨-, hfp, -⟩ := tableEntriesAreInRange
  exact permute_permute_of_compose_identity (w := 64) rfl rfl hfp composeTables_ip_fp x

theorem initialPerm_finalPerm (x : Block) : initialPerm (finalPerm x) = x := by
  obtain ⟨hip, -⟩ := tableEntriesAreInRange
  exact permute_permute_of_compose_identity (w := 64) rfl rfl hip composeTables_fp_ip x

/-- Settles O31: the tables of IP and FP compose to the identity in both orders, and XOR is taken bit by bit. -/
theorem finalPermutationInvertsInitial : Obligations.FinalPermutationInvertsInitial := by
  unfold Obligations.FinalPermutationInvertsInitial
  exact ⟨fun x => ⟨finalPerm_initialPerm x, initialPerm_finalPerm x⟩, fun _ _ _ x y hn => permute_xor hn x y⟩

end Sys2Proof.Machine
end

section
/-! PROOFS. The key schedule generator (spec 41): rotations of a half add up, so the sixteen of ROT are none at all (R123);
a half of equal bits stays as it is under every rotation, so its schedule repeats one subkey (R125). -/

namespace Sys2Proof.Machine

/-! ### Rotations of a half (00 R12, 41 R120) -/

@[simp] theorem rotl_by_zero {w : Nat} (c : BitVec w) : rotl c 0 = c := if_pos rfl

theorem rotl_rotl (c : BitVec 28) {m n : Nat} (hm : m < 28) (hn : n < 28) :
    rotl (rotl c m) n = rotl c ((m + n) % 28) := by
  refine BitVec.eq_of_getLsbD_eq fun i hi => ?_
  rw [getLsbD_rotl _ n i hn hi, getLsbD_rotl c m _ hm (by omega), getLsbD_rotl c _ i (by omega) hi]
  congr 1
  omega

/-- One rotation after another is the one rotation by their total. -/
theorem foldl_rotl {rs : List Nat} (h : ∀ n ∈ rs, n < 28) (c : BitVec 28) :
    rs.foldl rotl c = rotl c (rs.sum % 28) := by
  induction rs generalizing c with
  | nil => simp
  | cons n rs ih =>
    obtain ⟨hn, hrs⟩ := List.forall_mem_cons.1 h
    rw [List.foldl_cons, ih hrs, rotl_rotl c hn (by omega), List.sum_cons, Nat.add_mod_mod]

theorem rotTable_lt : ∀ n ∈ rotTable, n < 28 := by decide

theorem sum_rotTable : rotTable.sum = 28 := rfl

/-- Settles O32: the counts of ROT add up to 28, the width of a half. -/
theorem sixteenRotationsReturnAHalf : Obligations.SixteenRotationsReturnAHalf := by
  unfold Obligations.SixteenRotationsReturnAHalf
  intro c
  rw [foldl_rotl rotTable_lt, sum_rotTable, Nat.mod_self, rotl_by_zero]

/-! ### Halves of equal bits (41 R125) -/

/-- A half that is all-zeros or all-ones. -/
def UniformHalf (c : BitVec 28) : Prop := c = 0#28 ∨ c = BitVec.allOnes 28

theorem UniformHalf.rotl_eq {c : BitVec 28} (hc : UniformHalf c) {n : Nat} (hn : n < 28) : rotl c n = c := by
  refine BitVec.eq_of_getLsbD_eq fun i hi => ?_
  rw [getLsbD_rotl c n i hn hi]
  obtain rfl | rfl := hc
  · simp
  · have hmod : (i + (28 - n)) % 28 < 28 := Nat.mod_lt _ (by omega)
    rw [BitVec.getLsbD_allOnes, BitVec.getLsbD_allOnes, decide_eq_true hmod, decide_eq_true hi]

theorem scheduleFrom_of_uniform {rs : List Nat} {c d : BitVec 28} (hrs : ∀ n ∈ rs, n < 28) (hc : UniformHalf c)
    (hd : UniformHalf d) :
    scheduleFrom rs c d = List.replicate rs.length (permute 48 pc2Table (c ++ d : BitVec 56)) := by
  induction rs with
  | nil => rfl
  | cons n rs ih =>
    obtain ⟨hn, hrs'⟩ := List.forall_mem_cons.1 hrs
    rw [scheduleFrom, hc.rotl_eq hn, hd.rotl_eq hn, ih hrs', List.length_cons, List.replicate_succ]

/-- The schedule of a fragment of two uniform halves is sixteen times PC-2 of the fragment. -/
theorem keySchedule_of_uniform {c d : BitVec 28} (hc : UniformHalf c) (hd : UniformHalf d) :
    keySchedule (c ++ d : BitVec 56) = List.replicate 16 (permute 48 pc2Table (c ++ d : BitVec 56)) := by
  have hC : (c ++ d : BitVec 56).extractLsb' 28 28 = c := BitVec.extractLsb'_append_eq_left
  have hD : (c ++ d : BitVec 56).extractLsb' 0 28 = d := BitVec.extractLsb'_append_eq_right
  rw [keySchedule, hC, hD]
  exact scheduleFrom_of_uniform rotTable_lt hc hd

theorem keySchedule_getElem?_zero (k : Key) :
    (keySchedule k)[0]? =
      some (permute 48 pc2Table (rotl (k.extractLsb' 28 28) 1 ++ rotl (k.extractLsb' 0 28) 1 : BitVec 56)) := by
  rw [keySchedule, rotTable, scheduleFrom, List.getElem?_cons_zero]

theorem pc2Table_inRange : tableInRange 56 pc2Table = true := by
  obtain ⟨-, -, -, -, hpc2⟩ := tableEntriesAreInRange
  exact hpc2

/-- PC-2 takes its left 24 positions from C and its right 24 from D (41 R121). -/
theorem permute_pc2_mixed :
    permute 48 pc2Table (0#28 ++ BitVec.allOnes 28 : BitVec 56) = 0x000000FFFFFF#48 ∧
      permute 48 pc2Table (BitVec.allOnes 28 ++ 0#28 : BitVec 56) = 0xFFFFFF000000#48 := by
  decide

/-- Settles O33: the four fragments of two uniform halves by `keySchedule_of_uniform`; the single position by its first
subkey alone. -/
theorem scheduleCornerCases : Obligations.ScheduleCornerCases := by
  unfold Obligations.ScheduleCornerCases
  have hzeros : UniformHalf 0#28 := .inl rfl
  have hones : UniformHalf (BitVec.allOnes 28) := .inr rfl
  obtain ⟨hright, hleft⟩ := permute_pc2_mixed
  refine ⟨?_, ?_, ?_, ?_, ?_, fun k l h => congrArg keySchedule h⟩
  · exact (keySchedule_of_uniform hzeros hzeros).trans (congrArg (List.replicate 16) (permute_zero rfl))
  · exact (keySchedule_of_uniform hones hones).trans (congrArg (List.replicate 16) (permute_allOnes rfl pc2Table_inRange))
  · exact (keySchedule_of_uniform hzeros hones).trans (congrArg (List.replicate 16) hright)
  · exact (keySchedule_of_uniform hones hzeros).trans (congrArg (List.replicate 16) hleft)
  · rw [keySchedule_getElem?_zero]
    decide

end Sys2Proof.Machine
end

section
/-! PROOFS. The S-box unit (spec 42): each row of a table is a permutation, so it has every value of 0 to 15 (R140). -/

namespace Sys2Proof.Machine

/-! ### The rows of the S-boxes (42 R140) -/

theorem sboxTable_length : ∀ g ∈ [1, 2, 3, 4, 5, 6, 7, 8], (sboxTable g).length = 64 := by
  decide

/-- Each of the 32 rows is a reordering of 0 to 15: no entry is missing, repeated or out of range. -/
theorem sboxTable_row_perm : ∀ g ∈ [1, 2, 3, 4, 5, 6, 7, 8], ∀ row ∈ List.range 4,
    (((sboxTable g).drop (16 * row)).take 16).Perm (List.range 16) := by
  decide

/-- Settles O34: a row that is a permutation of 0 to 15 has each of them as an entry. -/
theorem sboxRowsArePermutations : Obligations.SboxRowsArePermutations := by
  unfold Obligations.SboxRowsArePermutations
  intro g hg
  refine ⟨sboxTable_length g hg, fun row hrow v hv => ?_⟩
  exact (sboxTable_row_perm g hg row hrow).mem_iff.2 hv

end Sys2Proof.Machine
end

section
/-! PROOFS. The block cipher (spec 43 R160 to R164): the rounds on the swapped halves with the subkeys reversed undo the
rounds, so the reversed direction undoes a direction (R163); the complement goes through every unit but the S-boxes, whose input it
leaves alone (R164). -/

namespace Sys2Proof.Machine

/-! ### The cipher between its permutations (43 R160) -/

/-- A block from its two halves, the first in bits 63:32 (43 R160 step 3). -/
def joinHalves (lr : Half × Half) : Block := lr.1 ++ lr.2

@[simp] theorem halves_joinHalves (lr : Half × Half) : halves (joinHalves lr) = lr := halves_append lr.1 lr.2

@[simp] theorem joinHalves_halves (x : Block) : joinHalves (halves x) = x := by
  have hjoin := BitVec.extractLsb'_append_extractLsb'_eq_extractLsb' (x := x) (len₂ := 32) (Nat.zero_add 32).symm
  exact hjoin.trans BitVec.extractLsb'_eq_self

theorem des_eq (b : Block) (sk : List Subkey) (dir : Dir) :
    des b sk dir = finalPerm (joinHalves (feistel (halves (initialPerm b)) (subkeyOrder dir sk)).swap) := by
  rw [des]
  rfl

/-! ### The reversed direction (41 R124, 43 R163) -/

/-- The other direction. -/
def Dir.opposite : Dir → Dir
  | .enc => .dec
  | .dec => .enc

theorem subkeyOrder_opposite (dir : Dir) (sk : List Subkey) :
    subkeyOrder dir.opposite sk = (subkeyOrder dir sk).reverse := by
  cases dir with
  | enc => rfl
  | dec => exact sk.reverse_reverse.symm

/-- The rounds in reverse order, on the swapped halves, end at the swapped halves that the rounds began with. -/
theorem feistel_swap_reverse (ks : List Subkey) (lr : Half × Half) :
    feistel (feistel lr ks).swap ks.reverse = lr.swap := by
  induction ks generalizing lr with
  | nil => rfl
  | cons k ks ih =>
    calc feistel (feistel lr (k :: ks)).swap (k :: ks).reverse
      _ = feistel (feistel (feistel (feistelRound lr k) ks).swap ks.reverse) [k] := by
        rw [List.reverse_cons, feistel_append]
        rfl
      _ = feistelRound (feistelRound lr k).swap k := by
        rw [ih]
        rfl
      _ = lr.swap := feistelRound_swap lr k

theorem des_opposite_des (b : Block) (sk : List Subkey) (dir : Dir) : des (des b sk dir) sk dir.opposite = b := by
  simp only [des_eq, initialPerm_finalPerm, halves_joinHalves, subkeyOrder_opposite, feistel_swap_reverse, Prod.swap_swap,
    joinHalves_halves, finalPerm_initialPerm]

theorem desDecrypt_desEncrypt (k : Key) (b : Block) : desDecrypt k (desEncrypt k b) = b :=
  des_opposite_des b (keySchedule k) .enc

theorem desEncrypt_desDecrypt (k : Key) (b : Block) : desEncrypt k (desDecrypt k b) = b :=
  des_opposite_des b (keySchedule k) .dec

/-- Settles O35: each direction is the opposite of the other. -/
theorem decryptionUndoesEncryption : Obligations.DecryptionUndoesEncryption := by
  unfold Obligations.DecryptionUndoesEncryption
  exact fun k b => ⟨desDecrypt_desEncrypt k b, desEncrypt_desDecrypt k b⟩

/-! ### Equal subkeys (43 R164) -/

/-- A schedule of equal subkeys is its own reverse. -/
theorem desEncrypt_eq_desDecrypt {k : Key} {sk : Subkey} (h : ∀ x ∈ keySchedule k, x = sk) (b : Block) :
    desEncrypt k b = desDecrypt k b := by
  have hrep : keySchedule k = List.replicate 16 sk := List.eq_replicate_iff.2 ⟨keySchedule_length k, h⟩
  have hrev : (keySchedule k).reverse = keySchedule k := by rw [hrep, List.reverse_replicate]
  simp only [desEncrypt, desDecrypt, des_eq, subkeyOrder, hrev]

theorem desEncrypt_desEncrypt {k : Key} {sk : Subkey} (h : ∀ x ∈ keySchedule k, x = sk) (b : Block) :
    desEncrypt k (desEncrypt k b) = b := by
  rw [desEncrypt_eq_desDecrypt h b, desEncrypt_desDecrypt]

theorem keySchedule_zero_subkeys : ∀ x ∈ keySchedule 0#56, x = 0#48 := by
  obtain ⟨hzero, -⟩ := scheduleCornerCases
  rw [hzero]
  exact fun x => List.eq_of_mem_replicate

/-! ### The complement of a value, unit by unit -/

theorem not_xor_not {w : Nat} (x y : BitVec w) : ~~~x ^^^ ~~~y = x ^^^ y := by
  rw [← BitVec.not_xor_left, ← BitVec.not_xor_right, BitVec.not_not]

/-- `BitVec.extractLsb'_not_of_lt` leaves out a part that ends at the top bit, as L of a block and C of a key do. -/
theorem extractLsb'_not {w start len : Nat} (h : start + len ≤ w) (x : BitVec w) :
    (~~~x).extractLsb' start len = ~~~(x.extractLsb' start len) := by
  refine BitVec.eq_of_getLsbD_eq fun i hi => ?_
  have hin : start + i < w := by omega
  simp [hi, hin]

/-- By linearity (40 R104), and since all ones go to all ones (40 R100). -/
theorem permute_not {w n : Nat} {table : List Nat} (hn : table.length = n) (ht : tableInRange w table = true)
    (x : BitVec w) : permute n table (~~~x) = ~~~(permute n table x) := by
  rw [← BitVec.xor_allOnes, permute_xor hn, permute_allOnes hn ht, BitVec.xor_allOnes]

theorem rotl_not (c : BitVec 28) {n : Nat} (hn : n < 28) : rotl (~~~c) n = ~~~(rotl c n) := by
  refine BitVec.eq_of_getLsbD_eq fun i hi => ?_
  have hmod : (i + (28 - n)) % 28 < 28 := Nat.mod_lt _ (by omega)
  rw [BitVec.getLsbD_not, getLsbD_rotl _ n i hn hi, getLsbD_rotl _ n i hn hi, BitVec.getLsbD_not, decide_eq_true hmod,
    decide_eq_true hi]

theorem scheduleFrom_not {rs : List Nat} (hrs : ∀ n ∈ rs, n < 28) (c d : BitVec 28) :
    scheduleFrom rs (~~~c) (~~~d) = (scheduleFrom rs c d).map (~~~·) := by
  induction rs generalizing c d with
  | nil => rfl
  | cons n rs ih =>
    obtain ⟨hn, hrs'⟩ := List.forall_mem_cons.1 hrs
    rw [scheduleFrom, scheduleFrom, rotl_not c hn, rotl_not d hn, ← BitVec.not_append,
      permute_not (n := 48) rfl pc2Table_inRange, ih hrs', List.map_cons]

/-- The schedule of the complement is the complement of the schedule. -/
theorem keySchedule_not (k : Key) : keySchedule (~~~k) = (keySchedule k).map (~~~·) := by
  rw [keySchedule, keySchedule, extractLsb'_not (by omega), extractLsb'_not (by omega), scheduleFrom_not rotTable_lt]

/-- The two complements cancel before the S-boxes. -/
theorem roundFn_not (r : Half) (k : Subkey) : roundFn (~~~r) (~~~k) = roundFn r k := by
  obtain ⟨-, -, he, -⟩ := tableEntriesAreInRange
  have hexp : expand (~~~r) = ~~~(expand r) := permute_not rfl he r
  rw [roundFn, roundFn, hexp, not_xor_not]

/-! ### Complementation (43 R164) -/

/-- Both halves complemented. -/
def notHalves (lr : Half × Half) : Half × Half := (~~~lr.1, ~~~lr.2)

theorem feistelRound_not (lr : Half × Half) (k : Subkey) :
    feistelRound (notHalves lr) (~~~k) = notHalves (feistelRound lr k) := by
  simp only [feistelRound, notHalves, roundFn_not, BitVec.not_xor_left]

theorem feistel_not (ks : List Subkey) (lr : Half × Half) :
    feistel (notHalves lr) (ks.map (~~~·)) = notHalves (feistel lr ks) := by
  induction ks generalizing lr with
  | nil => rfl
  | cons k ks ih =>
    calc feistel (notHalves lr) ((k :: ks).map (~~~·))
      _ = feistel (feistelRound (notHalves lr) (~~~k)) (ks.map (~~~·)) := rfl
      _ = notHalves (feistel lr (k :: ks)) := by
        rw [feistelRound_not, ih]
        rfl

theorem halves_not (x : Block) : halves (~~~x) = notHalves (halves x) := by
  rw [halves, extractLsb'_not (by omega), extractLsb'_not (by omega)]
  rfl

theorem joinHalves_swap_notHalves (lr : Half × Half) : joinHalves (notHalves lr).swap = ~~~(joinHalves lr.swap) :=
  BitVec.not_append.symm

theorem initialPerm_not (x : Block) : initialPerm (~~~x) = ~~~(initialPerm x) := by
  obtain ⟨hip, -⟩ := tableEntriesAreInRange
  exact permute_not rfl hip x

theorem finalPerm_not (x : Block) : finalPerm (~~~x) = ~~~(finalPerm x) := by
  obtain ⟨-, hfp, -⟩ := tableEntriesAreInRange
  exact permute_not rfl hfp x

theorem desEncrypt_not (k : Key) (b : Block) : desEncrypt (~~~k) (~~~b) = ~~~(desEncrypt k b) := by
  simp only [desEncrypt, des_eq, subkeyOrder, initialPerm_not, halves_not, keySchedule_not, feistel_not,
    joinHalves_swap_notHalves, finalPerm_not]

/-- The zero key on the zero block (V2), the one example that the others follow from. -/
theorem desEncrypt_zero_zero : desEncrypt 0#56 0#64 = 0x8CA64DE9C1B123A7#64 := by decide +kernel

/-- Settles O36: the zero key has equal subkeys, and the example with all ones is the complement of the one with zeros. -/
theorem equalSubkeysAndComplementation : Obligations.EqualSubkeysAndComplementation := by
  unfold Obligations.EqualSubkeysAndComplementation
  refine ⟨fun k b sk h => ⟨desEncrypt_eq_desDecrypt h b, desEncrypt_desEncrypt h b⟩, desEncrypt_not,
    desEncrypt_zero_zero, ?_, ?_, ?_⟩
  · rw [← desEncrypt_eq_desDecrypt keySchedule_zero_subkeys, desEncrypt_zero_zero]
  · rw [← desEncrypt_zero_zero, desEncrypt_desEncrypt keySchedule_zero_subkeys]
  · rw [← BitVec.not_zero, ← BitVec.not_zero, desEncrypt_not, desEncrypt_zero_zero]
    rfl

end Sys2Proof.Machine
end

section
/-! PROOFS. The register commands (spec 43 R165, R166; 44 R181, R182; 46 R220): what DES_ENC and DES_DEC put in DOUT, and
that DOUT and the completion record are all that the five commands change. -/

namespace Sys2Proof.Machine

/-! ### DES_ENC and DES_DEC on a slot (43 R165, R166) -/

theorem slotOf_of_mem {ksel : BitVec 2} {k : Slot} (h : (ksel, k) ∈ [(0#2, Slot.a), (1#2, Slot.b), (2#2, Slot.c)]) :
    slotOf ksel = some k := by
  simp only [List.mem_cons, Prod.mk.injEq, List.not_mem_nil, or_false] at h
  obtain ⟨rfl, rfl⟩ | ⟨rfl, rfl⟩ | ⟨rfl, rfl⟩ := h <;> rfl

theorem State.key_setDin (s : State) (b : Block) (k : Slot) : (s.setDin b).key k = s.key k := by
  cases k <;> rfl

theorem State.kv_setDin (s : State) (b : Block) (k : Slot) : (s.setDin b).kv k = s.kv k := by
  cases k <;> rfl

section
variable {ksel : BitVec 2} {k : Slot} (hs : slotOf ksel = some k)
include hs

theorem State.desChecks_of_slot (s : State) : s.desChecks ksel = [(!s.kv k, .keyErr)] := by
  rw [State.desChecks, hs]

theorem State.desResult_of_slot (s : State) (dir : Dir) : s.desResult ksel dir = some (des s.din (s.sched k) dir) := by
  rw [State.desResult, hs, Option.map_some]

theorem firstError_desChecks_valid {s : State} (hv : s.kv k = true) : firstError (s.desChecks ksel) = none := by
  rw [State.desChecks_of_slot hs, hv]
  rfl

theorem firstError_desChecks_invalid {s : State} (hv : s.kv k = false) : firstError (s.desChecks ksel) = some .keyErr := by
  rw [State.desChecks_of_slot hs, hv]
  rfl

theorem exec_desEnc_valid {s : State} (hv : s.kv k = true) :
    exec (.desEnc ksel) s = .next ((s.setDout (desEncrypt (s.key k) s.din)).complete .ok) := by
  rw [exec_of_pass (i := .desEnc ksel) (firstError_desChecks_valid hs hv), State.body, State.desResult_of_slot hs]
  rfl

theorem exec_desDec_valid {s : State} (hv : s.kv k = true) :
    exec (.desDec ksel) s = .next ((s.setDout (desDecrypt (s.key k) s.din)).complete .ok) := by
  rw [exec_of_pass (i := .desDec ksel) (firstError_desChecks_valid hs hv), State.body, State.desResult_of_slot hs]
  rfl

/-- DES_DEC after DES_ENC: with E_K(b) in DIN, DOUT takes b (43 R163). -/
theorem exec_desDec_ciphertext {s : State} (hv : s.kv k = true) (b : Block) :
    exec (.desDec ksel) (s.setDin (desEncrypt (s.key k) b)) =
      .next (((s.setDin (desEncrypt (s.key k) b)).setDout b).complete .ok) := by
  rw [exec_desDec_valid hs ((s.kv_setDin _ k).trans hv), State.setDin_din, State.key_setDin, desDecrypt_desEncrypt]

end

/-- Settles O40: the slot's one check, then the cipher and its inverse. -/
theorem desEncWritesTheCiphertext : Obligations.DesEncWritesTheCiphertext := by
  unfold Obligations.DesEncWritesTheCiphertext
  intro s ksel k hmem
  have hs := slotOf_of_mem hmem
  exact ⟨fun hv => ⟨exec_desEnc_valid hs hv, exec_desDec_ciphertext hs hv s.din⟩,
    fun hv => exec_of_fail (firstError_desChecks_invalid hs hv)⟩

/-- Settles O41: the slot's one check, then the inverse cipher, which with equal subkeys is the cipher. -/
theorem desDecWritesThePlaintext : Obligations.DesDecWritesThePlaintext := by
  unfold Obligations.DesDecWritesThePlaintext
  intro s ksel k hmem
  have hs := slotOf_of_mem hmem
  refine ⟨fun hv => ⟨exec_desDec_valid hs hv, ?_⟩, fun hv => exec_of_fail (firstError_desChecks_invalid hs hv)⟩
  rintro ⟨sk, hsk⟩
  rw [exec_desDec_valid hs hv, exec_desEnc_valid hs hv, desEncrypt_eq_desDecrypt hsk]

/-! ### The frame of the register commands -/

/-- The commands whose operands and result are registers. -/
def RegisterCommand (i : Instr) : Prop :=
  i = .nop ∨ (∃ k, i = .desEnc k) ∨ (∃ k, i = .desDec k) ∨ i = .ede3Enc ∨ i = .ede3Dec

theorem State.putResult_eq (s : State) (r : Option Block) : s.putResult r = s.setDout (r.getD s.dout) := by
  cases r <;> rfl

/-- Once its check holds such a command sets DOUT and completes with OK; NOP leaves DOUT too. -/
theorem RegisterCommand.body_eq {i : Instr} (h : RegisterCommand i) (s : State) :
    ∃ b, s.body i = (s.setDout b).complete .ok ∧ (i = .nop → b = s.dout) := by
  obtain rfl | ⟨k, rfl⟩ | ⟨k, rfl⟩ | rfl | rfl := h
  · exact ⟨s.dout, rfl, fun _ => rfl⟩
  · exact ⟨_, congrArg (State.complete · .ok) (s.putResult_eq _), nofun⟩
  · exact ⟨_, congrArg (State.complete · .ok) (s.putResult_eq _), nofun⟩
  · exact ⟨_, rfl, nofun⟩
  · exact ⟨_, rfl, nofun⟩

/-- Settles O59: an error is the completion alone, and a success sets DOUT before it. -/
theorem registerCommandsChangeOnlyDout : Obligations.RegisterCommandsChangeOnlyDout := by
  unfold Obligations.RegisterCommandsChangeOnlyDout
  intro i s t hi h
  obtain ⟨c, -, rfl⟩ | ⟨-, rfl⟩ := exec_cases h
  · exact ⟨rfl, fun _ => rfl, fun _ => rfl⟩
  · obtain ⟨b, hbody, hnop⟩ := RegisterCommand.body_eq hi s
    rw [hbody]
    exact ⟨rfl, fun hc => hnop (hc.resolve_left fun hne => hne rfl), fun _ => rfl⟩

end Sys2Proof.Machine
end

section
/-! PROOFS. EDE3 over one block (spec 44 R180 to R183): EDE3_D undoes EDE3_E cipher by cipher, equal keys leave one of the
three ciphers, and EDE3_ENC and EDE3_DEC put the result in DOUT once all slots are valid. -/

namespace Sys2Proof.Machine

/-! ### The compositions (44 R180, R183) -/

theorem ede3Decrypt_ede3Encrypt (ka kb kc : Key) (b : Block) : ede3Decrypt ka kb kc (ede3Encrypt ka kb kc b) = b := by
  rw [ede3Decrypt, ede3Encrypt, desDecrypt_desEncrypt, desEncrypt_desDecrypt, desDecrypt_desEncrypt]

theorem ede3Encrypt_equal_keys (k : Key) (b : Block) : ede3Encrypt k k k b = desEncrypt k b := by
  rw [ede3Encrypt, desDecrypt_desEncrypt]

theorem ede3Decrypt_equal_keys (k : Key) (b : Block) : ede3Decrypt k k k b = desDecrypt k b := by
  rw [ede3Decrypt, desEncrypt_desDecrypt]

/-- Settles O37: each cipher of EDE3_D undoes the outermost one that is left of EDE3_E. -/
theorem ede3DecryptionUndoesEncryption : Obligations.Ede3DecryptionUndoesEncryption := by
  unfold Obligations.Ede3DecryptionUndoesEncryption
  exact fun ka kb kc b => ⟨rfl, rfl, ede3Decrypt_ede3Encrypt ka kb kc b⟩

/-- Settles O38: with equal keys two neighbouring ciphers of a composition cancel. -/
theorem equalKeysMakeEde3SingleDes : Obligations.EqualKeysMakeEde3SingleDes := by
  unfold Obligations.EqualKeysMakeEde3SingleDes
  exact fun k b => ⟨ede3Encrypt_equal_keys k b, ede3Decrypt_equal_keys k b⟩

/-! ### EDE3_ENC and EDE3_DEC (44 R181, R182) -/

theorem State.allKv_of_slots {s : State} (ha : s.kv .a = true) (hb : s.kv .b = true) (hc : s.kv .c = true) :
    s.allKv = true := by
  rw [State.allKv, ha, hb, hc]
  rfl

theorem State.allKv_eq_false {s : State} {k : Slot} (h : s.kv k = false) : s.allKv = false := by
  by_contra hall
  have hk := s.allKv_iff.1 (eq_true_of_ne_false hall) k
  simp [h] at hk

section
variable {s : State}

theorem firstError_ede3Checks_valid (hk : s.allKv = true) : firstError s.ede3Checks = none := by
  rw [State.ede3Checks, hk]
  rfl

theorem firstError_ede3Checks_invalid {k : Slot} (hk : s.kv k = false) : firstError s.ede3Checks = some .keyErr := by
  rw [State.ede3Checks, State.allKv_eq_false hk]
  rfl

theorem exec_ede3Enc_valid (hk : s.allKv = true) : exec .ede3Enc s = .next ((s.setDout (s.ede3Enc s.din)).complete .ok) :=
  exec_of_pass (i := .ede3Enc) (firstError_ede3Checks_valid hk)

theorem exec_ede3Dec_valid (hk : s.allKv = true) : exec .ede3Dec s = .next ((s.setDout (s.ede3Dec s.din)).complete .ok) :=
  exec_of_pass (i := .ede3Dec) (firstError_ede3Checks_valid hk)

theorem State.ede3Dec_ede3Enc (s : State) (b : Block) : s.ede3Dec (s.ede3Enc b) = b :=
  ede3Decrypt_ede3Encrypt _ _ _ b

/-- EDE3_DEC of a ciphertext in DIN, under the keys that made it. -/
theorem dout_of_exec_ede3Dec {t : State} (ht : exec .ede3Dec s = .next t) (hk : s.allKv = true) {b : Block}
    (hd : s.din = s.ede3Enc b) : t.dout = b := by
  rw [exec_ede3Dec_valid hk, hd, State.ede3Dec_ede3Enc] at ht
  cases ht
  rfl

end

/-- Settles O42: the one check is that of the three slots. -/
theorem ede3EncWritesTheCiphertext : Obligations.Ede3EncWritesTheCiphertext := by
  unfold Obligations.Ede3EncWritesTheCiphertext
  exact fun s => ⟨fun ha hb hc => exec_ede3Enc_valid (State.allKv_of_slots ha hb hc),
    fun k hk => exec_of_fail (i := .ede3Enc) (firstError_ede3Checks_invalid hk)⟩

/-- Settles O43: the one check is that of the three slots, and EDE3_ENC leaves it and the keys as they are. -/
theorem ede3DecWritesThePlaintext : Obligations.Ede3DecWritesThePlaintext := by
  unfold Obligations.Ede3DecWritesThePlaintext
  refine fun s => ⟨fun ha hb hc => ?_, fun k hk => exec_of_fail (i := .ede3Dec) (firstError_ede3Checks_invalid hk)⟩
  have hall := State.allKv_of_slots ha hb hc
  refine ⟨exec_ede3Dec_valid hall, fun t u ht hu => ?_⟩
  rw [exec_ede3Enc_valid hall] at ht
  cases ht
  exact dout_of_exec_ede3Dec hu hall rfl

end Sys2Proof.Machine
end

section
/-! PROOFS. The buffer in place (spec 44 R184 to R187): BUF_EDE3_ENC and BUF_EDE3_DEC are one command with two plans of passes,
each block goes through the passes on its own, and blocks of one pass commute. -/

namespace Sys2Proof.Machine

/-! ### The completion leaves BUF as it is (60 R304) -/

@[simp] theorem State.readByte_complete (s : State) (c : ErrCode) (a : Nat) : (s.complete c).readByte a = s.readByte a := rfl

@[simp] theorem State.readBlock_complete (s : State) (c : ErrCode) (j : Nat) :
    (s.complete c).readBlock j = s.readBlock j :=
  State.memRead_congr fun _ _ _ => rfl

/-! ### The checks of the two commands, in order (44 R184, R185) -/

section
variable {s : State}

theorem firstError_bufChecks_tooLong (h : bufBytes < s.len) : firstError s.bufChecks = some .lengthErr := by
  have hlong : s.tooLong = true := decide_eq_true h
  simp [State.bufChecks, firstError, hlong]

theorem firstError_bufChecks_unaligned (hl : s.len ≤ bufBytes) (h8 : s.len % 8 ≠ 0) :
    firstError s.bufChecks = some .invalidInput := by
  have hal : s.unaligned = true := decide_eq_true h8
  simp [State.bufChecks, firstError, State.tooLong_eq_false hl, hal]

section
variable (hl : s.len ≤ bufBytes) (h8 : s.len % 8 = 0)
include hl h8

theorem firstError_bufChecks_invalid {k : Slot} (hk : s.kv k = false) : firstError s.bufChecks = some .keyErr := by
  simp [State.bufChecks, firstError, State.tooLong_eq_false hl, State.unaligned_eq_false h8, State.allKv_eq_false hk]

theorem firstError_bufChecks_valid (hk : s.allKv = true) : firstError s.bufChecks = none := by
  simp [State.bufChecks, firstError, State.tooLong_eq_false hl, State.unaligned_eq_false h8, hk]

end
end

/-! ### The passes as a function of the block (44 R184, R185) -/

/-- The three passes of a plan over one block, with the keys of `s`. -/
def State.planBlock (s : State) (plan : PassNo → Dir × Slot) (b : Block) : Block :=
  des (des (des b (s.sched (plan .first).2) (plan .first).1) (s.sched (plan .second).2) (plan .second).1)
    (s.sched (plan .third).2) (plan .third).1

theorem State.planBlock_encPass (s : State) : s.planBlock encPass = ede3Encrypt s.slotA.key s.slotB.key s.slotC.key :=
  funext s.encPasses

theorem State.planBlock_decPass (s : State) : s.planBlock decPass = ede3Decrypt s.slotA.key s.slotB.key s.slotC.key :=
  funext s.decPasses

theorem State.readBlock_threePasses_of_lt (s : State) (plan : PassNo → Dir × Slot) {j : Nat} (hj : j < s.blocks) :
    (s.threePasses plan).readBlock j = s.planBlock plan (s.readBlock j) := by
  rw [State.readBlock_threePasses, if_pos hj, State.planBlock]

/-! ### What the two commands do -/

/-- `t` is `s` after a success: each block has gone through `f`, and nothing else but the completion record has changed. -/
def BlocksMapped (f : Block → Block) (s t : State) : Prop :=
  (∀ j, j < s.len / 8 → t.readBlock j = f (s.readBlock j)) ∧
    (∀ a, s.len ≤ a → t.readByte a = s.readByte a) ∧
    t = { s with buf := t.buf, done := true, errCode := .ok, eng := .idle }

/-- A command that runs the passes of `plan` over the buffer once the checks of 44 R184 hold. -/
structure PassCommand (i : Instr) (plan : PassNo → Dir × Slot) : Prop where
  checks : ∀ s : State, s.checks i = s.bufChecks
  body : ∀ s : State, s.body i = (s.threePasses plan).complete .ok

theorem passCommand_bufEde3Enc : PassCommand .bufEde3Enc encPass := ⟨fun _ => rfl, fun _ => rfl⟩

theorem passCommand_bufEde3Dec : PassCommand .bufEde3Dec decPass := ⟨fun _ => rfl, fun _ => rfl⟩

section
variable {i : Instr} {plan : PassNo → Dir × Slot} {s : State}

theorem PassCommand.exec_valid (h : PassCommand i plan) (hl : s.len ≤ bufBytes) (h8 : s.len % 8 = 0)
    (hk : s.allKv = true) : ∃ t, exec i s = .next t ∧ BlocksMapped (s.planBlock plan) s t := by
  have hpass : firstError (s.checks i) = none := by rw [h.checks, firstError_bufChecks_valid hl h8 hk]
  refine ⟨(s.threePasses plan).complete .ok, by rw [exec_of_pass hpass, h.body], fun j hj => ?_, fun a ha => ?_, ?_⟩
  · rw [State.readBlock_complete, s.readBlock_threePasses_of_lt plan hj]
  · rw [State.readByte_complete, s.readByte_threePasses plan a (Nat.div_le_div_right ha)]
  · rw [State.threePasses_eq]
    rfl

/-- A failing check of 44 R184 ends the command with its code and nothing else. -/
theorem PassCommand.exec_fail (h : PassCommand i plan) {c : ErrCode} (hc : firstError s.bufChecks = some c) :
    exec i s = .next (s.complete c) :=
  exec_of_fail (by rw [h.checks, hc])

/-- What such a command does where its checks hold, and where each of them is the first to fail. -/
theorem PassCommand.exec_clauses (h : PassCommand i plan) {f : Block → Block} (hf : s.planBlock plan = f) :
    (s.len ≤ bufBytes → s.len % 8 = 0 → s.kv .a = true → s.kv .b = true → s.kv .c = true →
      ∃ t, exec i s = .next t ∧ BlocksMapped f s t) ∧
    (bufBytes < s.len → exec i s = .next (s.complete .lengthErr)) ∧
    (s.len ≤ bufBytes → s.len % 8 ≠ 0 → exec i s = .next (s.complete .invalidInput)) ∧
    (s.len ≤ bufBytes → s.len % 8 = 0 → ∀ k, s.kv k = false → exec i s = .next (s.complete .keyErr)) :=
  ⟨fun hl h8 ha hb hc => hf ▸ h.exec_valid hl h8 (State.allKv_of_slots ha hb hc),
    fun hl => h.exec_fail (firstError_bufChecks_tooLong hl),
    fun hl h8 => h.exec_fail (firstError_bufChecks_unaligned hl h8),
    fun hl h8 _ hk => h.exec_fail (firstError_bufChecks_invalid hl h8 hk)⟩

/-- Blocks that are equal before such a command are equal after it, also where it ends with an error. -/
theorem PassCommand.equal_blocks (h : PassCommand i plan) {t : State} (ht : exec i s = .next t) {j k : Nat}
    (hj : j < s.blocks) (hk : k < s.blocks) (heq : s.readBlock j = s.readBlock k) : t.readBlock j = t.readBlock k := by
  rcases exec_cases ht with ⟨c, -, rfl⟩ | ⟨-, rfl⟩
  · rw [State.readBlock_complete, State.readBlock_complete, heq]
  · rw [h.body, State.readBlock_complete, State.readBlock_complete, s.readBlock_threePasses_of_lt plan hj,
      s.readBlock_threePasses_of_lt plan hk, heq]

end

/-- Settles O44: the passes of `encPass` over a block are EDE3_E. -/
theorem bufEde3EncEncryptsEveryBlock : Obligations.BufEde3EncEncryptsEveryBlock := by
  unfold Obligations.BufEde3EncEncryptsEveryBlock
  exact fun s => passCommand_bufEde3Enc.exec_clauses s.planBlock_encPass

/-- Settles O45: the passes of `decPass` over a block are EDE3_D. -/
theorem bufEde3DecDecryptsEveryBlock : Obligations.BufEde3DecDecryptsEveryBlock := by
  unfold Obligations.BufEde3DecDecryptsEveryBlock
  exact fun s => passCommand_bufEde3Dec.exec_clauses s.planBlock_decPass

/-- Settles O47: the passes over a block are a function of the block. -/
theorem equalBlocksEncryptEqually : Obligations.EqualBlocksEncryptEqually := by
  unfold Obligations.EqualBlocksEncryptEqually
  exact fun s t i j ht _ hi hj heq => passCommand_bufEde3Enc.equal_blocks ht hi hj heq

/-! ### The order of the blocks in a pass (44 R186) -/

/-- Two blocks of one pass, in either order. -/
theorem State.passBlock_comm (s : State) (p : Dir × Slot) {j k : Nat} (h : s.buf.wf) (hj : 8 * j + 8 ≤ bufBytes)
    (hk : 8 * k + 8 ≤ bufBytes) : (s.passBlock p j).passBlock p k = (s.passBlock p k).passBlock p j := by
  rcases eq_or_ne j k with rfl | hne
  · rfl
  · have hafter : ∀ {m n : Nat}, n ≠ m → (s.passBlock p m).passBlock p n =
        (s.passBlock p m).writeBlock n (des (s.readBlock n) (s.sched p.2) p.1) := by
      intro m n hmn
      rw [State.passBlock, State.passBlock_sched, State.readBlock_passBlock, if_neg hmn]
    rw [hafter hne.symm, hafter hne]
    exact s.memWrite_comm (n := 8) (m := 8) _ _ h hj hk (by omega)

theorem State.runPass_perm {js ks : List Nat} (hp : js.Perm ks) {s : State} (p : Dir × Slot) (h : s.buf.wf)
    (hj : ∀ j ∈ js, 8 * j + 8 ≤ bufBytes) : s.runPass p js = s.runPass p ks := by
  induction hp generalizing s with
  | nil => rfl
  | cons j _ ih =>
    obtain ⟨hfit, hrest⟩ := List.forall_mem_cons.1 hj
    rw [State.runPass_cons, State.runPass_cons, ih (s.passBlock_wf p j h hfit) hrest]
  | swap j k js =>
    obtain ⟨hk, hrest⟩ := List.forall_mem_cons.1 hj
    obtain ⟨hfit, -⟩ := List.forall_mem_cons.1 hrest
    rw [State.runPass_cons, State.runPass_cons, State.runPass_cons, State.runPass_cons, s.passBlock_comm p h hk hfit]
  | trans hjs _ ih₁ ih₂ => exact (ih₁ h hj).trans (ih₂ h fun j hmem => hj j (hjs.mem_iff.2 hmem))

theorem State.block_fits {s : State} (hl : s.len ≤ bufBytes) {js : List Nat} (hp : js.Perm (List.range s.blocks)) :
    ∀ j ∈ js, 8 * j + 8 ≤ bufBytes := by
  intro j hj
  have hlt : j < s.len / 8 := List.mem_range.1 (hp.mem_iff.1 hj)
  omega

/-- Settles O46, pass by pass. -/
theorem blockOrderWithinAPassIsFree : Obligations.BlockOrderWithinAPassIsFree := by
  unfold Obligations.BlockOrderWithinAPassIsFree
  intro s plan j₁ j₂ j₃ hwf hl h₁ h₂ h₃
  have hpass : ∀ {js : List Nat}, js.Perm (List.range s.blocks) → ∀ (u : State) (p : Dir × Slot), u.buf.wf →
      u.runPass p js = u.runPass p (List.range s.blocks) ∧ (u.runPass p (List.range s.blocks)).buf.wf :=
    fun hp u p hu => ⟨State.runPass_perm hp p hu (State.block_fits hl hp),
      u.runPass_wf p _ hu (State.block_fits hl (List.Perm.refl _))⟩
  obtain ⟨heq₁, hwf₁⟩ := hpass h₁ s (plan .first) hwf
  obtain ⟨heq₂, hwf₂⟩ := hpass h₂ _ (plan .second) hwf₁
  obtain ⟨heq₃, -⟩ := hpass h₃ _ (plan .third) hwf₂
  rw [heq₁, heq₂, heq₃, State.threePasses]

end Sys2Proof.Machine
end

section
/-! PROOFS. The frame of the buffer commands (spec 44 R184, R185; 45 R201 to R204; 46 R221): they leave DOUT alone, and every
byte that `storesTo` does not name. -/

namespace Sys2Proof.Machine

/-! ### DOUT -/

theorem State.threePasses_dout (s : State) (plan : PassNo → Dir × Slot) : (s.threePasses plan).dout = s.dout := by
  rw [State.threePasses_eq, State.setBuf_dout]

theorem State.addPadding_dout (s : State) : s.addPadding.dout = s.dout := by
  rw [State.addPadding_eq]
  rfl

theorem State.unpadEnd_dout (s : State) : s.unpadEnd.dout = s.dout := by
  unfold State.unpadEnd
  split <;> rfl

theorem State.body_dout {i : Instr} (hi : usesBuffer i = true) (s : State) : (s.body i).dout = s.dout := by
  cases i with
  | nop | desEnc _ | desDec _ | ede3Enc | ede3Dec => cases hi
  | bufEde3Enc | bufEde3Dec => exact s.threePasses_dout _
  | pad => exact s.addPadding_dout
  | unpad => exact s.unpadEnd_dout
  | streamEnc => exact (s.addPadding.threePasses_dout _).trans s.addPadding_dout
  | streamDec => exact (State.unpadEnd_dout _).trans (s.threePasses_dout _)
  | ldkeys => rfl

/-! ### The bytes of BUF -/

theorem State.readByte_unpadEnd (s : State) (a : Nat) : s.unpadEnd.readByte a = s.readByte a := by
  unfold State.unpadEnd
  split <;> rfl

theorem State.readByte_threePasses_of_le (s : State) (plan : PassNo → Dir × Slot) {a : Nat} (ha : 8 * s.blocks ≤ a) :
    (s.threePasses plan).readByte a = s.readByte a :=
  s.readByte_threePasses plan a (by omega)

theorem State.readByte_addPadding_outside (s : State) {a : Nat} (ha : ¬ (s.len ≤ a ∧ a < s.len + padCount s.len)) :
    s.addPadding.readByte a = s.readByte a := by
  rw [State.readByte_addPadding, if_neg ha]

/-- The padded bytes are whole blocks (45 R200). -/
theorem State.blocks_addPadding {s : State} (hr : s.noRoom = false) :
    8 * s.addPadding.blocks = s.len + padCount s.len := by
  obtain ⟨-, -, hmod⟩ := padCount_range s.len
  rw [State.blocks, s.len_addPadding hr]
  omega

/-- A command whose checks hold stores to no byte but those that `storesTo` computes from LENGTH. -/
theorem State.readByte_body {i : Instr} {s : State} (hi : usesBuffer i = true) (hc : firstError (s.checks i) = none)
    {a : Nat} (ha : ¬ storesTo i s a) : (s.body i).readByte a = s.readByte a := by
  cases i with
  | nop | desEnc _ | desDec _ | ede3Enc | ede3Dec => cases hi
  | bufEde3Enc | bufEde3Dec => exact s.readByte_threePasses_of_le _ (not_lt.1 ha)
  | pad => exact s.readByte_addPadding_outside ha
  | unpad => exact s.readByte_unpadEnd a
  | streamEnc =>
    have hr : s.noRoom = false :=
      firstError_eq_none.1 hc (s.noRoom, .lengthErr) (by simp [State.checks, State.streamEncChecks])
    have hge : s.len + padCount s.len ≤ a := not_lt.1 ha
    calc (s.body .streamEnc).readByte a
      _ = s.addPadding.readByte a := s.addPadding.readByte_threePasses_of_le _ ((State.blocks_addPadding hr).trans_le hge)
      _ = s.readByte a := s.readByte_addPadding_outside (by omega)
  | streamDec => exact (State.readByte_unpadEnd _ a).trans (s.readByte_threePasses_of_le _ (not_lt.1 ha))
  | ldkeys => rfl

/-- Settles O60: an error is the completion alone, and a body keeps to `body_frame`, of which DOUT stays too. -/
theorem bufferCommandsChangeOnlyWhatTheyStore : Obligations.BufferCommandsChangeOnlyWhatTheyStore := by
  unfold Obligations.BufferCommandsChangeOnlyWhatTheyStore
  intro i s t hi h
  have hbuf : usesBuffer i = true := by obtain rfl | rfl | rfl | rfl | rfl | rfl | rfl := hi <;> rfl
  obtain ⟨c, -, rfl⟩ | ⟨hc, rfl⟩ := exec_cases h
  · exact ⟨rfl, fun _ => rfl, fun _ k => by cases k <;> rfl, fun _ _ => rfl⟩
  · refine ⟨(s.body_frame i).trans (by rw [State.body_dout hbuf]), ?_, s.body_slot i, fun a => State.readByte_body hbuf hc⟩
    rintro (rfl | rfl | rfl)
    · exact s.threePasses_length encPass
    · exact s.threePasses_length decPass
    · rfl

end Sys2Proof.Machine
end

section
/-! PROOFS. The command's work and its record (spec 60 R301, R303, R304): no check and no body reads DONE, ERRCODE or ENG, and a
list of checks in two parts fails in its first part first. -/

namespace Sys2Proof.Machine

/-! ### What no command reads (60 R301, R304) -/

/-- The completion record and ENG change: what acceptance, completion and a change of phase have in common. -/
def State.withRecord (s : State) (done : Bool) (code : ErrCode) (e : Engine) : State :=
  { s with done := done, errCode := code, eng := e }

theorem State.accept_eq_withRecord (s : State) (w : Word) :
    s.accept w = s.withRecord false .ok (.run (decodeCommand w) .check) := rfl

theorem State.complete_eq_withRecord (s : State) (c : ErrCode) : s.complete c = s.withRecord true c .idle := rfl

theorem State.goTo_eq_withRecord (s : State) (i : Instr) (p : Phase) :
    s.goTo i p = s.withRecord s.done s.errCode (.run (.op i) p) := rfl

section
variable (s : State) (d : Bool) (c : ErrCode) (e : Engine)

theorem State.slot_withRecord (k : Slot) : (s.withRecord d c e).slot k = s.slot k := by cases k <;> rfl

theorem State.foldl_writeByte_withRecord {α : Type} (f : α → Nat) (g : α → Byte) (l : List α) :
    l.foldl (fun t a => t.writeByte (f a) (g a)) (s.withRecord d c e) =
      (l.foldl (fun t a => t.writeByte (f a) (g a)) s).withRecord d c e := by
  induction l generalizing s with
  | nil => rfl
  | cons a l ih => exact ih (s.writeByte (f a) (g a))

theorem State.addPadding_withRecord : (s.withRecord d c e).addPadding = s.addPadding.withRecord d c e :=
  congrArg (State.setLen · (s.len + padCount s.len))
    (s.foldl_writeByte_withRecord d c e (s.len + ·) (fun _ => BitVec.ofNat 8 (padCount s.len)) _)

theorem State.passBlock_withRecord (p : Dir × Slot) (j : Nat) :
    (s.withRecord d c e).passBlock p j = (s.passBlock p j).withRecord d c e := by
  have hread : (s.withRecord d c e).readBlock j = s.readBlock j := State.memRead_congr fun _ _ _ => rfl
  have hsched : (s.withRecord d c e).sched p.2 = s.sched p.2 := by rw [State.sched, State.key, s.slot_withRecord]; rfl
  rw [State.passBlock, hread, hsched]
  exact s.foldl_writeByte_withRecord d c e _ _ _

theorem State.runPass_withRecord (p : Dir × Slot) (js : List Nat) :
    (s.withRecord d c e).runPass p js = (s.runPass p js).withRecord d c e := by
  induction js generalizing s with
  | nil => rfl
  | cons j js ih => rw [State.runPass_cons, State.passBlock_withRecord, ih, State.runPass_cons]

theorem State.threePasses_withRecord (plan : PassNo → Dir × Slot) :
    (s.withRecord d c e).threePasses plan = (s.threePasses plan).withRecord d c e := by
  have hblocks : (s.withRecord d c e).blocks = s.blocks := rfl
  rw [State.threePasses, hblocks, State.runPass_withRecord, State.runPass_withRecord, State.runPass_withRecord]
  rfl

theorem State.complete_withRecord (code : ErrCode) : (s.withRecord d c e).complete code = s.complete code := rfl

theorem State.unpadEnd_withRecord : (s.withRecord d c e).unpadEnd = s.unpadEnd := rfl

/-- The checks of a command do not read the record. -/
theorem State.checks_withRecord (i : Instr) : (s.withRecord d c e).checks i = s.checks i := by
  cases i <;> rfl

/-- What a command makes of the machine does not depend on the record it finds. -/
theorem State.body_withRecord (i : Instr) : (s.withRecord d c e).body i = s.body i := by
  cases i with
  | desEnc ksel => simp only [State.body, State.putResult_eq]; rfl
  | desDec ksel => simp only [State.body, State.putResult_eq]; rfl
  | bufEde3Enc | bufEde3Dec => simp only [State.body, State.threePasses_withRecord, State.complete_withRecord]
  | pad => simp only [State.body, State.addPadding_withRecord, State.complete_withRecord]
  | streamEnc =>
    simp only [State.body, State.addPadding_withRecord, State.threePasses_withRecord, State.complete_withRecord]
  | streamDec => simp only [State.body, State.threePasses_withRecord, State.unpadEnd_withRecord]
  | nop | ede3Enc | ede3Dec | unpad | ldkeys => rfl

end

/-- A command that is accepted finds the checks of the state before (60 R301). -/
theorem State.checks_accept (s : State) (w : Word) (i : Instr) : (s.accept w).checks i = s.checks i := by
  rw [State.accept_eq_withRecord, State.checks_withRecord]

theorem State.body_accept (s : State) (w : Word) (i : Instr) : (s.accept w).body i = s.body i := by
  rw [State.accept_eq_withRecord, State.body_withRecord]

theorem State.checks_complete (s : State) (c : ErrCode) (i : Instr) : (s.complete c).checks i = s.checks i := by
  rw [State.complete_eq_withRecord, State.checks_withRecord]

theorem State.body_complete (s : State) (c : ErrCode) (i : Instr) : (s.complete c).body i = s.body i := by
  rw [State.complete_eq_withRecord, State.body_withRecord]

end Sys2Proof.Machine
end

section
/-! PROOFS. Single engine steps (spec 45 R210, R211): each phase has an end that it leads to, every step keeps that end and comes
nearer to it, and from Check it is the end of the whole command. -/

namespace Sys2Proof.Machine

/-! ### The end that a phase leads to -/

/-- What the passes from `p` on make of BUF, with the blocks `js` left in `p`. -/
def State.passesFrom (s : State) (plan : PassNo → Dir × Slot) (p : PassNo) (js : List Nat) : State :=
  match p with
  | .first =>
    ((s.runPass (plan .first) js).runPass (plan .second) (List.range s.blocks)).runPass (plan .third) (List.range s.blocks)
  | .second => (s.runPass (plan .second) js).runPass (plan .third) (List.range s.blocks)
  | .third => s.runPass (plan .third) js

/-- The end of the command once its passes are over. -/
def State.endPasses (s : State) (i : Instr) : State := if afterPasses i = .unpad then s.unpadEnd else s.complete .ok

/-- The passes that an operation runs; those of an encryption where it has none, which no arrow of 45 R210 leads to. -/
def planOf (i : Instr) : PassNo → Dir × Slot := (passesOf i).getD encPass

/-- The state in which command `i` ends when the engine goes on from phase `p`, the blocks of each pass in index order. -/
def State.endFrom (s : State) (i : Instr) : Phase → State
  | .check => (firstError (s.checks i)).elim (s.body i) s.complete
  | .single | .pad => s.body i
  | .pass p done => (s.passesFrom (planOf i) p (blocksLeft s.blocks done)).endPasses i
  | .unpad => s.unpadEnd
  | .loadKeys => s.loadKeys.complete .ok
  | .complete c => s.complete c

/-- From Check the engine leads to the end of the completion step (45 R211). -/
theorem exec_eq_endFrom_check (i : Instr) (s : State) : exec i s = .next (s.endFrom i .check) := by
  unfold State.endFrom
  cases hc : firstError (s.checks i) with
  | none => exact exec_of_pass hc
  | some c => exact exec_of_fail hc

theorem State.passesFrom_withRecord (s : State) (d : Bool) (c : ErrCode) (e : Engine) (plan : PassNo → Dir × Slot)
    (p : PassNo) (js : List Nat) : (s.withRecord d c e).passesFrom plan p js = (s.passesFrom plan p js).withRecord d c e := by
  have hblocks : (s.withRecord d c e).blocks = s.blocks := rfl
  cases p <;> simp only [State.passesFrom, State.runPass_withRecord, hblocks]

theorem State.endPasses_withRecord (s : State) (d : Bool) (c : ErrCode) (e : Engine) (i : Instr) :
    (s.withRecord d c e).endPasses i = s.endPasses i := by
  unfold State.endPasses
  split <;> rfl

/-- The end does not depend on the phase that ENG holds, only on the phase that is asked about. -/
theorem State.endFrom_goTo (s : State) (i : Instr) (q p : Phase) : (s.goTo i q).endFrom i p = s.endFrom i p := by
  rw [State.goTo_eq_withRecord]
  cases p with
  | check => simp only [State.endFrom, State.checks_withRecord, State.body_withRecord]; rfl
  | single | pad => exact s.body_withRecord _ _ _ i
  | pass p done =>
    have hblocks : (s.withRecord s.done s.errCode (.run (.op i) q)).blocks = s.blocks := rfl
    simp only [State.endFrom, State.passesFrom_withRecord, State.endPasses_withRecord, hblocks]
  | unpad | loadKeys | complete _ => rfl

/-! ### The arrows keep the end -/

theorem blocksLeft_nil (n : Nat) : blocksLeft n [] = List.range n := by
  simp [blocksLeft]

theorem State.endFrom_afterPasses (s : State) (i : Instr) : s.endFrom i (afterPasses i) = s.endPasses i := by
  cases i <;> rfl

/-- The end of a pass leads on to the end of the passes that follow it. -/
theorem State.endFrom_afterPass (s : State) (i : Instr) (p : PassNo) :
    s.endFrom i (afterPass i p) = (s.passesFrom (planOf i) p []).endPasses i := by
  cases p with
  | first | second => simp only [afterPass, State.endFrom, blocksLeft_nil, State.passesFrom, State.runPass_nil]
  | third => exact s.endFrom_afterPasses i

/-- With no block at all there is nothing for the passes to do. -/
theorem State.passesFrom_no_blocks {s : State} (h : s.blocks = 0) (plan : PassNo → Dir × Slot) (p : PassNo) :
    s.passesFrom plan p [] = s := by
  cases p <;> simp only [State.passesFrom, h, List.range_zero, State.runPass_nil]

/-- The first work phase leads to what the body does (45 R210). -/
theorem State.endFrom_firstWork (s : State) (i : Instr) : s.endFrom i (firstWork i) = s.body i := by
  cases i with
  | bufEde3Enc | bufEde3Dec | streamDec => simp only [firstWork, State.endFrom, blocksLeft_nil]; rfl
  | _ => rfl

/-- After the padding PAD completes and STREAM_ENC goes through its passes. -/
theorem State.endFrom_afterPad (s : State) {i : Instr} {p : Phase} (hp : afterPad i = some p) :
    s.addPadding.endFrom i p = s.body i := by
  cases i <;> cases hp
  · rfl
  · simp only [State.endFrom, blocksLeft_nil]
    rfl

theorem State.body_of_singleResult {s : State} {i : Instr} {b : Block} (h : s.singleResult i = some b) :
    s.body i = (s.setDout b).complete .ok := by
  cases i with
  | desEnc ksel | desDec ksel => simp only [State.singleResult] at h; rw [State.body, h, State.putResult]
  | ede3Enc | ede3Dec => cases h; rfl
  | nop | bufEde3Enc | bufEde3Dec | pad | unpad | streamEnc | streamDec | ldkeys => cases h

/-- One more block in S and the blocks that are left then are the blocks that were left. -/
theorem cons_blocksLeft_addBlock_perm {n j : Nat} {done : List Nat} (hj : j ∈ blocksLeft n done) :
    (j :: blocksLeft n (addBlock j done)).Perm (blocksLeft n done) := by
  have hnodup : ∀ l, (blocksLeft n l).Nodup := fun l => List.nodup_range.filter _
  refine (List.perm_ext_iff_of_nodup (List.nodup_cons.2 ⟨?_, hnodup _⟩) (hnodup _)).2 fun k => ?_
  · simp [mem_blocksLeft, mem_addBlock]
  · rw [mem_blocksLeft] at hj
    by_cases hk : k = j
    · simp [hk, mem_blocksLeft, hj]
    · simp [hk, mem_blocksLeft, mem_addBlock]

/-- Whichever block a Pass step takes, the passes end as they do in index order (44 R186). -/
theorem State.passesFrom_passBlock {s : State} (plan : PassNo → Dir × Slot) (p : PassNo) {done : List Nat} {j : Nat}
    (hb : s.buf.wf) (hl : s.len ≤ bufBytes) (hj : j ∈ blocksLeft s.blocks done) :
    (s.passBlock (plan p) j).passesFrom plan p (blocksLeft s.blocks (addBlock j done)) =
      s.passesFrom plan p (blocksLeft s.blocks done) := by
  have hfits : ∀ k ∈ j :: blocksLeft s.blocks (addBlock j done), 8 * k + 8 ≤ bufBytes := fun k hk => by
    have hlt : k < s.len / 8 := (mem_blocksLeft.1 ((cons_blocksLeft_addBlock_perm hj).mem_iff.1 hk)).1
    omega
  have hpass : (s.passBlock (plan p) j).runPass (plan p) (blocksLeft s.blocks (addBlock j done)) =
      s.runPass (plan p) (blocksLeft s.blocks done) := by
    rw [← State.runPass_cons, State.runPass_perm (cons_blocksLeft_addBlock_perm hj) (plan p) hb hfits]
  have hblocks : (s.passBlock (plan p) j).blocks = s.blocks := by rw [State.blocks, State.len_passBlock, State.blocks]
  cases p <;> simp only [State.passesFrom, hpass, hblocks]

/-! ### The number of steps (45 R210) -/

/-- How many engine steps end command `i` from phase `p` on, at most, with `len` as LENGTH. A pass with no block left to do takes
one step. -/
def stepsToEnd (len : Nat) (i : Instr) : Phase → Nat
  | .check => 3 * (len / 8 + 1) + 3
  | .single | .unpad => 2
  | .pad => 3 * (len / 8 + 1) + 2
  | .pass p done =>
    max 1 (blocksLeft (len / 8) done).length +
      (match p with | .first => 2 | .second => 1 | .third => 0) * max 1 (len / 8) + (if i = .streamDec then 2 else 1)
  | .loadKeys | .complete _ => 1

theorem stepsToEnd_pos (len : Nat) (i : Instr) (p : Phase) : 0 < stepsToEnd len i p := by
  cases p <;> simp only [stepsToEnd] <;> omega

theorem stepsToEnd_firstWork (len : Nat) (i : Instr) : stepsToEnd len i (firstWork i) < stepsToEnd len i .check := by
  cases i <;> simp [firstWork, stepsToEnd, blocksLeft_nil_length] <;> omega

theorem stepsToEnd_afterPad {i : Instr} {p : Phase} (hp : afterPad i = some p) (len : Nat) :
    stepsToEnd (len + padCount len) i p < stepsToEnd len i .pad := by
  have hpc := padCount_range len
  cases i <;> cases hp
  · simp only [stepsToEnd]
    omega
  · simp only [stepsToEnd, blocksLeft_nil_length, reduceCtorEq, if_false]
    omega

theorem stepsToEnd_afterPasses (len : Nat) (i : Instr) (p : PassNo) (done : List Nat) :
    stepsToEnd len i (afterPasses i) < stepsToEnd len i (.pass p done) := by
  cases i <;> simp [afterPasses, stepsToEnd]

theorem stepsToEnd_afterPass (len : Nat) (i : Instr) (p : PassNo) (done : List Nat) :
    stepsToEnd len i (afterPass i p) < stepsToEnd len i (.pass p done) := by
  cases p with
  | third => exact stepsToEnd_afterPasses len i .third done
  | first | second => simp only [afterPass, stepsToEnd, blocksLeft_nil_length]; omega

/-- One more block in S is one step nearer to the end, while blocks are left. -/
theorem stepsToEnd_addBlock {len j : Nat} {done : List Nat} (i : Instr) (p : PassNo) (hj : j ∈ blocksLeft (len / 8) done)
    (hne : blocksLeft (len / 8) (addBlock j done) ≠ []) :
    stepsToEnd len i (.pass p (addBlock j done)) < stepsToEnd len i (.pass p done) := by
  have hlt := length_blocksLeft_addBlock hj
  have hpos := List.length_pos_iff.2 hne
  simp only [stepsToEnd]
  omega

/-! ### A step comes nearer to the same end -/

/-- From phase `p` of command `i` in `s` the result is one step nearer to the end: it is that end, or a phase that leads there in
fewer steps. -/
inductive Nearer (s : State) (i : Instr) (p : Phase) : Result → Prop
  | ends {t : State} (ht : t = s.endFrom i p) (hidle : t.eng = .idle) : Nearer s i p (.next t)
  | moves {u : State} {q : Phase} (hu : u.endFrom i q = s.endFrom i p) (hlt : stepsToEnd u.len i q < stepsToEnd s.len i p) :
      Nearer s i p (.next (u.goTo i q))

section
variable {s : State} {i : Instr}

theorem checkStep_nearer (i : Instr) (s : State) : Nearer s i .check (checkStep i s) := by
  unfold checkStep
  split
  · next c hc =>
    refine .moves ?_ ?_
    · simp only [State.endFrom, hc, Option.elim_some]
    · simp only [stepsToEnd]; omega
  · next hc =>
    refine .moves ?_ (stepsToEnd_firstWork s.len i)
    rw [State.endFrom_firstWork, State.endFrom, hc, Option.elim_none]

theorem InPhase.singleStep_nearer (h : InPhase s i .single) : Nearer s i .single (singleStep i s) := by
  obtain ⟨b, hb⟩ := Option.isSome_iff_exists.1 h.phase
  rw [singleStep, hb]
  exact .moves (State.body_of_singleResult hb).symm Nat.one_lt_two

theorem InPhase.padStep_nearer (h : InPhase s i .pad) : Nearer s i .pad (padStep i s) := by
  obtain ⟨hpad, hroom⟩ := h.phase
  obtain ⟨p, hp⟩ := Option.isSome_iff_exists.1 hpad
  have hstep : padStep i s = .next (s.addPadding.goTo i p) := by
    simp only [padStep, hp, hroom, Bool.false_eq_true, if_false]
  rw [hstep]
  exact .moves (s.endFrom_afterPad hp) (s.len_addPadding hroom ▸ stepsToEnd_afterPad hp s.len)

theorem InPhase.passStep_nearer {p : PassNo} {done : List Nat} (h : InPhase s i (.pass p done)) (pick : Nat) :
    Nearer s i (.pass p done) (passStep i p done pick s) := by
  obtain ⟨hpass, hlong, -⟩ := h.phase
  obtain ⟨plan, hplan⟩ := Option.isSome_iff_exists.1 hpass
  have hof : planOf i = plan := by rw [planOf, hplan, Option.getD_some]
  have hl : s.len ≤ bufBytes := by simpa [State.tooLong] using hlong
  rcases passStep_cases hplan p done pick hlong with ⟨hnil, hst⟩ | ⟨j, hj, hst⟩ <;> rw [hst]
  · split
    · next h0 =>
      refine .moves ?_ (stepsToEnd_afterPasses _ _ _ _)
      rw [State.endFrom_afterPasses, State.endFrom, hnil, State.passesFrom_no_blocks h0]
    · refine .moves ?_ (stepsToEnd_afterPass _ _ _ _)
      rw [State.endFrom_afterPass, State.endFrom, hnil]
  · have hend := congrArg (State.endPasses · i) (State.passesFrom_passBlock plan p h.buf hl hj)
    split
    · next hnil =>
      refine .moves ?_ (by rw [State.len_passBlock]; exact stepsToEnd_afterPass _ _ _ _)
      rw [State.endFrom_afterPass, State.endFrom, hof, ← hend, hnil]
    · next hne =>
      refine .moves ?_ (by rw [State.len_passBlock]; exact stepsToEnd_addBlock i p hj hne)
      rw [State.endFrom, State.endFrom, hof, ← hend, State.blocks, State.len_passBlock, State.blocks]

theorem InPhase.unpadStep_nearer (h : InPhase s i .unpad) : Nearer s i .unpad (unpadStep i s) := by
  obtain ⟨hunpad, hlong, hempty⟩ := h.phase
  have hlen : s.len ≠ 0 := (s.emptyOrUnaligned_eq_false.1 hempty).1
  unfold unpadStep
  simp only [hunpad, hlong, hlen, Bool.not_true, Bool.false_or, decide_false, Bool.false_eq_true, if_false]
  split
  · next hbad => exact .moves (if_pos hbad).symm Nat.one_lt_two
  · next hgood => exact .moves (if_neg hgood).symm Nat.one_lt_two

theorem InPhase.loadKeysStep_nearer (h : InPhase s i .loadKeys) : Nearer s i .loadKeys (loadKeysStep i s) := by
  rw [loadKeysStep, if_pos h.phase.1]
  exact .ends rfl rfl

/-- Every single step of a running command comes nearer to the same end. -/
theorem phaseStep_nearer {p : Phase} (h : InPhase s i p) (he : s.eng = .run (.op i) p) (pick : Nat) :
    Nearer s i p (phaseStep pick s) := by
  unfold phaseStep
  rw [he]
  cases p with
  | check => exact checkStep_nearer i s
  | single => exact h.singleStep_nearer
  | pad => exact h.padStep_nearer
  | pass p done => exact h.passStep_nearer pick
  | unpad => exact h.unpadStep_nearer
  | loadKeys => exact h.loadKeysStep_nearer
  | complete c => exact .ends rfl rfl

/-- Enough single steps reach the end that the phase leads to, and the engine stays there. -/
theorem phaseRun_eq_endFrom {picks : List Nat} {p : Phase} (h : Inv s) (he : s.eng = .run (.op i) p)
    (hn : stepsToEnd s.len i p ≤ picks.length) : phaseRun picks s = .next (s.endFrom i p) := by
  induction picks generalizing s p with
  | nil => exact absurd hn (Nat.not_le.2 (stepsToEnd_pos s.len i p))
  | cons pick picks ih =>
    obtain ⟨t, ht⟩ := phaseStep_next h pick
    have hnear := phaseStep_nearer (h.inPhase he) he pick
    rw [phaseRun_cons picks ht]
    have hinv := phaseStep_inv h ht
    rw [ht] at hnear
    cases hnear with
    | ends hend hidle => rw [phaseRun_idle picks _ hidle, hend]
    | moves hu hlt =>
      rw [List.length_cons] at hn
      rw [ih hinv rfl (by rw [State.len_goTo]; omega), State.endFrom_goTo, hu]

end

/-- Settles O10: from Check the bound of `stepsToEnd` is the statement's, and the end is that of the completion step. -/
theorem singleEngineStepsReachTheCommandsEffect : Obligations.SingleEngineStepsReachTheCommandsEffect := by
  unfold Obligations.SingleEngineStepsReachTheCommandsEffect
  intro s i picks h he hn
  rw [exec_eq_endFrom_check, phaseRun_eq_endFrom h he hn]

end Sys2Proof.Machine
end

section
/-! PROOFS. Padding and the stream commands (spec 45 R200 to R207): the checks of the four commands, in order, what PAD and the
end of UNPAD do, and that the stream commands are their parts and undo each other. -/

namespace Sys2Proof.Machine

/-! ### The checks of the commands, in order (45 R201 to R204; 60 R302) -/

/-- Of two lists of checks the first is tried first. -/
theorem firstError_append (xs ys : List (Bool × ErrCode)) :
    firstError (xs ++ ys) = (firstError xs).or (firstError ys) := by
  induction xs with
  | nil => rfl
  | cons x xs ih =>
    obtain ⟨fails, code⟩ := x
    cases fails
    · exact ih
    · rfl

theorem mem_of_firstError {checks : List (Bool × ErrCode)} {c : ErrCode} (h : firstError checks = some c) :
    (true, c) ∈ checks := by
  induction checks with
  | nil => cases h
  | cons x xs ih =>
    obtain ⟨fails, code⟩ := x
    cases fails
    · exact List.mem_cons_of_mem _ (ih h)
    · cases h
      exact List.mem_cons_self

/-- No check raises OK. -/
theorem State.checks_ne_ok (s : State) (i : Instr) : firstError (s.checks i) ≠ some .ok := by
  intro h
  have hmem := mem_of_firstError h
  cases i with
  | nop => cases hmem
  | desEnc ksel | desDec ksel =>
    simp only [State.checks, State.desChecks] at hmem
    split at hmem <;> simp at hmem
  | ede3Enc | ede3Dec => simp [State.checks, State.ede3Checks] at hmem
  | bufEde3Enc | bufEde3Dec => simp [State.checks, State.bufChecks] at hmem
  | pad => simp [State.checks, State.padChecks] at hmem
  | unpad => simp [State.checks, State.unpadChecks] at hmem
  | streamEnc => simp [State.checks, State.streamEncChecks] at hmem
  | streamDec => simp [State.checks, State.streamDecChecks] at hmem
  | ldkeys => simp [State.checks, State.ldkeysChecks] at hmem

/-- A command that ends with OK has passed its checks and run its body. -/
theorem exec_ok {i : Instr} {s t : State} (h : exec i s = .next t) (hok : t.errCode = .ok) :
    firstError (s.checks i) = none ∧ t = s.body i := by
  rcases exec_cases h with ⟨c, hc, rfl⟩ | hpass
  · rw [State.complete_errCode] at hok
    exact absurd (hok ▸ hc) (s.checks_ne_ok i)
  · exact hpass

section
variable {s : State}

theorem firstError_pad_room (h : s.len + padCount s.len ≤ bufBytes) : firstError (s.checks .pad) = none := by
  simp [State.checks, State.padChecks, firstError, State.tooLong_eq_false (s := s) (by omega), State.noRoom_eq_false h]

/-- Both checks of PAD give LENGTH_ERR, and a LENGTH past BUF_BYTES has no room either. -/
theorem firstError_pad_noRoom (h : bufBytes < s.len + padCount s.len) : firstError (s.checks .pad) = some .lengthErr := by
  have hroom : s.noRoom = true := decide_eq_true h
  cases hlong : s.tooLong <;> simp [State.checks, State.padChecks, firstError, hlong, hroom]

theorem firstError_unpad_tooLong (h : bufBytes < s.len) : firstError (s.checks .unpad) = some .lengthErr := by
  have hlong : s.tooLong = true := decide_eq_true h
  simp [State.checks, State.unpadChecks, firstError, hlong]

theorem firstError_unpad_unaligned (hl : s.len ≤ bufBytes) (h : s.len = 0 ∨ s.len % 8 ≠ 0) :
    firstError (s.checks .unpad) = some .invalidInput := by
  have hbad : s.emptyOrUnaligned = true := by simpa [State.emptyOrUnaligned, State.unaligned] using h
  simp [State.checks, State.unpadChecks, firstError, State.tooLong_eq_false hl, hbad]

theorem firstError_unpad_valid (hl : s.len ≤ bufBytes) (h0 : s.len ≠ 0) (h8 : s.len % 8 = 0) :
    firstError (s.checks .unpad) = none := by
  have hgood : s.emptyOrUnaligned = false := s.emptyOrUnaligned_eq_false.2 ⟨h0, State.unaligned_eq_false h8⟩
  simp [State.checks, State.unpadChecks, firstError, State.tooLong_eq_false hl, hgood]

end

/-- The checks of STREAM_ENC are those of PAD, then the keys. -/
theorem State.checks_streamEnc (s : State) : s.checks .streamEnc = s.checks .pad ++ s.ede3Checks := rfl

/-- The checks of STREAM_DEC are those of UNPAD, then the keys. -/
theorem State.checks_streamDec (s : State) : s.checks .streamDec = s.checks .unpad ++ s.ede3Checks := rfl

section
variable {s : State} {stream part : Instr} (hck : s.checks stream = s.checks part ++ s.ede3Checks)
include hck

/-- A failing check of its part without keys ends a stream command too. -/
theorem exec_of_part_fail {c : ErrCode} (h : firstError (s.checks part) = some c) : exec stream s = .next (s.complete c) :=
  exec_of_fail (by rw [hck, firstError_append, h, Option.some_or])

theorem exec_of_part_keyErr (h : firstError (s.checks part) = none) {k : Slot} (hk : s.kv k = false) :
    exec stream s = .next (s.complete .keyErr) :=
  exec_of_fail (by rw [hck, firstError_append, h, firstError_ede3Checks_invalid hk, Option.none_or])

theorem firstError_of_part_valid (h : firstError (s.checks part) = none) (hk : s.allKv = true) :
    firstError (s.checks stream) = none := by
  rw [hck, firstError_append, h, firstError_ede3Checks_valid hk, Option.none_or]

end

/-! ### PAD (45 R200, R201) -/

/-- A buffer command other than LDKEYS changes BUF, LENGTH and the completion record at most. -/
theorem State.body_buffer_frame {i : Instr} (hi : usesBuffer i = true) (hne : i ≠ .ldkeys) (s : State) :
    s.body i = { s with
      buf := (s.body i).buf, length := (s.body i).length, done := true, errCode := (s.body i).errCode, eng := .idle } := by
  have ha : (s.body i).slotA = s.slotA := s.body_slot i hne .a
  have hb : (s.body i).slotB = s.slotB := s.body_slot i hne .b
  have hc : (s.body i).slotC = s.slotC := s.body_slot i hne .c
  exact (s.body_frame i).trans (by rw [State.body_dout hi, ha, hb, hc])

/-- Settles O48: with room PAD is its body, and every other LENGTH fails one of its two checks. -/
theorem padAppendsThePadding : Obligations.PadAppendsThePadding := by
  unfold Obligations.PadAppendsThePadding
  intro s
  obtain ⟨hpos, hle, -⟩ := padCount_range s.len
  refine ⟨fun h => ?_, fun h => exec_of_fail (firstError_pad_noRoom h), hpos, hle⟩
  have hroom : firstError (s.checks .pad) = none := firstError_pad_room h
  refine ⟨s.body .pad, exec_of_pass hroom, s.len_addPadding (State.noRoom_eq_false h), fun a hge hlt => ?_, fun a ha => ?_,
    State.body_buffer_frame rfl (by decide) s⟩
  · exact (s.readByte_addPadding a).trans (if_pos ⟨hge, hlt⟩)
  · refine State.readByte_body rfl hroom ?_
    rintro ⟨hge, hlt⟩
    exact ha.elim (Nat.not_lt.2 hge) (Nat.not_le.2 hlt)

/-! ### The end of UNPAD and STREAM_DEC (45 R202, R204, R206) -/

theorem badPadding_eq_false_iff (p : Byte) : badPadding p = false ↔ 1 ≤ p.toNat ∧ p.toNat ≤ 8 := by
  simp [badPadding, BitVec.lt_def, Nat.one_le_iff_ne_zero]

theorem State.unpadEnd_of_good {s : State} (h : 1 ≤ s.lastByte.toNat ∧ s.lastByte.toNat ≤ 8) :
    s.unpadEnd = s.dropPadding.complete .ok := by
  rw [State.unpadEnd, (badPadding_eq_false_iff _).2 h, if_neg Bool.false_ne_true]

theorem State.unpadEnd_of_bad {s : State} (h : ¬ (1 ≤ s.lastByte.toNat ∧ s.lastByte.toNat ≤ 8)) :
    s.unpadEnd = s.complete .invalidPadding := by
  rw [State.unpadEnd, if_pos (by rwa [← badPadding_eq_false_iff, Bool.not_eq_false] at h)]

theorem State.len_dropPadding {s : State} (h : s.len ≤ bufBytes) : s.dropPadding.len = s.len - s.lastByte.toNat :=
  s.len_setLen (by omega)

/-- Settles O49: after its two checks UNPAD is `unpadEnd`, which reads the last byte alone. -/
theorem unpadDropsWhatTheLastByteSays : Obligations.UnpadDropsWhatTheLastByteSays := by
  unfold Obligations.UnpadDropsWhatTheLastByteSays
  intro s
  refine ⟨fun hl h0 h8 => ?_, fun hl => exec_of_fail (firstError_unpad_tooLong hl),
    fun hl h => exec_of_fail (firstError_unpad_unaligned hl h)⟩
  have hexec : exec .unpad s = .next s.unpadEnd := exec_of_pass (firstError_unpad_valid hl h0 h8)
  rw [hexec]
  refine ⟨fun hlow hhigh => ?_, fun hbad => ?_⟩
  · rw [State.unpadEnd_of_good ⟨hlow, hhigh⟩]
    exact ⟨_, rfl, State.len_dropPadding hl, rfl⟩
  · rw [State.unpadEnd_of_bad fun hgood => hbad.elim (Nat.not_lt.2 hgood.1) (Nat.not_lt.2 hgood.2)]
    rfl

/-! ### The stream commands (45 R203, R204) -/

/-- The passes over a block read the key slots alone. -/
theorem State.planBlock_congr {s t : State} (h : ∀ k, t.slot k = s.slot k) : t.planBlock = s.planBlock := by
  funext plan b
  simp only [State.planBlock, State.sched, State.key, h]

/-- Settles O50: STREAM_ENC is the passes over what PAD leaves, after the checks of PAD and that of the keys. -/
theorem streamEncPadsAndEncrypts : Obligations.StreamEncPadsAndEncrypts := by
  unfold Obligations.StreamEncPadsAndEncrypts
  intro s
  refine ⟨fun h ha hb hc => ?_, fun h => exec_of_part_fail s.checks_streamEnc (firstError_pad_noRoom h),
    fun h k hk => exec_of_part_keyErr s.checks_streamEnc (firstError_pad_room h) hk⟩
  have hroom := firstError_pad_room h
  have hpass := firstError_of_part_valid s.checks_streamEnc hroom (State.allKv_of_slots ha hb hc)
  have hlen : (s.body .streamEnc).len = s.len + padCount s.len :=
    (s.addPadding.len_threePasses encPass).trans (s.len_addPadding (State.noRoom_eq_false h))
  refine ⟨s.body .streamEnc, s.body .pad, exec_of_pass hpass, exec_of_pass hroom, s.addPadding.threePasses_length encPass,
    hlen, hlen ▸ (padCount_range s.len).2.2, fun j hj => ?_, fun a ha => ?_, State.body_buffer_frame rfl (by decide) s⟩
  · have hblocks : j < s.addPadding.blocks := by rwa [State.blocks, ← State.len_threePasses]
    calc (s.body .streamEnc).readBlock j
      _ = (s.addPadding.threePasses encPass).readBlock j := State.readBlock_complete _ _ j
      _ = s.addPadding.planBlock encPass (s.addPadding.readBlock j) := State.readBlock_threePasses_of_lt _ encPass hblocks
      _ = ede3Encrypt s.slotA.key s.slotB.key s.slotC.key ((s.body .pad).readBlock j) := by
        rw [State.planBlock_congr s.slot_addPadding, State.planBlock_encPass, State.body, State.readBlock_complete]
  · exact State.readByte_body rfl hpass (Nat.not_lt.2 (hlen ▸ ha))

theorem State.readBlock_unpadEnd (s : State) (j : Nat) : s.unpadEnd.readBlock j = s.readBlock j :=
  State.memRead_congr fun k _ _ => s.readByte_unpadEnd k

/-- Settles O51: STREAM_DEC is `unpadEnd` on the decrypted blocks, after the checks of UNPAD and that of the keys. -/
theorem streamDecDecryptsAndUnpads : Obligations.StreamDecDecryptsAndUnpads := by
  unfold Obligations.StreamDecDecryptsAndUnpads
  intro s
  refine ⟨fun hl h0 h8 ha hb hc => ?_, fun hl => exec_of_part_fail s.checks_streamDec (firstError_unpad_tooLong hl),
    fun hl h => exec_of_part_fail s.checks_streamDec (firstError_unpad_unaligned hl h),
    fun hl h0 h8 k hk => exec_of_part_keyErr s.checks_streamDec (firstError_unpad_valid hl h0 h8) hk⟩
  have hpass := firstError_of_part_valid s.checks_streamDec (firstError_unpad_valid hl h0 h8) (State.allKv_of_slots ha hb hc)
  have hlen := s.len_threePasses decPass
  have hlast : (s.body .streamDec).readByte (s.len - 1) = (s.threePasses decPass).lastByte := by
    rw [State.body, State.readByte_unpadEnd, State.lastByte, hlen]
  refine ⟨s.body .streamDec, exec_of_pass hpass, fun j hj => ?_, fun a ha => State.readByte_body rfl hpass ?_,
    State.body_buffer_frame rfl (by decide) s, fun hgood => ?_, fun hbad => ?_⟩
  · rw [State.body, State.readBlock_unpadEnd, s.readBlock_threePasses_of_lt decPass hj, State.planBlock_decPass]
  · exact Nat.not_lt.2 ((Nat.mul_div_le s.len 8).trans ha)
  · rw [hlast] at hgood ⊢
    rw [State.body, State.unpadEnd_of_good hgood, State.len_complete, State.len_dropPadding (hlen ▸ hl), hlen]
    exact ⟨rfl, rfl⟩
  · rw [hlast] at hbad
    rw [State.body, State.unpadEnd_of_bad hbad]
    exact ⟨rfl, s.threePasses_length decPass⟩

/-! ### The stream commands and their parts (45 R205) -/

theorem State.allKv_of_bufChecks {s : State} (h : firstError s.bufChecks = none) : s.allKv = true := by
  have hkeys := firstError_eq_none.1 h (!s.allKv, .keyErr) (by simp [State.bufChecks])
  simpa using hkeys

theorem State.allKv_congr {s t : State} (h : ∀ k, t.slot k = s.slot k) : t.allKv = s.allKv := by
  simp only [State.allKv, State.kv, h]

/-- The checks of UNPAD read LENGTH alone. -/
theorem State.checks_unpad_congr {s t : State} (h : t.length = s.length) : t.checks .unpad = s.checks .unpad := by
  have hlen : t.len = s.len := congrArg BitVec.toNat h
  unfold State.checks State.unpadChecks State.tooLong State.emptyOrUnaligned State.unaligned
  rw [hlen]

/-- Settles O52: neither part reads the completion record of the other, so the second starts from the first one's work. -/
theorem streamCommandsAreTheirParts : Obligations.StreamCommandsAreTheirParts := by
  unfold Obligations.StreamCommandsAreTheirParts
  refine ⟨fun s t u ht htok hu huok => ?_, fun s t u ht htok hu huok => ?_, fun s k hk h => ?_⟩
  · obtain ⟨hpad, rfl⟩ := exec_ok ht htok
    obtain ⟨hbuf, rfl⟩ := exec_ok hu huok
    rw [State.checks_accept] at hbuf
    have hall : s.allKv = true := State.allKv_congr (s.body_slot .pad (by decide)) ▸ State.allKv_of_bufChecks hbuf
    rw [exec_of_pass (firstError_of_part_valid s.checks_streamEnc hpad hall), State.body_accept]
    exact congrArg _ (s.addPadding.body_complete .ok .bufEde3Enc).symm
  · obtain ⟨hbuf, rfl⟩ := exec_ok ht htok
    obtain ⟨hunpad, rfl⟩ := exec_ok hu huok
    rw [State.checks_accept, State.checks_unpad_congr (t := s.body .bufEde3Dec) (s.threePasses_length decPass)] at hunpad
    rw [exec_of_pass (firstError_of_part_valid s.checks_streamDec hunpad (State.allKv_of_bufChecks hbuf)), State.body_accept]
    exact congrArg _ ((s.threePasses decPass).body_complete .ok .unpad).symm
  · have hroom := firstError_pad_room h
    refine ⟨_, _, exec_of_part_keyErr s.checks_streamEnc hroom hk, rfl, rfl, exec_of_pass hroom, rfl, ?_⟩
    rw [State.body, State.len_complete, s.len_addPadding (State.noRoom_eq_false h)]
    have hpos := (padCount_range s.len).1
    omega

/-! ### STREAM_DEC undoes STREAM_ENC (45 R207) -/

/-- A byte of BUF is a byte of its block (20 R54). -/
theorem State.readByte_of_readBlock {s t : State} {a : Nat} (h : s.readBlock (a / 8) = t.readBlock (a / 8)) :
    s.readByte a = t.readByte a := by
  have hbyte : ∀ u : State, u.readByte a = (u.readBlock (a / 8)).extractLsb' (8 * (7 - a % 8)) 8 := fun u => by
    apply BitVec.eq_of_getLsbD_eq
    intro b hb
    have hread := u.getLsbD_memRead (8 * (a / 8)) 8 (8 * (7 - a % 8) + b) (by omega)
    have hindex : 8 * (a / 8) + (8 - 1 - (8 * (7 - a % 8) + b) / 8) = a := by omega
    have hbit : (8 * (7 - a % 8) + b) % 8 = b := by omega
    rw [hindex, hbit] at hread
    rw [BitVec.getLsbD_extractLsb', decide_eq_true hb, Bool.true_and]
    exact hread.symm
  rw [hbyte s, hbyte t, h]

/-- The passes of a decryption undo those of an encryption on every byte of the blocks (44 R183). -/
theorem State.readByte_decPass_encPass (s : State) {a : Nat} (ha : a < 8 * s.blocks) :
    ((s.threePasses encPass).threePasses decPass).readByte a = s.readByte a := by
  have hj : a / 8 < s.blocks := by omega
  have hj' : a / 8 < (s.threePasses encPass).blocks := by rwa [State.blocks, State.len_threePasses]
  refine State.readByte_of_readBlock ?_
  rw [State.readBlock_threePasses_of_lt _ _ hj', State.readBlock_threePasses_of_lt _ _ hj,
    State.planBlock_congr (s.threePasses_slot encPass), State.planBlock_encPass, State.planBlock_decPass,
    ede3Decrypt_ede3Encrypt]

section
variable {s : State} (hroom : s.noRoom = false)
include hroom

/-- STREAM_ENC and the passes of STREAM_DEC after it leave the padded bytes. -/
theorem State.readByte_decPass_streamEnc {a : Nat} (ha : a < s.len + padCount s.len) :
    ((s.addPadding.threePasses encPass).threePasses decPass).readByte a = s.addPadding.readByte a :=
  s.addPadding.readByte_decPass_encPass (by rwa [State.blocks_addPadding hroom])

/-- The last of them is the pad count (45 R201). -/
theorem State.lastByte_decPass_streamEnc :
    ((s.addPadding.threePasses encPass).threePasses decPass).lastByte = BitVec.ofNat 8 (padCount s.len) := by
  obtain ⟨hpos, -, -⟩ := padCount_range s.len
  rw [State.lastByte, State.len_threePasses, State.len_threePasses, s.len_addPadding hroom,
    State.readByte_decPass_streamEnc hroom (by omega), State.readByte_addPadding, if_pos (by omega)]

end

/-- Settles O53: the passes of STREAM_DEC find the padded bytes again, and the last of them says how many to take off. -/
theorem streamDecUndoesStreamEnc : Obligations.StreamDecUndoesStreamEnc := by
  unfold Obligations.StreamDecUndoesStreamEnc
  intro s h ha hb hc
  have hall := State.allKv_of_slots ha hb hc
  have hroom : s.noRoom = false := State.noRoom_eq_false h
  obtain ⟨hpos, hle, hmod⟩ := padCount_range s.len
  have henc := firstError_of_part_valid s.checks_streamEnc (firstError_pad_room h) hall
  generalize hx : s.addPadding.threePasses encPass = x
  have hbody : s.body .streamEnc = x.complete .ok := hx ▸ rfl
  have hlenx : x.len = s.len + padCount s.len := by rw [← hx, State.len_threePasses, s.len_addPadding hroom]
  have hallx : x.allKv = true := by
    rw [← hx, State.allKv_congr (State.threePasses_slot _ _), State.allKv_congr s.slot_addPadding, hall]
  have hdec : firstError (((s.body .streamEnc).accept 0x0000000A#32).checks .streamDec) = none := by
    rw [State.checks_accept, hbody, State.checks_complete]
    exact firstError_of_part_valid x.checks_streamDec
      (firstError_unpad_valid (by omega) (by omega) (by omega)) hallx
  have hlast : (x.threePasses decPass).lastByte.toNat = padCount s.len := by
    rw [← hx, State.lastByte_decPass_streamEnc hroom, BitVec.toNat_ofNat, Nat.mod_eq_of_lt (by omega)]
  have hend : ((s.body .streamEnc).accept 0x0000000A#32).body .streamDec =
      (x.threePasses decPass).dropPadding.complete .ok := by
    rw [State.body_accept, hbody, State.body_complete, State.body,
      State.unpadEnd_of_good (by rw [hlast]; exact ⟨hpos, hle⟩)]
  refine ⟨_, _, exec_of_pass henc, exec_of_pass hdec, by rw [hend, State.complete_errCode], ?_, fun a halt => ?_⟩
  · rw [hend, State.len_complete, State.len_dropPadding (by rw [State.len_threePasses]; omega), hlast, State.len_threePasses,
      hlenx, Nat.add_sub_cancel]
  · calc (((s.body .streamEnc).accept 0x0000000A#32).body .streamDec).readByte a
      _ = (x.threePasses decPass).readByte a := by rw [hend]; rfl
      _ = s.addPadding.readByte a := by rw [← hx]; exact State.readByte_decPass_streamEnc hroom (by omega)
      _ = s.readByte a := s.readByte_addPadding_outside (by omega)

end Sys2Proof.Machine
end

section
/-! PROOFS. The control commands (spec 46 R220, R221): NOP is its completion, LDKEYS reads the three fragments byte after byte. -/

namespace Sys2Proof.Machine

/-! ### NOP (46 R220) -/

/-- The turn of an accepted command is the command at once (45 R211). -/
theorem engineTurn_of_check {s : State} {i : Instr} (h : s.eng = .run (.op i) .check) : engineTurn s = exec i s := by
  rw [engineTurn, h]

theorem exec_nop (s : State) : exec .nop s = .next (s.complete .ok) := exec_of_pass (i := .nop) rfl

/-- Settles O39: NOP has no check and its body is the completion, after which nothing is left of its acceptance. -/
theorem nopCompletesWithOk : Obligations.NopCompletesWithOk := by
  unfold Obligations.NopCompletesWithOk
  refine fun s => ⟨exec_nop s, fun he t ht => ?_⟩
  have heng : ((s.accept 0x00000000#32).respond (.write false)).eng = .run (.op .nop) .check :=
    congrArg (Engine.run · .check) (decodeCommand_of_decode_ok (decode_encode (i := .nop) rfl))
  rw [State.access_wr_cmd he, engineTurn_of_check heng, exec_nop, State.complete_accept_respond he] at ht
  cases ht
  rfl

/-! ### LDKEYS (46 R221) -/

/-- A fragment read from BUF: byte 0 stands in the top bits (20 R53, R55). -/
theorem State.memRead_fragment (s : State) (i : Nat) :
    s.memRead i 7 = (s.readByte i ++ s.readByte (i + 1) ++ s.readByte (i + 2) ++ s.readByte (i + 3) ++ s.readByte (i + 4) ++
      s.readByte (i + 5) ++ s.readByte (i + 6) : Key) := by
  have hbytes : ∀ k, k < 7 → s.readByte (i + k) = ((List.range 7).map fun j => s.readByte (i + j)).getD k 0#8 :=
    fun k hk => by simp [hk]
  exact (Option.some.inj (keyOfFragment_eq_memRead rfl hbytes)).symm

section
variable {s : State}

theorem firstError_ldkeys_tooLong (h : bufBytes < s.len) : firstError (s.checks .ldkeys) = some .lengthErr := by
  have hlong : s.tooLong = true := decide_eq_true h
  simp [State.checks, State.ldkeysChecks, firstError, hlong]

theorem firstError_ldkeys_short (hl : s.len ≤ bufBytes) (h : s.len < 21) :
    firstError (s.checks .ldkeys) = some .keyErr := by
  have hshort : s.shortKeyFile = true := decide_eq_true h
  simp [State.checks, State.ldkeysChecks, firstError, State.tooLong_eq_false hl, hshort]

theorem firstError_ldkeys_valid (hl : s.len ≤ bufBytes) (h : 21 ≤ s.len) : firstError (s.checks .ldkeys) = none := by
  have hfile : s.shortKeyFile = false := decide_eq_false (Nat.not_lt.2 h)
  simp [State.checks, State.ldkeysChecks, firstError, State.tooLong_eq_false hl, hfile]

end

/-- Settles O56: LDKEYS is its body, the three fragments of BUF, where neither of its checks fails. -/
theorem ldkeysLoadsTheKeyFile : Obligations.LdkeysLoadsTheKeyFile := by
  unfold Obligations.LdkeysLoadsTheKeyFile
  refine fun s => ⟨fun hl h21 => ?_, fun hl => exec_of_fail (firstError_ldkeys_tooLong hl),
    fun hl h21 => exec_of_fail (firstError_ldkeys_short hl h21)⟩
  rw [exec_of_pass (firstError_ldkeys_valid hl h21), State.body, State.loadKeys]
  simp only [State.slotFromFile, State.memRead_fragment]
  rfl

end Sys2Proof.Machine
end

section
/-! PROOFS. Key derivation and the loading of the key file (spec 48 R240, R241; 20 R55): the password is mixed in byte by byte, the
key file is three fragments of seven bytes, and either way of loading makes them the three keys. -/

namespace Sys2Proof.Machine

/-! ### The hash and the mixed-in password (48 R240) -/

theorem length_hostHash (d : List Byte) : (hostHash d).length = hashSize := by
  rw [hostHash, List.length_map, List.length_range]

@[simp] theorem mixPassword_nil (ds : List Byte) : mixPassword ds [] = ds := by
  cases ds <;> rfl

theorem length_mixPassword (ds pw : List Byte) : (mixPassword ds pw).length = ds.length := by
  fun_induction mixPassword ds pw with
  | case1 d ds p ps ih => rw [List.length_cons, List.length_cons, ih]
  | case2 | case3 => rfl

/-- A byte of the digest is mixed with the password's byte at its place, where the password has one. -/
theorem getD_mixPassword (ds pw : List Byte) {i : Nat} (hi : i < ds.length) :
    (mixPassword ds pw).getD i 0#8 = if i < pw.length then ds.getD i 0#8 ^^^ pw.getD i 0#8 else ds.getD i 0#8 := by
  fun_induction mixPassword ds pw generalizing i with
  | case1 d ds p ps ih =>
    cases i with
    | zero => simp
    | succ i => simpa using ih (Nat.lt_of_succ_lt_succ hi)
  | case2 ds => simp
  | case3 p ps => cases hi

/-- The digest of a round of the derivation: all of it mixed, HASH_SIZE bytes. -/
theorem mixPassword_hostHash (d pw : List Byte) :
    (mixPassword (hostHash d) pw).length = hashSize ∧ ∀ i, i < hashSize → (mixPassword (hostHash d) pw).getD i 0#8 =
      if i < pw.length then (hostHash d).getD i 0#8 ^^^ pw.getD i 0#8 else (hostHash d).getD i 0#8 :=
  ⟨(length_mixPassword _ _).trans (length_hostHash d), fun _ hi => getD_mixPassword _ _ ((length_hostHash d).symm ▸ hi)⟩

/-! ### Fragments of a key file (20 R55) -/

theorem extractLsb'_seven_bytes (f0 f1 f2 f3 f4 f5 f6 : Byte) {i : Nat} (hi : i < 7) :
    (f0 ++ f1 ++ f2 ++ f3 ++ f4 ++ f5 ++ f6).extractLsb' (8 * (6 - i)) 8 = [f0, f1, f2, f3, f4, f5, f6].getD i 0#8 := by
  simp only [BitVec.extractLsb'_append_eq_ite]
  interval_cases i <;> simp

/-- Seven bytes are a key that has byte 0 in its top bits. -/
theorem exists_keyOfFragment {f : List Byte} (hf : f.length = 7) :
    ∃ k, keyOfFragment f = some k ∧ ∀ i, i < 7 → k.extractLsb' (8 * (6 - i)) 8 = f.getD i 0#8 := by
  match f, hf with
  | [f0, f1, f2, f3, f4, f5, f6], _ =>
    exact ⟨_, rfl, fun i hi => extractLsb'_seven_bytes f0 f1 f2 f3 f4 f5 f6 hi⟩

/-- The first seven bytes of a hash as a key. -/
theorem exists_key_of_hostHash (d : List Byte) :
    ((hostHash d).take 7).length = 7 ∧ ∃ k, keyOfFragment ((hostHash d).take 7) = some k ∧
      ∀ i, i < 7 → k.extractLsb' (8 * (6 - i)) 8 = (hostHash d).getD i 0#8 := by
  have hlen : ((hostHash d).take 7).length = 7 := by
    rw [List.length_take, length_hostHash, hashSize]
    omega
  obtain ⟨k, hk, hbytes⟩ := exists_keyOfFragment hlen
  refine ⟨hlen, k, hk, fun i hi => ?_⟩
  rw [hbytes i hi, List.getD_eq_getElem?_getD, List.getElem?_take_of_lt hi, ← List.getD_eq_getElem?_getD]

/-- A key file put together from three fragments, loaded either way, gives the three keys (48 R241). -/
theorem hostLoadKeys_three_fragments {fa fb fc : List Byte} {ka kb kc : Key} (hla : fa.length = 7) (hlb : fb.length = 7)
    (hlc : fc.length = 7) (ha : keyOfFragment fa = some ka) (hb : keyOfFragment fb = some kb)
    (hc : keyOfFragment fc = some kc) (way : KeyLoading) {s : State} (he : s.eng = .idle) :
    ∃ t, hostLoadKeys [.whole] way (fa ++ fb ++ fc) s = .ok t ∧ t.eng = .idle ∧
      t.slotA = { key := ka, hw := true, lw := true } ∧ t.slotB = { key := kb, hw := true, lw := true } ∧
      t.slotC = { key := kc, hw := true, lw := true } := by
  have hroom := bufBytes_admitted
  have hlen : (fa ++ fb ++ fc).length = 21 := by simp [hla, hlb, hlc]
  refine hostLoadKeys_whole way he (by omega) (by omega) ?_ ?_ ?_
  · rwa [List.append_assoc, List.take_left' hla]
  · rwa [List.append_assoc, List.drop_left' hla, List.take_left' hlb]
  · rwa [List.drop_left' (by simp [hla, hlb]), List.take_of_length_le hlc.le]

/-- Settles O55: the three fragments are the heads of three digests, and each has a key. -/
theorem keyDerivationGivesATwentyOneByteFile : Obligations.KeyDerivationGivesATwentyOneByteFile := by
  unfold Obligations.KeyDerivationGivesATwentyOneByteFile
  intro pw
  generalize hm₁ : mixPassword (hostHash pw) pw = m₁
  generalize hm₂ : mixPassword (hostHash m₁) pw = m₂
  obtain ⟨hla, ka, ha, hka⟩ := exists_key_of_hostHash pw
  obtain ⟨hlb, kb, hb, hkb⟩ := exists_key_of_hostHash m₁
  obtain ⟨hlc, kc, hc, hkc⟩ := exists_key_of_hostHash m₂
  have hfile : keyDerivation pw = (hostHash pw).take 7 ++ (hostHash m₁).take 7 ++ (hostHash m₂).take 7 := by
    rw [← hm₂, ← hm₁]
    rfl
  refine ⟨m₁, m₂, ka, kb, kc, hm₁ ▸ mixPassword_hostHash pw pw, hm₂ ▸ mixPassword_hostHash m₁ pw, hfile, ?_, fun hpw => ?_,
    fun i hi => ⟨hka i hi, hkb i hi, hkc i hi⟩, fun way s he => ?_⟩
  · rw [hfile, List.length_append, List.length_append, hla, hlb, hlc]
  · rw [← hm₂, ← hm₁, hpw, mixPassword_nil, mixPassword_nil]
    exact ⟨rfl, rfl⟩
  · rw [hostLoadPassword, hfile]
    exact hostLoadKeys_three_fragments hla hlb hlc ha hb hc way he

end Sys2Proof.Machine
end

section
/-! PROOFS. A stream split on a block boundary (spec 48 R242, R243): the ciphertext of a string is that of its whole blocks and that
of the rest. The core's commands make it of the bytes that BUF holds, and the host's flows of the chunks of a file. -/

namespace Sys2Proof.Machine

/-! ### The ciphertext of a byte string (45 R200, R203) -/

theorem length_paddedBytes (bytes : List Byte) : (paddedBytes bytes).length = bytes.length + padCount bytes.length := by
  rw [paddedBytes, List.length_append, List.length_replicate]

theorem length_paddedBytes_mod (bytes : List Byte) : (paddedBytes bytes).length % 8 = 0 := by
  rw [length_paddedBytes]
  exact (padCount_range bytes.length).2.2

theorem padCount_add {n : Nat} (h : n % 8 = 0) (m : Nat) : padCount (n + m) = padCount m := by
  unfold padCount
  omega

/-- Whole blocks in front of a string leave its padding as it is. -/
theorem paddedBytes_append {l : List Byte} (h : l.length % 8 = 0) (bytes : List Byte) :
    paddedBytes (l ++ bytes) = l ++ paddedBytes bytes := by
  rw [paddedBytes, paddedBytes, List.length_append, padCount_add h, List.append_assoc]

section
variable (ka kb kc : Key)

theorem length_streamCipher (bytes : List Byte) :
    (streamCipher ka kb kc bytes).length = bytes.length + padCount bytes.length := by
  rw [streamCipher, length_mapBlocks _ (length_paddedBytes_mod bytes), length_paddedBytes]

theorem streamCipher_append {l : List Byte} (h : l.length % 8 = 0) (bytes : List Byte) :
    streamCipher ka kb kc (l ++ bytes) = mapBlocks (ede3Encrypt ka kb kc) l ++ streamCipher ka kb kc bytes := by
  rw [streamCipher, paddedBytes_append h, mapBlocks_append _ h, streamCipher]

theorem mapBlocks_ede3Decrypt_ede3Encrypt {l : List Byte} (h : l.length % 8 = 0) :
    mapBlocks (ede3Decrypt ka kb kc) (mapBlocks (ede3Encrypt ka kb kc) l) = l :=
  mapBlocks_inverse (ede3Decrypt_ede3Encrypt ka kb kc) h

theorem mapBlocks_ede3Decrypt_streamCipher (bytes : List Byte) :
    mapBlocks (ede3Decrypt ka kb kc) (streamCipher ka kb kc bytes) = paddedBytes bytes :=
  mapBlocks_ede3Decrypt_ede3Encrypt ka kb kc (length_paddedBytes_mod bytes)

/-- The pad bytes stand in the last block, so whole blocks before it are the ciphertext of whole blocks of the string. -/
theorem split_of_streamCipher {c rest plain : List Byte} (hc : c.length % 8 = 0) (hrest : rest ≠ [])
    (h : c ++ rest = streamCipher ka kb kc plain) :
    ∃ front back, plain = front ++ back ∧ front.length % 8 = 0 ∧ c = mapBlocks (ede3Encrypt ka kb kc) front ∧
      rest = streamCipher ka kb kc back := by
  have hlen := congrArg List.length h
  have hpos : 0 < rest.length := List.length_pos_iff.2 hrest
  obtain ⟨-, hle, hmod⟩ := padCount_range plain.length
  rw [List.length_append, length_streamCipher] at hlen
  have hfront : (plain.take c.length).length = c.length := List.length_take_of_le (by omega)
  have hwhole : (plain.take c.length).length % 8 = 0 := hfront.symm ▸ hc
  rw [← List.take_append_drop c.length plain, streamCipher_append ka kb kc hwhole] at h
  obtain ⟨hfst, hsnd⟩ := List.append_inj h (by rw [length_mapBlocks _ hwhole, hfront])
  exact ⟨_, _, (List.take_append_drop c.length plain).symm, hwhole, hfst, hsnd⟩

end

/-! ### The commands over the bytes that BUF holds (44 R184, 45 R203) -/

/-- BUF[0 .. LENGTH-1]. -/
def State.contents (s : State) : List Byte := (List.range s.len).map s.readByte

@[simp] theorem State.length_contents (s : State) : s.contents.length = s.len := by
  rw [State.contents, List.length_map, List.length_range]

@[simp] theorem State.contents_complete (s : State) (c : ErrCode) : (s.complete c).contents = s.contents := rfl

/-- The bytes of a state are those of two others, one after the other. -/
theorem State.contents_eq_append_iff {s s₁ s₂ : State} :
    s.contents = s₁.contents ++ s₂.contents ↔ s.len = s₁.len + s₂.len ∧
      (∀ a, a < s₁.len → s.readByte a = s₁.readByte a) ∧ ∀ a, a < s₂.len → s.readByte (s₁.len + a) = s₂.readByte a := by
  have hsplit (hlen : s.len = s₁.len + s₂.len) : s.contents =
      (List.range s₁.len).map s.readByte ++ (List.range s₂.len).map fun a => s.readByte (s₁.len + a) := by
    rw [State.contents, hlen, List.range_add, List.map_append, List.map_map]
    rfl
  constructor
  · intro h
    have hlen : s.len = s₁.len + s₂.len := by simpa using congrArg List.length h
    rw [hsplit hlen] at h
    obtain ⟨h₁, h₂⟩ := List.append_inj h (by simp)
    exact ⟨hlen, fun a ha => List.map_inj_left.1 h₁ a (List.mem_range.2 ha),
      fun a ha => List.map_inj_left.1 h₂ a (List.mem_range.2 ha)⟩
  · rintro ⟨hlen, h₁, h₂⟩
    rw [hsplit hlen, State.contents, State.contents]
    exact congrArg₂ _ (List.map_congr_left fun a ha => h₁ a (List.mem_range.1 ha))
      (List.map_congr_left fun a ha => h₂ a (List.mem_range.1 ha))

theorem State.contents_threePasses {s : State} (h8 : s.len % 8 = 0) (plan : PassNo → Dir × Slot) :
    (s.threePasses plan).contents = mapBlocks (s.planBlock plan) s.contents := by
  have hlen : s.len = 8 * s.blocks := by rw [State.blocks]; omega
  rw [State.contents, State.contents, State.len_threePasses, hlen]
  exact (mapBlocks_range fun j hj => s.readBlock_threePasses_of_lt plan hj).symm

theorem State.contents_addPadding {s : State} (hroom : s.noRoom = false) : s.addPadding.contents = paddedBytes s.contents := by
  rw [State.contents, s.len_addPadding hroom, List.range_add, List.map_append, List.map_map, paddedBytes,
    State.length_contents, State.contents]
  refine congrArg₂ _ (List.map_congr_left fun a ha => ?_) (List.eq_replicate_iff.2 ⟨by simp, fun b hb => ?_⟩)
  · have hlt := List.mem_range.1 ha
    exact s.readByte_addPadding_outside (by omega)
  · obtain ⟨a, ha, rfl⟩ := List.mem_map.1 hb
    have hlt := List.mem_range.1 ha
    rw [Function.comp, State.readByte_addPadding, if_pos (by omega)]

theorem State.contents_body_bufEde3Enc {s : State} (h8 : s.len % 8 = 0) :
    (s.body .bufEde3Enc).contents = mapBlocks (s.planBlock encPass) s.contents := by
  rw [State.body, State.contents_complete, State.contents_threePasses h8]

theorem State.contents_body_streamEnc {s : State} (hroom : s.noRoom = false) :
    (s.body .streamEnc).contents = mapBlocks (s.planBlock encPass) (paddedBytes s.contents) := by
  have h8 : s.addPadding.len % 8 = 0 := by rw [s.len_addPadding hroom]; exact (padCount_range s.len).2.2
  rw [State.body, State.contents_complete, State.contents_threePasses h8, State.planBlock_congr s.slot_addPadding,
    State.contents_addPadding hroom]

theorem State.checks_of_streamEnc {s : State} (h : firstError (s.checks .streamEnc) = none) :
    s.len + padCount s.len ≤ bufBytes ∧ s.allKv = true := by
  have hall := firstError_eq_none.1 h
  have hroom := hall (s.noRoom, .lengthErr) (by simp [State.checks, State.streamEncChecks])
  have hkeys := hall (!s.allKv, .keyErr) (by simp [State.checks, State.streamEncChecks])
  exact ⟨by simpa [State.noRoom] using hroom, by simpa using hkeys⟩

/-- BUF_EDE3_ENC of the first whole blocks and STREAM_ENC of the rest are STREAM_ENC of the whole (48 R243). -/
theorem contents_streamEnc_split {s s₁ s₂ t t₁ t₂ : State} (hs₁ : ∀ k, s₁.slot k = s.slot k) (hs₂ : ∀ k, s₂.slot k = s.slot k)
    (h8 : s₁.len % 8 = 0) (hs : s.contents = s₁.contents ++ s₂.contents) (ht : exec .streamEnc s = .next t)
    (hok : t.errCode = .ok) (ht₁ : exec .bufEde3Enc s₁ = .next t₁) (ht₂ : exec .streamEnc s₂ = .next t₂) :
    t₁.errCode = .ok ∧ t₂.errCode = .ok ∧ t₁.len = s₁.len ∧ t.contents = t₁.contents ++ t₂.contents := by
  obtain ⟨hpass, rfl⟩ := exec_ok ht hok
  obtain ⟨hfit, hall⟩ := State.checks_of_streamEnc hpass
  obtain ⟨hlen, -, -⟩ := State.contents_eq_append_iff.1 hs
  have hroom : s.noRoom = false := State.noRoom_eq_false hfit
  rw [hlen, padCount_add h8] at hfit
  have hfit₂ : s₂.len + padCount s₂.len ≤ bufBytes := by omega
  rw [exec_of_pass (i := .bufEde3Enc)
    (firstError_bufChecks_valid (by omega) h8 ((State.allKv_congr hs₁).trans hall))] at ht₁
  rw [exec_of_pass (firstError_of_part_valid s₂.checks_streamEnc (firstError_pad_room hfit₂)
    ((State.allKv_congr hs₂).trans hall))] at ht₂
  cases ht₁
  cases ht₂
  refine ⟨rfl, rfl, s₁.len_threePasses encPass, ?_⟩
  have h8' : s₁.contents.length % 8 = 0 := by rwa [State.length_contents]
  rw [State.contents_body_streamEnc hroom, State.contents_body_bufEde3Enc h8,
    State.contents_body_streamEnc (State.noRoom_eq_false hfit₂), hs, paddedBytes_append h8', mapBlocks_append _ h8',
    State.planBlock_congr hs₁, State.planBlock_congr hs₂]

/-! ### The flows over chunks (48 R243) -/

/-- The core is Idle and its slots hold these three keys, all valid. -/
structure State.HoldsKeys (s : State) (ka kb kc : Key) : Prop where
  idle : s.eng = .idle
  slotA : s.slotA = { key := ka, hw := true, lw := true }
  slotB : s.slotB = { key := kb, hw := true, lw := true }
  slotC : s.slotC = { key := kc, hw := true, lw := true }

theorem KeySlot.eq_of_valid {v : KeySlot} (h : v.valid = true) : v = { key := v.key, hw := true, lw := true } := by
  obtain ⟨key, hw, lw⟩ := v
  simpa [KeySlot.valid] using h

theorem State.holdsKeys_of_kv {s : State} (he : s.eng = .idle) (hk : ∀ k, s.kv k = true) :
    s.HoldsKeys s.slotA.key s.slotB.key s.slotC.key :=
  ⟨he, KeySlot.eq_of_valid (hk .a), KeySlot.eq_of_valid (hk .b), KeySlot.eq_of_valid (hk .c)⟩

section
variable {s : State} {ka kb kc : Key} (h : s.HoldsKeys ka kb kc)
include h

theorem State.HoldsKeys.kv (k : Slot) : s.kv k = true := by
  cases k <;> simp [State.kv, KeySlot.valid, h.slotA, h.slotB, h.slotC]

theorem State.HoldsKeys.key : s.key .a = ka ∧ s.key .b = kb ∧ s.key .c = kc := by
  simp [State.key, h.slotA, h.slotB, h.slotC]

/-- A flow whose result is a function of the keys, and which leaves the slots and an Idle core, keeps the keys. -/
theorem State.HoldsKeys.of_flow {flow : Flow (List Byte)} {f : Key → Key → Key → List Byte}
    (hflow : ∃ t, flow = .ok (f (s.key .a) (s.key .b) (s.key .c), t) ∧ t.eng = .idle ∧ ∀ k, t.slot k = s.slot k) :
    ∃ t, flow = .ok (f ka kb kc, t) ∧ t.HoldsKeys ka kb kc := by
  obtain ⟨t, hflow, he, hs⟩ := hflow
  obtain ⟨ha, hb, hc⟩ := h.key
  exact ⟨t, by rw [hflow, ha, hb, hc], he, (hs .a).trans h.slotA, (hs .b).trans h.slotB, (hs .c).trans h.slotC⟩

theorem State.HoldsKeys.bufEde3Enc {bytes : List Byte} (h8 : bytes.length % 8 = 0) (hn : bytes.length ≤ bufBytes) :
    ∃ t, hostOverBuffer [.whole] .bufEde3Enc bytes s = .ok (mapBlocks (ede3Encrypt ka kb kc) bytes, t) ∧
      t.HoldsKeys ka kb kc :=
  h.of_flow (f := fun ka kb kc => mapBlocks (ede3Encrypt ka kb kc) bytes) (hostOverBuffer_bufEde3Enc h.idle h.kv h8 hn)

theorem State.HoldsKeys.bufEde3Dec {bytes : List Byte} (h8 : bytes.length % 8 = 0) (hn : bytes.length ≤ bufBytes) :
    ∃ t, hostOverBuffer [.whole] .bufEde3Dec bytes s = .ok (mapBlocks (ede3Decrypt ka kb kc) bytes, t) ∧
      t.HoldsKeys ka kb kc :=
  h.of_flow (f := fun ka kb kc => mapBlocks (ede3Decrypt ka kb kc) bytes) (hostOverBuffer_bufEde3Dec h.idle h.kv h8 hn)

theorem State.HoldsKeys.streamEnc {bytes : List Byte} (hn : bytes.length + padCount bytes.length ≤ bufBytes) :
    ∃ t, hostOverBuffer [.whole] .streamEnc bytes s = .ok (streamCipher ka kb kc bytes, t) ∧ t.HoldsKeys ka kb kc :=
  h.of_flow (f := fun ka kb kc => streamCipher ka kb kc bytes) (hostOverBuffer_streamEnc h.idle h.kv hn)

theorem State.HoldsKeys.streamDec {plain : List Byte} (hn : plain.length + padCount plain.length ≤ bufBytes) :
    ∃ t, hostOverBuffer [.whole] .streamDec (streamCipher ka kb kc plain) s = .ok (plain, t) ∧ t.HoldsKeys ka kb kc := by
  obtain ⟨ha, hb, hc⟩ := h.key
  have hlen := length_streamCipher ka kb kc plain
  have hmod : (streamCipher ka kb kc plain).length % 8 = 0 := hlen ▸ (padCount_range plain.length).2.2
  refine h.of_flow (f := fun _ _ _ => plain) (hostOverBuffer_streamDec h.idle h.kv (hlen.trans_le hn) hmod ?_)
  rw [ha, hb, hc, mapBlocks_ede3Decrypt_streamCipher]

end

section
variable {turns : List Turn} {chunk : List Byte} {rest : List (List Byte)} (hrest : rest ≠ []) (h8 : chunk.length % 8 = 0)
include hrest h8

/-- A chunk before the last one of an encryption. -/
theorem hostEncryptChunks_cons (s : State) : hostEncryptChunks turns (chunk :: rest) s =
    (hostOverBuffer turns .bufEde3Enc chunk s).bind fun r =>
      (hostEncryptChunks turns rest r.2).bind fun q => .ok (r.1 ++ q.1, q.2) := by
  cases rest with
  | nil => exact absurd rfl hrest
  | cons next rest => rw [hostEncryptChunks, if_pos h8]

/-- A chunk before the last one of a decryption. -/
theorem hostDecryptChunks_cons (s : State) : hostDecryptChunks turns (chunk :: rest) s =
    (hostOverBuffer turns .bufEde3Dec chunk s).bind fun r =>
      (hostDecryptChunks turns rest r.2).bind fun q => .ok (r.1 ++ q.1, q.2) := by
  cases rest with
  | nil => exact absurd rfl hrest
  | cons next rest => rw [hostDecryptChunks, if_pos h8]

end

section
variable {s : State} {ka kb kc : Key} {chunks : List (List Byte)} {last : List Byte}

/-- Encryption in chunks gives the ciphertext of the whole string. -/
theorem State.HoldsKeys.encryptChunks (h : s.HoldsKeys ka kb kc) (hch : ∀ c ∈ chunks, c.length % 8 = 0 ∧ c.length ≤ bufBytes)
    (hlast : last.length + padCount last.length ≤ bufBytes) :
    ∃ t, hostEncryptChunks [.whole] (chunks ++ [last]) s = .ok (streamCipher ka kb kc (chunks.flatten ++ last), t) ∧
      t.HoldsKeys ka kb kc := by
  induction chunks generalizing s with
  | nil => exact h.streamEnc hlast
  | cons c cs ih =>
    obtain ⟨⟨h8, hfit⟩, hcs⟩ := List.forall_mem_cons.1 hch
    obtain ⟨r, hr, hkeys⟩ := h.bufEde3Enc h8 hfit
    obtain ⟨t, ht, hkeys⟩ := ih hkeys hcs
    refine ⟨t, ?_, hkeys⟩
    rw [List.cons_append, hostEncryptChunks_cons (by simp) h8, hr, List.flatten_cons, List.append_assoc,
      streamCipher_append ka kb kc h8]
    simp only [Except.bind, ht]

/-- Decryption in chunks gives the string back. -/
theorem State.HoldsKeys.decryptChunks {plain : List Byte} (h : s.HoldsKeys ka kb kc)
    (hch : ∀ c ∈ chunks, c.length % 8 = 0 ∧ c.length ≤ bufBytes) (hlast : last.length ≤ bufBytes) (hne : last ≠ [])
    (hcipher : chunks.flatten ++ last = streamCipher ka kb kc plain) :
    ∃ t, hostDecryptChunks [.whole] (chunks ++ [last]) s = .ok (plain, t) := by
  induction chunks generalizing s plain with
  | nil =>
    obtain rfl : last = streamCipher ka kb kc plain := hcipher
    have hlen := length_streamCipher ka kb kc plain
    obtain ⟨hpos, -, hmod⟩ := padCount_range plain.length
    obtain ⟨t, ht, -⟩ := h.streamDec (hlen ▸ hlast)
    exact ⟨t, by rw [List.nil_append, hostDecryptChunks, if_pos (by omega), ht]⟩
  | cons c cs ih =>
    obtain ⟨⟨h8, hfit⟩, hcs⟩ := List.forall_mem_cons.1 hch
    rw [List.flatten_cons, List.append_assoc] at hcipher
    obtain ⟨front, back, rfl, hfront, rfl, hback⟩ := split_of_streamCipher ka kb kc h8 (by simp [hne]) hcipher
    obtain ⟨r, hr, hkeys⟩ := h.bufEde3Dec h8 hfit
    obtain ⟨t, ht⟩ := ih hkeys hcs hback
    refine ⟨t, ?_⟩
    rw [List.cons_append, hostDecryptChunks_cons (by simp) h8, hr, mapBlocks_ede3Decrypt_ede3Encrypt ka kb kc hfront]
    simp only [Except.bind, ht]

end

/-! ### The files (48 R242, R243) -/

theorem roomFor_of_ne {i : Instr} (hi : i ≠ .streamEnc) (n : Nat) : roomFor i n = n := if_neg hi

/-- A file that fits is cut into one chunk. -/
theorem cutFile_of_fits {i : Instr} {bytes : List Byte} (h : roomFor i bytes.length ≤ bufBytes) (fuel : Nat) :
    cutFile i fuel bytes = [bytes] := by
  cases fuel with
  | zero => rfl
  | succ fuel => rw [cutFile, if_pos h]

/-- The chunks of a file are a split that 48 R243 allows. -/
theorem cutFile_chunks (i : Instr) (bytes : List Byte) :
    ∃ chunks last, cutFile i bytes.length bytes = chunks ++ [last] ∧ chunks.flatten ++ last = bytes ∧
      (∀ c ∈ chunks, c.length % 8 = 0 ∧ c.length ≤ bufBytes) ∧ roomFor i last.length ≤ bufBytes ∧
      (i ≠ .streamEnc → bytes ≠ [] → last ≠ []) := by
  obtain ⟨hmod, -, -⟩ := bufBytes_admitted
  obtain ⟨chunks, last, hcut, hjoin, hlen, hlast⟩ := cutFile_split i bytes.length bytes le_rfl
  exact ⟨chunks, last, hcut, hjoin, fun c hc => (hlen c hc).symm ▸ ⟨hmod, le_rfl⟩, hlast⟩

section
variable {way : KeyLoading} {file plain : List Byte} {s t : State} {ka kb kc : Key}
  (hload : hostLoadKeys [.whole] way file s = .ok t) (h : t.HoldsKeys ka kb kc)
include hload h

/-- Whether the file fits or not, encryptFile is the flow over its chunks. -/
theorem State.HoldsKeys.encryptFile :
    ∃ u, hostEncryptFile [.whole] way file plain s = .ok (streamCipher ka kb kc plain, u) ∧ u.HoldsKeys ka kb kc := by
  have hflow : hostEncryptFile [.whole] way file plain s =
      hostEncryptChunks [.whole] (cutFile .streamEnc plain.length plain) t := by
    rw [hostEncryptFile, hload]
    simp only [Except.bind]
    split
    · next hfits => rw [cutFile_of_fits hfits, hostEncryptChunks]
    · rfl
  obtain ⟨chunks, last, hcut, hjoin, hch, hroom, -⟩ := cutFile_chunks .streamEnc plain
  rw [hflow, hcut, ← hjoin]
  exact h.encryptChunks hch hroom

/-- Whether the file fits or not, decryptFile is the flow over its chunks. -/
theorem State.HoldsKeys.decryptFile :
    ∃ u, hostDecryptFile [.whole] way file (streamCipher ka kb kc plain) s = .ok (plain, u) := by
  have hlen := length_streamCipher ka kb kc plain
  obtain ⟨hpos, -, hmod⟩ := padCount_range plain.length
  generalize hcipher : streamCipher ka kb kc plain = cipher at hlen ⊢
  have hflow : hostDecryptFile [.whole] way file cipher s =
      hostDecryptChunks [.whole] (cutFile .streamDec cipher.length cipher) t := by
    rw [hostDecryptFile, hload]
    simp only [Except.bind]
    split
    · next hfits => rw [cutFile_of_fits hfits, hostDecryptChunks, if_pos (by omega)]
    · rfl
  obtain ⟨chunks, last, hcut, hjoin, hch, hroom, hne⟩ := cutFile_chunks .streamDec cipher
  rw [roomFor_of_ne (by decide)] at hroom
  rw [hflow, hcut]
  exact h.decryptChunks hch hroom (hne (by decide) (List.ne_nil_of_length_pos (by omega))) (hjoin.trans hcipher.symm)

end

/-- Settles O54: the split of the ciphertext, on the core and along the chunks of a flow; the file flows are flows over chunks. -/
theorem streamEncSplitsOnABlockBoundary : Obligations.StreamEncSplitsOnABlockBoundary := by
  unfold Obligations.StreamEncSplitsOnABlockBoundary
  refine ⟨fun s s₁ s₂ t t₁ t₂ m hslots hl₁ hl h₁ h₂ ht hok ht₁ ht₂ => ?_, fun s chunks last he hk hch => ⟨fun hlast => ?_, ?_⟩,
    fun s way pw plain he => ?_⟩
  · rw [← hl₁] at hl h₁ h₂ ⊢
    have hsplit := State.contents_eq_append_iff.2 ⟨hl, fun a ha => (h₁ a ha).symm, fun a ha => (h₂ a ha).symm⟩
    obtain ⟨hok₁, hok₂, hlen₁, hjoin⟩ := contents_streamEnc_split (fun k => (hslots k).1) (fun k => (hslots k).2) (by omega)
      hsplit ht hok ht₁ ht₂
    exact ⟨hok₁, hok₂, hlen₁ ▸ State.contents_eq_append_iff.1 hjoin⟩
  · obtain ⟨t, ht, -⟩ := (State.holdsKeys_of_kv he hk).encryptChunks hch hlast
    exact ⟨t, ht⟩
  · exact fun hlast hne plain hcipher => (State.holdsKeys_of_kv he hk).decryptChunks hch hlast hne hcipher
  · obtain ⟨-, -, ka, kb, kc, -, -, -, -, -, -, hload⟩ := keyDerivationGivesATwentyOneByteFile pw
    obtain ⟨t₀, hload₀, hidle₀, ha₀, hb₀, hc₀⟩ := hload way s he
    obtain ⟨t, ht, hkeys⟩ := State.HoldsKeys.encryptFile (plain := plain) hload₀ ⟨hidle₀, ha₀, hb₀, hc₀⟩
    obtain ⟨u₀, hload₁, hidle₁, ha₁, hb₁, hc₁⟩ := hload way t hkeys.idle
    obtain ⟨u, hu⟩ := State.HoldsKeys.decryptFile (plain := plain) hload₁ ⟨hidle₁, ha₁, hb₁, hc₁⟩
    exact ⟨_, t, u, ht, by rw [hkeys.slotA, hkeys.slotB, hkeys.slotC], hu⟩

end Sys2Proof.Machine
end

section
/-! PROOFS. The step and its events (spec 45 R211; 60 R301, R304; 70 R340 to R342): the engine's turn on an accepted command,
acceptance, completion, and what a reset leaves. -/

namespace Sys2Proof.Machine

/-! ### One event of the list (log entry 4) -/

section
variable {s : State} {rest : List Input}

theorem step_of_nil (h : s.inputs = []) : step s = engineTurn s := by
  rw [step, h]

theorem step_of_run (h : s.inputs = .run :: rest) : step s = engineTurn (s.setInputs rest) := by
  rw [step, h]

theorem step_of_reset (h : s.inputs = .reset :: rest) : step s = .next (s.setInputs rest).takeReset := by
  rw [step, h]

end

/-- Placing a word of 32 bits is its acceptance, with no event left (log entry 7). -/
theorem State.withFetchWord_toNat (s : State) (w : Word) : s.withFetchWord 32 w.toNat = (s.setInputs []).accept w := by
  rw [State.withFetchWord, Nat.mod_eq_of_lt w.isLt, BitVec.ofNat_toNat, BitVec.setWidth_eq]

/-- Settles O5: a command in its Check phase runs as a whole on the engine's turn, and a placed word is such a command. -/
theorem stepRunsTheDecodedInstruction : Obligations.StepRunsTheDecodedInstruction := by
  unfold Obligations.StepRunsTheDecodedInstruction
  refine ⟨fun s i he => ⟨fun hin => ?_, fun rest hin => ?_⟩, fun s w i hw => ?_⟩
  · rw [step_of_nil hin, engineTurn_of_check he]
  · exact (step_of_run hin).trans (engineTurn_of_check he)
  · have hplaced : s.withFetchWord 32 w.toNat =
        { s with inputs := [], eng := .run (.op i) .check, done := false, errCode := .ok } := by
      rw [State.withFetchWord_toNat, ← decodeCommand_of_decode_ok hw]
      rfl
    rw [hplaced]
    exact (step_of_nil rfl).trans (engineTurn_of_check rfl)

/-! ### Acceptance and completion (60 R301, R304) -/

/-- Settles O6: a write to CMD is accepted while Idle, also of an illegal word, and dropped while BUSY. -/
theorem acceptanceStartsTheCommand : Obligations.AcceptanceStartsTheCommand := by
  unfold Obligations.AcceptanceStartsTheCommand
  refine fun s w => ⟨fun he => ?_, fun hb => ?_⟩
  · rw [State.access_wr_cmd he]
    refine ⟨rfl, State.busy_of_run rfl, fun hill => ?_⟩
    have heng : ((s.accept w).respond (.write false)).eng = .run .illegal .check := congrArg (Engine.run · .check) hill
    exact ⟨_, engineTurn_of_illegal heng, rfl, rfl⟩
  · rw [s.access_wr_dropped rfl hb rfl]
    rfl

theorem phaseStep_of_complete {s : State} {i : Instr} {code : ErrCode} (h : s.eng = .run (.op i) (.complete code))
    (pick : Nat) : phaseStep pick s = .next (s.complete code) := by
  rw [phaseStep, h]

/-- Settles O7: the step is `State.complete`, after which the engine is Idle. -/
theorem completeRecordsTheCodeAndEndsTheCommand : Obligations.CompleteRecordsTheCodeAndEndsTheCommand := by
  unfold Obligations.CompleteRecordsTheCodeAndEndsTheCommand
  intro s i code pick he
  have hstep := phaseStep_of_complete he pick
  refine ⟨hstep, fun t ht => ?_⟩
  rw [hstep] at ht
  cases ht
  rfl

/-! ### Reset (70 R340 to R342) -/

theorem State.registersAtReset_reset : registersAtReset State.reset :=
  ⟨rfl, rfl, rfl, rfl, rfl, rfl, rfl, rfl, fun k => by cases k <;> rfl, rfl, rfl, rfl, rfl⟩

theorem State.registersAtReset_takeReset (s : State) : registersAtReset s.takeReset :=
  ⟨rfl, rfl, rfl, rfl, rfl, rfl, rfl, rfl, fun k => by cases k <;> rfl, rfl, rfl, rfl, rfl⟩

/-- Settles O8: `State.takeReset` leaves nothing of the command. -/
theorem resetAbortsTheRunningCommand : Obligations.ResetAbortsTheRunningCommand := by
  unfold Obligations.ResetAbortsTheRunningCommand
  exact fun s rest _ hin => ⟨_, step_of_reset hin, State.registersAtReset_takeReset _, rfl, rfl, rfl⟩

/-- Settles O11: the engine is Idle and no byte of BUF is defined. -/
theorem invariantHoldsAtReset : Obligations.InvariantHoldsAtReset :=
  inv_of_idle Memory.wf_nil rfl

/-- The schedule of the zero key is zero (41 R125). -/
theorem keySchedule_zero : keySchedule 0#56 = List.replicate 16 0#48 := by
  obtain ⟨hzero, -⟩ := scheduleCornerCases
  exact hzero

section
variable {s : State} (h : registersAtReset s)
include h

/-- But for the port's response and the model's own fields it is the state after power-on. -/
theorem eq_reset_of_registersAtReset :
    s = { State.reset with resp := s.resp, inputs := s.inputs, resets := s.resets, draws := s.draws } := by
  obtain ⟨hdone, hwerr, hcode, hdoneIe, hwerrIe, hlen, hround, hsel, hslot, hdin, hdout, heng, hbuf⟩ := h
  have ha : s.slotA = KeySlot.reset := hslot .a
  have hb : s.slotB = KeySlot.reset := hslot .b
  have hc : s.slotC = KeySlot.reset := hslot .c
  cases s
  simp_all [State.reset]

theorem selectedSubkey_of_registersAtReset : s.selectedSubkey = 0#48 := by
  rw [eq_reset_of_registersAtReset h]
  exact congrArg (List.getD · 0 0#48) keySchedule_zero

theorem irq_of_registersAtReset : s.irq = false := by
  rw [eq_reset_of_registersAtReset h]
  rfl

/-- Every register holds its value of the table (70 R340). -/
theorem regValue_of_registersAtReset : ∀ r ∈ resetReads, misaligned r.1 = false ∧ s.regValue (regAt r.1) = r.2 := by
  have hsub := selectedSubkey_of_registersAtReset h
  have hhi : s.regValue .skHi = 0#32 := by rw [State.regValue, hsub]; rfl
  have hlo : s.regValue .skLo = 0#32 := by rw [State.regValue, hsub]; rfl
  have hstatus : State.reset.statusWord = 0#32 := by decide
  have hie : State.reset.ieWord = 0#32 := by decide
  have hsksel : State.reset.regValue .sksel = 0#32 := by decide
  have hkey : 0#8 ++ (0#56).extractLsb' 32 24 = 0#32 := by decide
  have hblock : (0#64).extractLsb' 32 32 = 0#32 := by decide
  rw [eq_reset_of_registersAtReset h] at hhi hlo ⊢
  simp only [resetReads, List.forall_mem_cons]
  exact ⟨⟨rfl, rfl⟩, ⟨rfl, rfl⟩, ⟨rfl, rfl⟩, ⟨rfl, hstatus⟩, ⟨rfl, hie⟩, ⟨rfl, rfl⟩, ⟨rfl, hsksel⟩, ⟨rfl, hhi⟩, ⟨rfl, hlo⟩,
    ⟨rfl, hkey⟩, ⟨rfl, rfl⟩, ⟨rfl, hkey⟩, ⟨rfl, rfl⟩, ⟨rfl, hkey⟩, ⟨rfl, rfl⟩, ⟨rfl, hblock⟩, ⟨rfl, rfl⟩, ⟨rfl, hblock⟩,
    ⟨rfl, rfl⟩, List.forall_mem_nil _⟩

end

/-- Settles O9: either reset leaves the registers at their values, and an Idle core answers them. -/
theorem afterResetEveryRegisterReadsItsTableValue : Obligations.AfterResetEveryRegisterReadsItsTableValue := by
  unfold Obligations.AfterResetEveryRegisterReadsItsTableValue
  intro s hs
  have hreset : registersAtReset s := by
    obtain rfl | ⟨u, rest, hin, hstep⟩ := hs
    · exact State.registersAtReset_reset
    · rw [step_of_reset hin] at hstep
      cases hstep
      exact State.registersAtReset_takeReset _
  refine ⟨hreset, irq_of_registersAtReset hreset, fun r hr => ?_⟩
  obtain ⟨hal, hval⟩ := regValue_of_registersAtReset hreset r hr
  have hidle : s.eng = .idle := by rw [eq_reset_of_registersAtReset hreset]; rfl
  exact State.resp_rd_defined hal (.inl (State.busy_of_idle hidle)) hval

end Sys2Proof.Machine
end

section
/-! PROOFS. The interrupt output (spec 60 R320) and half-written keys (70 R351, R352). -/

namespace Sys2Proof.Machine

/-! ### irq (60 R320) -/

/-- The bits of the IE word (10 R25). -/
theorem State.ieWord_bits (s : State) : s.ieWord.getLsbD 0 = s.doneIe ∧ s.ieWord.getLsbD 1 = s.werrIe := by
  simp only [State.ieWord, BitVec.getLsbD_append, bit]
  exact ⟨by simp, by simp⟩

theorem State.irq_of_flags_clear {s : State} (hd : s.done = false) (hw : s.werr = false) : s.irq = false := by
  rw [State.irq, hd, hw]
  rfl

theorem State.irq_of_enables_clear {s : State} (hd : s.doneIe = false) (hw : s.werrIe = false) : s.irq = false := by
  rw [State.irq, hd, hw, Bool.and_false, Bool.and_false]
  rfl

/-- Settles O26: the two words show the four bits of which irq is a function, and each of the writes clears a factor of both
products. -/
theorem interruptFollowsStatusAndEnable : Obligations.InterruptFollowsStatusAndEnable := by
  unfold Obligations.InterruptFollowsStatusAndEnable
  intro s
  refine ⟨⟨s.statusWord, s.ieWord, State.resp_rd_defined rfl (.inr rfl) rfl, State.resp_rd_defined rfl (.inr rfl) rfl, ?_⟩,
    ?_, ?_, fun w he hwerr => ?_⟩
  · obtain ⟨hdone, hwerr, -⟩ := s.statusWord_bits
    obtain ⟨hdoneIe, hwerrIe⟩ := s.ieWord_bits
    rw [hdone, hwerr, hdoneIe, hwerrIe, State.irq]
  · rw [s.access_wr_performed rfl (.inr rfl)]
    exact State.irq_of_flags_clear (Bool.and_false _) (Bool.and_false _)
  · rw [s.access_wr_performed rfl (.inr rfl)]
    exact State.irq_of_enables_clear rfl rfl
  · rw [State.access_wr_cmd he]
    exact State.irq_of_flags_clear rfl hwerr

/-! ### Half-written keys (70 R351, R352) -/

/-- A half that is written to a key counts as written, and the other half of the slot stays as it is (10 R28). -/
theorem State.kv_writeKey_same {s : State} {k : Slot} (h : s.kv k = true) (w : Word) :
    (s.writeKeyHi k w).kv k = true ∧ (s.writeKeyLo k w).kv k = true := by
  have hflags : (s.slot k).hw = true ∧ (s.slot k).lw = true := Bool.and_eq_true_iff.1 h
  simp [State.kv, State.writeKeyHi, State.writeKeyLo, KeySlot.valid, hflags]

theorem State.kv_respond (s : State) (r : BusResp) (k : Slot) : (s.respond r).kv k = s.kv k := by
  rw [State.kv, State.slot_respond, State.kv]

theorem State.key_respond (s : State) (r : BusResp) (k : Slot) : (s.respond r).key k = s.key k := by
  rw [State.key, State.slot_respond, State.key]

/-- DES_ENC on a valid slot with the key `key` and the plaintext `b`. -/
theorem exec_desEnc_with_key {s : State} {ksel : BitVec 2} {k : Slot} {key : Key} {b : Block} (hs : slotOf ksel = some k)
    (hv : s.kv k = true) (hk : s.key k = key) (hd : s.din = b) :
    ∃ t, exec (.desEnc ksel) s = .next t ∧ t.errCode = .ok ∧ t.dout = desEncrypt key b := by
  subst hk hd
  exact ⟨_, exec_desEnc_valid hs hv, rfl, rfl⟩

/-- Settles O28: either write keeps both written-flags set, so DES_ENC finds the slot valid with the key that it holds. -/
theorem halfAKeyWriteLeavesAMixedKeyInUse : Obligations.HalfAKeyWriteLeavesAMixedKeyInUse := by
  unfold Obligations.HalfAKeyWriteLeavesAMixedKeyInUse
  intro s w k ksel hi lo he hv hmem
  obtain ⟨hs, hhi, hlo, hahi, halo⟩ : slotOf ksel = some k ∧ regAt hi = .keyHi k ∧ regAt lo = .keyLo k ∧
      misaligned hi = false ∧ misaligned lo = false := by
    simp only [List.mem_cons, Prod.mk.injEq, List.not_mem_nil, or_false] at hmem
    obtain ⟨rfl, rfl, rfl, rfl⟩ | ⟨rfl, rfl, rfl, rfl⟩ | ⟨rfl, rfl, rfl, rfl⟩ := hmem <;>
      exact ⟨rfl, rfl, rfl, rfl, rfl⟩
  have hwhi : s.access (.wr hi w) = (s.writeKeyHi k w).respond (.write false) := by
    rw [State.access_wr_idle he hahi, hhi, State.writeReg]
  have hwlo : s.access (.wr lo w) = (s.writeKeyLo k w).respond (.write false) := by
    rw [State.access_wr_idle he halo, hlo, State.writeReg]
  obtain ⟨hkvhi, hkvlo⟩ := State.kv_writeKey_same hv w
  rw [← State.kv_respond _ (.write false)] at hkvhi hkvlo
  rw [hwhi, hwlo]
  exact ⟨hkvhi, hkvlo,
    exec_desEnc_with_key hs hkvhi ((State.key_respond _ _ k).trans (s.key_writeKeyHi_same k w)) (s.setSlot_din k _),
    exec_desEnc_with_key hs hkvlo ((State.key_respond _ _ k).trans (s.key_writeKeyLo_same k w)) (s.setSlot_din k _)⟩

end Sys2Proof.Machine
end

section
/-! PROOFS. Command errors (spec 60 R300 to R303, R310): every check list is ordered by the global ranking and names exactly the
causes of R300, so the first failing check is the highest cause; what an error leaves is its completion, or, for
INVALID_PADDING, the body up to the last byte. -/

namespace Sys2Proof.Machine

/-! ### The global ranking (60 R310) -/

/-- The place of a code in the global ranking, highest first; OK, which is no error, comes after all. -/
def ErrCode.rank : ErrCode → Nat
  | .illegalCmd => 0
  | .lengthErr => 1
  | .invalidInput => 2
  | .keyErr => 3
  | .invalidPadding => 4
  | .ok => 5

theorem ErrCode.forall_iff {P : ErrCode → Prop} :
    (∀ c, P c) ↔ P .illegalCmd ∧ P .keyErr ∧ P .invalidInput ∧ P .lengthErr ∧ P .invalidPadding ∧ P .ok :=
  ⟨fun h => ⟨h _, h _, h _, h _, h _, h _⟩, fun ⟨h₁, h₂, h₃, h₄, h₅, h₆⟩ c => by cases c <;> assumption⟩

theorem ErrCode.rank_injective : Function.Injective ErrCode.rank := by
  simp [Function.Injective, ErrCode.forall_iff, ErrCode.rank]

/-- The checks stand in the order of the global ranking. -/
def Ranked (checks : List (Bool × ErrCode)) : Prop := checks.Pairwise fun x y => x.2.rank ≤ y.2.rank

/-- The first failing check of a ranked list is the one whose code is the highest of all that fail. -/
theorem Ranked.firstError_eq_some_iff {checks : List (Bool × ErrCode)} (h : Ranked checks) (c : ErrCode) :
    firstError checks = some c ↔ (true, c) ∈ checks ∧ ∀ d, d.rank < c.rank → (true, d) ∉ checks := by
  induction checks with
  | nil => simp [firstError]
  | cons x xs ih =>
    obtain ⟨fails, code⟩ := x
    obtain ⟨hle, hxs⟩ := List.pairwise_cons.1 h
    cases fails with
    | false => simpa [firstError] using ih hxs
    | true =>
      simp only [firstError, if_true, Option.some.injEq, List.mem_cons, Prod.mk.injEq, true_and]
      constructor
      · rintro rfl
        refine ⟨.inl rfl, fun d hd => ?_⟩
        rintro (rfl | hmem)
        · exact Nat.lt_irrefl _ hd
        · exact Nat.not_lt.2 (hle _ hmem) hd
      · rintro ⟨rfl | hmem, hlow⟩
        · rfl
        · have hge : c.rank ≤ code.rank := Nat.not_lt.1 fun hlt => hlow code hlt (.inl rfl)
          exact ErrCode.rank_injective (Nat.le_antisymm (hle _ hmem) hge)

theorem State.checks_ranked (s : State) (i : Instr) : Ranked (s.checks i) := by
  cases i with
  | nop => exact List.Pairwise.nil
  | desEnc ksel | desDec ksel =>
    rw [State.checks, State.desChecks]
    cases slotOf ksel <;> exact List.pairwise_singleton _ _
  | ede3Enc | ede3Dec => exact List.pairwise_singleton _ _
  | bufEde3Enc | bufEde3Dec => simp [Ranked, State.checks, State.bufChecks, ErrCode.rank]
  | pad => simp [Ranked, State.checks, State.padChecks, ErrCode.rank]
  | unpad => simp [Ranked, State.checks, State.unpadChecks, ErrCode.rank]
  | streamEnc => simp [Ranked, State.checks, State.streamEncChecks, ErrCode.rank]
  | streamDec => simp [Ranked, State.checks, State.streamDecChecks, ErrCode.rank]
  | ldkeys => simp [Ranked, State.checks, State.ldkeysChecks, ErrCode.rank]

/-! ### The causes (60 R300) -/

theorem State.tooLong_iff (s : State) : s.tooLong = true ↔ bufBytes < s.len := decide_eq_true_iff

theorem State.noRoom_iff (s : State) : s.noRoom = true ↔ bufBytes < s.len + padCount s.len := decide_eq_true_iff

theorem State.unaligned_iff (s : State) : s.unaligned = true ↔ s.len % 8 ≠ 0 := decide_eq_true_iff

theorem State.emptyOrUnaligned_iff (s : State) : s.emptyOrUnaligned = true ↔ s.len = 0 ∨ s.len % 8 ≠ 0 := by
  rw [State.emptyOrUnaligned, Bool.or_eq_true, decide_eq_true_iff, State.unaligned_iff]

theorem State.shortKeyFile_iff (s : State) : s.shortKeyFile = true ↔ s.len < 21 := decide_eq_true_iff

theorem State.allKv_eq_false_iff (s : State) : s.allKv = false ↔ s.kv .a = false ∨ s.kv .b = false ∨ s.kv .c = false := by
  rw [State.allKv, Bool.and_eq_false_iff, Bool.and_eq_false_iff, or_assoc]

/-- The checks of a well-formed instruction that fail are the causes that hold. -/
theorem State.failing_check_iff_errorCause {i : Instr} (hw : i.WellFormed) (s : State) (c : ErrCode) :
    (true, c) ∈ s.checks i ↔ errorCause s i c := by
  cases i with
  | nop => cases c <;> simp [State.checks, errorCause, usesBuffer, slotsUsed]
  | desEnc ksel | desDec ksel =>
    obtain ⟨k, hk⟩ := Option.isSome_iff_exists.1 (slotOf_isSome (of_decide_eq_true hw))
    rw [State.checks, State.desChecks_of_slot hk]
    cases c <;> simp [errorCause, usesBuffer, slotsUsed, hk]
  | ede3Enc | ede3Dec =>
    cases c <;> simp [State.checks, State.ede3Checks, errorCause, usesBuffer, slotsUsed, State.allKv_eq_false_iff]
  | bufEde3Enc | bufEde3Dec =>
    cases c <;> simp [State.checks, State.bufChecks, errorCause, usesBuffer, slotsUsed, State.allKv_eq_false_iff,
      State.tooLong_iff, State.unaligned_iff]
  | pad =>
    cases c <;> simp [State.checks, State.padChecks, errorCause, usesBuffer, slotsUsed, State.tooLong_iff, State.noRoom_iff]
  | unpad =>
    cases c <;> simp [State.checks, State.unpadChecks, errorCause, usesBuffer, slotsUsed, State.tooLong_iff,
      State.emptyOrUnaligned_iff, or_comm]
  | streamEnc =>
    cases c <;> simp [State.checks, State.streamEncChecks, errorCause, usesBuffer, slotsUsed, State.allKv_eq_false_iff,
      State.tooLong_iff, State.noRoom_iff]
  | streamDec =>
    cases c <;> simp [State.checks, State.streamDecChecks, errorCause, usesBuffer, slotsUsed, State.allKv_eq_false_iff,
      State.tooLong_iff, State.emptyOrUnaligned_iff, or_comm]
  | ldkeys =>
    cases c <;> simp [State.checks, State.ldkeysChecks, errorCause, usesBuffer, slotsUsed, State.tooLong_iff,
      State.shortKeyFile_iff]

/-- The first check that fails is the highest cause that holds. -/
theorem State.firstError_checks_iff {i : Instr} (hw : i.WellFormed) (s : State) (c : ErrCode) :
    firstError (s.checks i) = some c ↔ errorCause s i c ∧ ∀ d, d.rank < c.rank → ¬ errorCause s i d := by
  simp only [(s.checks_ranked i).firstError_eq_some_iff, State.failing_check_iff_errorCause hw]

/-- No check before the passes raises INVALID_PADDING. -/
theorem State.checks_ne_invalidPadding (s : State) (i : Instr) : firstError (s.checks i) ≠ some .invalidPadding := by
  intro h
  by_cases hw : i.WellFormed
  · exact (s.failing_check_iff_errorCause hw .invalidPadding).1 (mem_of_firstError h)
  · cases i with
    | desEnc ksel | desDec ksel =>
      obtain rfl : ksel = 3#2 := not_not.1 fun hk => hw (decide_eq_true hk)
      cases h
    | _ => exact hw rfl

/-! ### The reported code (60 R302, R310) -/

section
variable {i : Instr} {s t : State} (h : exec i s = .next t)
include h

/-- A code other than those that a body can end with comes from the checks. -/
theorem exec_errCode_iff {c : ErrCode} (hok : c ≠ .ok) (hpad : c ≠ .invalidPadding) :
    t.errCode = c ↔ firstError (s.checks i) = some c := by
  rcases exec_cases h with ⟨d, hd, rfl⟩ | ⟨hnone, rfl⟩
  · rw [hd, Option.some.injEq, State.complete_errCode]
  · rw [hnone]
    refine iff_of_false ?_ nofun
    rintro rfl
    rcases s.body_errCode i with hb | ⟨-, hb⟩ | ⟨-, hb⟩
    · exact hok hb
    · exact hpad (congrArg State.errCode hb)
    · exact hpad (congrArg State.errCode hb)

/-- INVALID_PADDING is found in a body only, so after every check. -/
theorem firstError_of_exec_invalidPadding (hc : t.errCode = .invalidPadding) : firstError (s.checks i) = none := by
  rcases exec_cases h with ⟨d, hd, rfl⟩ | ⟨hnone, -⟩
  · rw [State.complete_errCode] at hc
    exact absurd (hc ▸ hd) (s.checks_ne_invalidPadding i)
  · exact hnone

end

/-- A command whose checks all hold has none of the causes. -/
theorem State.not_errorCause_of_pass {i : Instr} (hw : i.WellFormed) {s : State} (h : firstError (s.checks i) = none)
    (c : ErrCode) : ¬ errorCause s i c := by
  rw [← State.failing_check_iff_errorCause hw]
  exact fun hmem => Bool.noConfusion (firstError_eq_none.1 h _ hmem)

/-- Settles O58: a check's code is the highest cause by `firstError_checks_iff`, and INVALID_PADDING is found after all checks. -/
theorem errorCodesFollowTheRanking : Obligations.ErrorCodesFollowTheRanking := by
  unfold Obligations.ErrorCodesFollowTheRanking
  refine ⟨fun s w hw => ?_, fun i s t hw h => ?_⟩
  · have heng : (s.accept w).eng = .run .illegal .check :=
      congrArg (Engine.run · .check) (decodeCommand_of_illegalWord hw)
    exact ⟨_, engineTurn_of_illegal heng, rfl⟩
  · have hcode : ∀ c, c ≠ .ok → c ≠ .invalidPadding →
        (t.errCode = c ↔ errorCause s i c ∧ ∀ d, d.rank < c.rank → ¬ errorCause s i d) :=
      fun c hok hpad => (exec_errCode_iff h hok hpad).trans (s.firstError_checks_iff hw c)
    have hill : ¬ errorCause s i .illegalCmd := id
    have hinput : t.errCode = .invalidInput ↔ errorCause s i .invalidInput ∧ ¬ errorCause s i .lengthErr := by
      simp [hcode, ErrCode.forall_iff, ErrCode.rank, hill]
    refine ⟨?_, hinput, ?_, ?_, fun hc => ?_, ?_⟩
    · simp [hcode, ErrCode.forall_iff, ErrCode.rank, hill]
    · simp [hcode, ErrCode.forall_iff, ErrCode.rank, hill]
    · simp [hcode, hill]
    · have hnone := State.not_errorCause_of_pass hw (firstError_of_exec_invalidPadding h hc)
      exact ⟨hnone _, hnone _, hnone _⟩
    · rintro rfl hlen - - -
      have hroom := bufBytes_admitted
      refine hinput.2 ⟨.inl ⟨by simp, by omega⟩, ?_⟩
      rintro (⟨-, hlong⟩ | ⟨hpad | henc, -⟩)
      · omega
      · cases hpad
      · cases henc

/-! ### What an error leaves (60 R303) -/

/-- Settles O57: a failing check is the completion alone, and a body ends with an error in the two ways of `body_errCode`. -/
theorem errorsLeaveTheStateAsItWas : Obligations.ErrorsLeaveTheStateAsItWas := by
  unfold Obligations.ErrorsLeaveTheStateAsItWas
  intro i s t h
  obtain ⟨c, hc, rfl⟩ | ⟨-, rfl⟩ := exec_cases h
  · have hpad : c ≠ .invalidPadding := fun h' => s.checks_ne_invalidPadding i (h' ▸ hc)
    exact ⟨fun _ _ => rfl, fun h' => absurd h' hpad, fun h' => absurd h' hpad⟩
  · obtain hok | ⟨rfl, hbody⟩ | ⟨rfl, hbody⟩ := s.body_errCode i
    · have hpad : (s.body i).errCode ≠ .invalidPadding := fun h' => nomatch hok.symm.trans h'
      exact ⟨fun hne => absurd hok hne, fun h' => absurd h' hpad, fun h' => absurd h' hpad⟩
    · rw [hbody]
      exact ⟨fun _ _ => rfl, fun _ => .inl rfl, nofun⟩
    · rw [hbody]
      refine ⟨fun _ hcase => ?_, fun _ => .inr rfl, fun _ _ => ⟨by rw [State.threePasses_eq]; rfl, fun j hj => ?_⟩⟩
      · exact hcase.elim (absurd rfl) nofun
      · rw [State.readBlock_complete, s.readBlock_threePasses_of_lt decPass hj, State.planBlock_decPass]

end Sys2Proof.Machine
end
